-- ==== Sys2Proof/Word.lean ====
section
/-! DEFINITION. The machine's words, bytes and line states: the plain data that every other file uses
(spec/00_scope.md rule R9, spec/10_state.md rule R10). -/

namespace Sys2Proof

/-- A 32-bit value of the host port, of `HDR` or of a `PW` element (spec/10_state.md R11, R21). -/
abbrev Word := BitVec 32

/-- One byte of `TXBUF` or `RXBUF` (spec/10_state.md R19, R20). -/
abbrev Byte := BitVec 8

/-- The two open-drain lines (spec/00_scope.md section 8): `A` falls in phase 1, `B` in phase 2. -/
inductive Line where
  | A
  | B
deriving DecidableEq, Repr

/-- A line state: the levels of line A and line B, `true` for level 1 (high, released) and `false` for level 0
(spec/00_scope.md R9). A SignalSample is a line state read at one tick. -/
structure LineState where
  a : Bool
  b : Bool
deriving DecidableEq, Repr, Inhabited

namespace LineState

/-- The line state printed `00`: both lines low (spec/00_scope.md R9, line A first). -/
abbrev s00 : LineState := ⟨false, false⟩
/-- The line state printed `01`: line A low, line B high. -/
abbrev s01 : LineState := ⟨false, true⟩
/-- The line state printed `10`: line A high, line B low. -/
abbrev s10 : LineState := ⟨true, false⟩
/-- The line state printed `11`: both lines high. -/
abbrev s11 : LineState := ⟨true, true⟩
/-- `IDLE` is `11` (spec/00_scope.md R9). -/
abbrev idle : LineState := s11

end LineState

end Sys2Proof
end

