-- ==== Sys2Proof/Syntax.lean ====
section
/-! DEFINITION. The six operations of the block as syntax, one constructor per row of spec/opcode_table.json
(spec/30_encoding.md rules R45 to R49). -/

namespace Sys2Proof

/-- The operations of spec/30_encoding.md R45. `maxb` and `tmo` are the two operand fields of format C (R46), plain unsigned
numbers used as they stand (R48, R49); the bounds 4095 and 65535 of their fields are checked by `Instr.WellFormed`. -/
inductive Instr where
  /-- `SEND`: serialise `TXBUF[0 .. TXLEN-1]` onto the lines (spec/40_transport.md R69). -/
  | send
  /-- `RECV maxb, tmo`: receive at most `maxb` bytes into `RXBUF` (spec/40_transport.md R74). -/
  | recv (maxb tmo : Nat)
  /-- `ENCF`: build a packet in `TXBUF` from `HDR` and `PW` (spec/41_frame_codec.md R95). -/
  | encf
  /-- `DECF`: decode the packet in `RXBUF` into `HDR`, `PW` and `NWORDS` (spec/41_frame_codec.md R96, R97). -/
  | decf
  /-- `TXF`: ENCF, then SEND (spec/42_transactions.md R110). -/
  | txf
  /-- `RXF maxb, tmo`: RECV, then DECF (spec/42_transactions.md R111). -/
  | rxf (maxb tmo : Nat)
deriving DecidableEq, Repr

end Sys2Proof
end

