-- ==== Sys2Proof/WellFormed.lean ====
section
/-! DEFINITION. Which operation terms have a command word: the operand fields of format C are 12 and 16 bits wide
(spec/30_encoding.md rules R46, R48, R49). -/

namespace Sys2Proof

/-- `maxb` is a 12-bit and `tmo` a 16-bit unsigned integer: 0 to 4095 and 0 to 65535 (spec/30_encoding.md R48, R49). -/
abbrev OperandsFit (maxb tmo : Nat) : Prop := maxb ≤ 4095 ∧ tmo ≤ 65535

/-- An operation is well formed when each operand fits its field; the other operations have no operand. -/
def Instr.wellFormed : Instr → Bool
  | .send => true
  | .recv maxb tmo => decide (OperandsFit maxb tmo)
  | .encf => true
  | .decf => true
  | .txf => true
  | .rxf maxb tmo => decide (OperandsFit maxb tmo)

/-- `Instr.wellFormed` as a proposition. -/
abbrev Instr.WellFormed (i : Instr) : Prop := i.wellFormed = true

end Sys2Proof
end

