-- ==== Sys2Proof/Decode.lean ====
section
/-! DEFINITION. Command words: the decoder of spec/30_encoding.md rule R53, total on every 32-bit word and refusing by name, and the
encoder written from the same table (rules R46, R47). The bit pattern is the spec's own choice (decision D14). -/

namespace Sys2Proof

/-- Why a command word is illegal (spec/30_encoding.md R51). The block reports both as IllegalOp. -/
inductive DecodeError where
  /-- `opc` is `0x0` or `0x7` to `0xF` (R47). -/
  | reservedOpcode
  /-- `opc` is SEND, ENCF, DECF or TXF and some bit of 27:0 is set (R50). -/
  | reservedField
deriving DecidableEq, Repr

/-- `word[31:28]`, the operation code (spec/30_encoding.md R46). -/
def opcField (w : Word) : BitVec 4 := w.extractLsb' 28 4

/-- `word[27:16]`, the operand `maxb` (spec/30_encoding.md R48). -/
def maxbField (w : Word) : BitVec 12 := w.extractLsb' 16 12

/-- `word[15:0]`, the operand `tmo` (spec/30_encoding.md R49). -/
def tmoField (w : Word) : BitVec 16 := w.extractLsb' 0 16

/-- `word[27:0]`: the bits that must be 0 in an operation without operands (spec/30_encoding.md R50). -/
def operandFields (w : Word) : BitVec 28 := w.extractLsb' 0 28

/-- An operation that takes no operand: legal only when bits 27:0 are 0 (spec/30_encoding.md R50). -/
def withoutOperands (w : Word) (i : Instr) : Except DecodeError Instr :=
  if operandFields w = 0 then .ok i else .error .reservedField

/-- The decoding procedure of spec/30_encoding.md R53: first the operation code, then the reserved fields. -/
def decode (w : Word) : Except DecodeError Instr :=
  match (opcField w).toNat with
  | 1 => withoutOperands w .send
  | 2 => .ok (.recv (maxbField w).toNat (tmoField w).toNat)
  | 3 => withoutOperands w .encf
  | 4 => withoutOperands w .decf
  | 5 => withoutOperands w .txf
  | 6 => .ok (.rxf (maxbField w).toNat (tmoField w).toNat)
  | _ => .error .reservedOpcode

/-- The operation code of each operation (spec/30_encoding.md R47). -/
def Instr.opc : Instr → BitVec 4
  | .send => 0x1
  | .recv _ _ => 0x2
  | .encf => 0x3
  | .decf => 0x4
  | .txf => 0x5
  | .rxf _ _ => 0x6

/-- The field `maxb` of an operation's command word; 0 where the operation has no operand (spec/30_encoding.md R50). -/
def Instr.maxbBits : Instr → BitVec 12
  | .send => 0
  | .recv maxb _ => BitVec.ofNat 12 maxb
  | .encf => 0
  | .decf => 0
  | .txf => 0
  | .rxf maxb _ => BitVec.ofNat 12 maxb

/-- The field `tmo` of an operation's command word; 0 where the operation has no operand (spec/30_encoding.md R50). -/
def Instr.tmoBits : Instr → BitVec 16
  | .send => 0
  | .recv _ tmo => BitVec.ofNat 16 tmo
  | .encf => 0
  | .decf => 0
  | .txf => 0
  | .rxf _ tmo => BitVec.ofNat 16 tmo

/-- The command word `opc :: maxb :: tmo` of an operation (spec/30_encoding.md R46). -/
def encode (i : Instr) : Word := i.opc ++ i.maxbBits ++ i.tmoBits

/-- The match value of an operation's row (spec/30_encoding.md R53; spec/opcode_table.json). -/
def Instr.rowMatch : Instr → Word
  | .send => 0x10000000
  | .recv _ _ => 0x20000000
  | .encf => 0x30000000
  | .decf => 0x40000000
  | .txf => 0x50000000
  | .rxf _ _ => 0x60000000

/-- The mask of an operation's row (spec/30_encoding.md R53; spec/opcode_table.json). -/
def Instr.rowMask : Instr → Word
  | .send => 0xFFFFFFFF
  | .recv _ _ => 0xF0000000
  | .encf => 0xFFFFFFFF
  | .decf => 0xFFFFFFFF
  | .txf => 0xFFFFFFFF
  | .rxf _ _ => 0xF0000000

/-- What the decoder reads from the command word whose bits are `w`, of which the opcode table gives `nbits`; the bits above
are 0, and a number that is wider than the one command word is refused (spec/30_encoding.md R46). -/
def decodeTableWord (nbits w : Nat) : Option Instr :=
  let bits := w % 2 ^ nbits
  if bits < 2 ^ 32 then
    match decode (BitVec.ofNat 32 bits) with
    | .ok i => some i
    | .error _ => none
  else none

end Sys2Proof
end

