-- ==== Sys2Proof/Config.lean ====
section
/-! DEFINITION. What an implementation fixes (the parameters of spec/00_scope.md rule R6) and the values the spec leaves
free (spec/93_implementation_defined.md U1 and U7). The free values have no body: nothing can be proved of them. -/

namespace Sys2Proof

/-- The implementation parameters of spec/00_scope.md R6, each under the spec's own name. The model takes them as
arguments: a machine state carries one value of this type and no operation changes it (assumption 1). What a legal value
must satisfy is `Params.Wf` in Sys2Proof/Machine/Params.lean. -/
structure Params where
  /-- `T_STEP`: ticks the block holds each driven line state during SEND. -/
  tStep : Nat
  /-- `SAMPLE_BUF_SIZE`: the capture budget of RECV, in samples. -/
  sampleBufSize : Nat
  /-- `TXBUF_SIZE`: bytes in `TXBUF`. -/
  txbufSize : Nat
  /-- `RXBUF_SIZE`: bytes in `RXBUF`. -/
  rxbufSize : Nat
  /-- `PW_SIZE`: 32-bit words in `PW`. -/
  pwSize : Nat
  /-- `START_SEQ`: the fixed start sequence (spec/40_transport.md R64). -/
  startSeq : List LineState
  /-- `STOP_SEQ`: the fixed stop sequence (spec/40_transport.md R66). -/
  stopSeq : List LineState
deriving DecidableEq, Repr

namespace Config

/-- FREE VALUE (spec/93_implementation_defined.md U1; assumption 2). `drawnTx e i` is what `TXBUF[i]` holds after reset number `e` until
something writes it: one draw for each element at each reset, under no law. -/
opaque drawnTx : Nat → Nat → Byte

/-- FREE VALUE (U1; assumption 2). What `RXBUF[i]` holds after reset number `e` until something writes it. -/
opaque drawnRx : Nat → Nat → Byte

/-- FREE VALUE (U1; assumption 2). What `PW[i]` holds after reset number `e` until something writes it. -/
opaque drawnPw : Nat → Nat → Word

/-- FREE VALUE (spec/93_implementation_defined.md U7; assumption 3). What the peer contributes to the two lines at the sample that
is number `n` of the machine's life, where the state names no sample for it: a free input under no law. -/
opaque freeSample : Nat → LineState

end Config

end Sys2Proof
end

