-- ==== Sys2Proof/Machine/Line.lean ====
section
/-! DEFINITION. The line code: falls, the sender's steps for one bit and its whole transmit trace (spec/40_transport.md rules R60 to
R63 and R68; notation of spec/00_scope.md rule R9). -/

namespace Sys2Proof

/-- The other of the two lines. -/
def Line.other : Line → Line
  | .A => .B
  | .B => .A

namespace LineState

/-- The level of one line. -/
def level (s : LineState) : Line → Bool
  | .A => s.a
  | .B => s.b

/-- The state with one line set to a level. -/
def set (s : LineState) (l : Line) (v : Bool) : LineState :=
  match l with
  | .A => { s with a := v }
  | .B => { s with b := v }

/-- Open-drain lines: each line is the logical AND of what the two sides contribute (spec/10_state.md R22). -/
def wiredAnd (s t : LineState) : LineState := ⟨s.a && t.a, s.b && t.b⟩

end LineState

/-- Which lines fell in one change: the set `fell(p, c)` of spec/00_scope.md R9, a subset of the two lines. -/
inductive Fall where
  | none
  | one (l : Line)
  | both
deriving DecidableEq, Repr

/-- `fell(p, c)`: a line fell when its level was 1 in `p` and is 0 in `c` (spec/00_scope.md R9). -/
def fell (p c : LineState) : Fall :=
  match p.a && !c.a, p.b && !c.b with
  | false, false => .none
  | true, false => .one .A
  | false, true => .one .B
  | true, true => .both

/-- The falls of the successive steps of a trace, counted from the state `p` before its first element. -/
def fallsFrom : LineState → List LineState → List Fall
  | _, [] => []
  | p, c :: rest => fell p c :: fallsFrom c rest

/-- The bits a trace carries, counted from the state `p` before its first element: each fall of one line carries one bit, the level of
the other line after the fall (spec/40_transport.md R60, R72). This is the line code itself; SEND and RECV are its two ends. -/
def carriedBits : LineState → List LineState → List Bool
  | _, [] => []
  | p, c :: rest =>
    match fell p c with
    | .none => carriedBits c rest
    | .one l => c.level l.other :: carriedBits c rest
    | .both => carriedBits c rest

/-- `bit_steps(state, C, D, d)` of spec/40_transport.md R63, with `D` the line that is not the clock line `C`: raise the clock
line, set the data line to the bit, drop the clock line. -/
def bitSteps (state : LineState) (clock : Line) (d : Bool) : List LineState :=
  let s1 := state.set clock true
  let s2 := s1.set clock.other d
  let s3 := s2.set clock false
  [s1, s2, s3]

/-- The clock line of packet bit `n`: line A for an even number (phase 1), line B for an odd one (phase 2)
(spec/40_transport.md R62). -/
def clockLine (n : Nat) : Line := if n % 2 = 0 then .A else .B

/-- The bits of a byte in the order sent, most significant first: bit `i` is `byte[7 - i]` (spec/40_transport.md R61). -/
def byteBits (y : Byte) : List Bool := (List.range 8).map (fun i => y.getLsbD (7 - i))

/-- The line states of the packet bits from number `n` on, starting from the state the lines were left in: the loop of
`tx_trace` in spec/40_transport.md R68. -/
def dataTrace : Nat → LineState → List Bool → List LineState
  | _, _, [] => []
  | n, state, d :: ds =>
    let steps := bitSteps state (clockLine n) d
    steps ++ dataTrace (n + 1) (steps.getLastD state) ds

/-- `tx_trace(bytes)` of spec/40_transport.md R68: the start sequence, 24 states for each byte, the stop sequence. -/
def txTrace (P : Params) (bytes : List Byte) : List LineState :=
  P.startSeq ++ dataTrace 0 (P.startSeq.getLastD .idle) (bytes.flatMap byteBits) ++ P.stopSeq

end Sys2Proof
end

