-- ==== Sys2Proof/Machine/Params.lean ====
section
/-! DEFINITION. What a legal value of the implementation parameters satisfies (spec/00_scope.md rule R6, spec/40_transport.md rules R64
and R66), and the reference value of the spec's test vectors (rules R6, R65, R67). -/

namespace Sys2Proof

/-- The falls of a trace that are not empty, in order: the steps that make some line fall. -/
def fallingSteps (p : LineState) (trace : List LineState) : List Fall :=
  (fallsFrom p trace).filter (fun f => decide (f ≠ .none))

/-- The constraints on `START_SEQ` of spec/40_transport.md R64: (a) not empty, first element not `IDLE`, no two neighbours equal;
(b) last element `10`; (c) no step makes both lines fall, counted from `IDLE`; (d) some step makes a line fall, and the
last such step makes line B fall. -/
def startSeqOk (start : List LineState) : Bool :=
  decide (start ≠ []) && decide (start.head? ≠ some .idle) && decide (start.IsChain (· ≠ ·)) &&
  decide (start.getLast? = some .s10) &&
  decide (Fall.both ∉ fallsFrom .idle start) &&
  decide ((fallingSteps .idle start).getLast? = some (.one .B))

/-- Clauses (b) and (c) of spec/40_transport.md R66 for a stop sequence that begins from the state `p`: the first step that makes any
line fall makes line B fall and only line B, and no step makes both lines fall. That there is such a step is DEDUCED from
what R66 says the sequence must achieve, the end of the packet (assumption 4). -/
def stopSeqOkFrom (p : LineState) (stop : List LineState) : Bool :=
  decide ((fallingSteps p stop).head? = some (.one .B)) && decide (Fall.both ∉ fallsFrom p stop)

/-- The constraints on `STOP_SEQ` of spec/40_transport.md R66: (a) not empty, last element `IDLE`; (b) and (c) from either state after
the last bit (`00`, `10`) and from the last state of `START_SEQ`. -/
def stopSeqOk (start stop : List LineState) : Bool :=
  decide (stop ≠ []) && decide (stop.getLast? = some .idle) &&
  stopSeqOkFrom .s00 stop && stopSeqOkFrom .s10 stop && stopSeqOkFrom (start.getLastD .idle) stop

/-- The numeric constraints of the table of spec/00_scope.md R6. -/
def Params.sizesOk (P : Params) : Bool :=
  decide (1 ≤ P.tStep) && decide (1 ≤ P.sampleBufSize) &&
  decide (5 ≤ P.txbufSize ∧ P.txbufSize ≤ 4095) && decide (5 ≤ P.rxbufSize ∧ P.rxbufSize ≤ 4095) &&
  decide (P.pwSize ≤ 1023 ∧ P.rxbufSize / 4 - 1 ≤ P.pwSize)

/-- A legal value of the parameters: every constraint of the table of spec/00_scope.md R6. -/
abbrev Params.Wf (P : Params) : Prop :=
  (P.sizesOk && startSeqOk P.startSeq && stopSeqOk P.startSeq P.stopSeq) = true

/-- The reference values of the table of spec/00_scope.md R6 with the sequences of spec/40_transport.md R65 and R67, used by the spec's
test vectors. The two sequences are general knowledge (spec/93_implementation_defined.md G1); no statement rests on them. -/
def Params.reference : Params where
  tStep := 1
  sampleBufSize := 4096
  txbufSize := 1025
  rxbufSize := 1025
  pwSize := 255
  startSeq := [.s01, .s00, .s01, .s00, .s01, .s00, .s01, .s00, .s01, .s11, .s10]
  stopSeq := [.s10, .s11, .s10, .s00, .s10, .s00, .s10, .s11]

end Sys2Proof
end

