-- ==== Sys2Proof/Machine/State.lean ====
section
/-! DEFINITION. The state of the block as plain data: every register, buffer and latch of spec/10_state.md rule R10, and beside it the
inputs of the step relation (rule R24) and the outputs of a run (spec/43_operation_laws.md rules R116, R117). -/

namespace Sys2Proof.Machine

/-- A buffer of `w`-bit elements as a list of (index, value) pairs: the elements written since the last reset, by rising
index. An element that is not listed has no value of its own and reads as its free draw (assumption 2). `Memory 8` is a list
of `Host.Cell`. -/
abbrev Memory (w : Nat) := List (Nat × BitVec w)

/-- One thing the outside does at the host port or at the reset pin (spec/10_state.md R27). An address is the port's 14 bits
15 down to 2 of the byte address, so a misaligned access cannot be written (spec/20_memory.md R31). -/
inductive PortEvent where
  /-- `MemRead(4·addr, 4)`: one read access. -/
  | read (addr : BitVec 14)
  /-- `MemWrite(4·addr, 4, v)`: one write access. A write to `OP` (address 0) is a command. -/
  | write (addr : BitVec 14) (v : Word)
  /-- `rst` is asserted and released between two accesses (spec/70_reset_and_hazards.md R140). -/
  | reset
  /-- The command word `w` is written to `OP`, and `rst` is asserted when the operation it starts has spent `ticks` ticks driving
  or sampling the lines; beyond the operation's own duration it is asserted at its end, before the acknowledgement (R140). -/
  | resetDuring (w : Word) (ticks : Nat)
deriving DecidableEq, Repr

/-- One thing the outside sees of the block (spec/43_operation_laws.md R117, spec/10_state.md R27). -/
inductive Output where
  /-- `h_ack` with `h_rdata`: a read access returned this value. -/
  | readData (v : Word)
  /-- `h_ack` of a write access; for a write to `OP`, when the operation has ended (spec/10_state.md R18). -/
  | writeAck
  /-- The block drove this line state for `T_STEP` ticks (spec/00_scope.md R9, `drive`). -/
  | drove (s : LineState)
deriving DecidableEq, Repr

/-- What the peer contributes to the lines: an input of the step relation (spec/10_state.md R24, spec/00_scope.md R8). -/
structure Peer where
  /-- The contributions at the coming samples, soonest first; after the last of them `Config.freeSample` supplies the rest. -/
  queued : List LineState
  /-- The number of samples taken since the machine was made. -/
  taken : Nat
deriving DecidableEq, Repr

/-- The machine's state. The first ten fields are the spec's own state (spec/10_state.md R10), each register at its used
width (R26); `OP` stores nothing (R18), and the engine's working state exists only inside an operation, which the model executes as one
indivisible transition (R12, R23; assumption 5). The other fields are the model's own: the inputs and outputs of a run. -/
structure State where
  /-- `HDR`: command, destination, source, payload length from the top byte down (R11). -/
  hdr : Word
  /-- `STATUS[11:0]`: `DETAIL :: CODE` (R13). -/
  status : BitVec 12
  /-- `CTRL[0]`: `RELAXED` (R14). -/
  ctrl : BitVec 1
  /-- `NWORDS[9:0]` (R15). -/
  nwords : BitVec 10
  /-- `TXLEN[11:0]` (R16). -/
  txlen : BitVec 12
  /-- `RXLEN[11:0]` (R17). -/
  rxlen : BitVec 12
  /-- `TXBUF` (R19). -/
  txbuf : Memory 8
  /-- `RXBUF` (R20). -/
  rxbuf : Memory 8
  /-- `PW` (R21). -/
  pw : Memory 32
  /-- The output latch of line A: `false` pulls the line low, `true` releases it (R22). -/
  drvA : Bool
  /-- The output latch of line B (R22). -/
  drvB : Bool
  /-- The implementation parameters (spec/00_scope.md R6): an input, changed by no step (assumption 1). -/
  params : Params
  /-- The number of resets so far: it tells one draw of the unwritten buffer elements from the next (assumption 2). -/
  epoch : Nat
  /-- The accesses and resets to come, soonest first (spec/43_operation_laws.md R117): an input (assumption 6). -/
  pending : List PortEvent
  /-- The peer's contributions to the lines: an input (assumption 3). -/
  peer : Peer
  /-- What the outside has seen, oldest first (spec/43_operation_laws.md R117): an output. -/
  outputs : List Output
  /-- The number of ticks the block has spent driving line states (spec/43_operation_laws.md R116): an output. -/
  driveTicks : Nat
deriving DecidableEq, Repr

/-- Why a step could stop with a fault. There is no reason: "No error is fatal" (spec/60_exceptions.md R126), every operation is total
(spec/43_operation_laws.md R116) and a run has "no fault state that stops the block" (R117). The type is empty, so that no
meaning can raise a fault; this is neither safe nor unsafe, since nothing is stopped. -/
inductive Fault where
deriving DecidableEq, Repr

/-- Why an instruction could have no meaning. -/
inductive Refusal where
  /-- Raised by a refused arm of `exec` for an instruction that has no meaning yet; safe, because nothing is claimed of it. No arm
  raises it now. -/
  | notModelled (mnemonic : String)
deriving DecidableEq, Repr

/-- The state right after reset (spec/10_state.md R25): registers 0, no buffer element written, both lines released, no operation
running. The parameters are the reference values (assumption 1), and nothing has come in or gone out. -/
def State.reset : State where
  hdr := 0
  status := 0
  ctrl := 0
  nwords := 0
  txlen := 0
  rxlen := 0
  txbuf := []
  rxbuf := []
  pw := []
  drvA := true
  drvB := true
  params := Params.reference
  epoch := 0
  pending := []
  peer := ⟨[], 0⟩
  outputs := []
  driveTicks := 0

end Sys2Proof.Machine
end

