-- ==== Sys2Proof/Machine/Flags.lean ====
section
/-! DEFINITION. The status computation: the result codes and sub-causes of spec/60_exceptions.md rules R120 and R121 and the layout of
`STATUS` (spec/10_state.md rule R13). The block has no other flag. -/

namespace Sys2Proof.Machine

/-- The kinds of result an operation reports (spec/60_exceptions.md R120). -/
inductive Code where
  | ok
  | timeout
  | frameError
  | overflow
  | lengthError
  | checksumError
  | illegalOp
  | operandError
deriving DecidableEq, Repr

/-- The value of `STATUS.CODE`, an 8-bit two's-complement number (spec/60_exceptions.md R120). -/
def Code.bits : Code → Byte
  | .ok => 0x00
  | .timeout => 0xFF
  | .frameError => 0xFE
  | .overflow => 0xFD
  | .lengthError => 0xFC
  | .checksumError => 0xFB
  | .illegalOp => 0xFA
  | .operandError => 0xF9

/-- The sub-causes of FrameError (spec/60_exceptions.md R121). -/
inductive FrameDetail where
  | startMismatch
  | simultaneousFall
  | bitCount
  | unterminated
deriving DecidableEq, Repr

/-- The value of `STATUS.DETAIL` for a FrameError (spec/60_exceptions.md R121). -/
def FrameDetail.bits : FrameDetail → BitVec 4
  | .startMismatch => 1
  | .simultaneousFall => 2
  | .bitCount => 3
  | .unterminated => 4

/-- How the receiver's scan, or the capture budget, ends a reception (spec/40_transport.md R70, R74). -/
inductive Verdict where
  | ok
  | overflow
  | frameError (detail : FrameDetail)
deriving DecidableEq, Repr

/-- The result code of a verdict (spec/40_transport.md R74). -/
def Verdict.code : Verdict → Code
  | .ok => .ok
  | .overflow => .overflow
  | .frameError _ => .frameError

/-- The detail of a verdict: the sub-cause of a FrameError, otherwise 0 (spec/60_exceptions.md R121). -/
def Verdict.detail : Verdict → BitVec 4
  | .ok => 0
  | .overflow => 0
  | .frameError d => d.bits

/-- `STATUS[11:0] = DETAIL :: CODE` (spec/10_state.md R13). -/
def statusBits (c : Code) (detail : BitVec 4) : BitVec 12 := detail ++ c.bits

/-- `STATUS.CODE = STATUS[7:0]` (spec/10_state.md R13). -/
def State.code (s : State) : Byte := s.status.extractLsb' 0 8

/-- `STATUS.DETAIL = STATUS[11:8]` (spec/10_state.md R13). -/
def State.detail (s : State) : BitVec 4 := s.status.extractLsb' 8 4

end Sys2Proof.Machine
end

