-- ==== Sys2Proof/Machine/Operands.lean ====
section
/-! DEFINITION. The operands of the operations and the tests made on them before anything is written: lengths, sizes and modes
(spec/30_encoding.md rules R48 and R49, spec/43_operation_laws.md rule R112, spec/60_exceptions.md rule R120). -/

namespace Sys2Proof.Machine

/-- `N = HDR[7:0]`, the number of payload words ENCF and TXF send (spec/41_frame_codec.md R95). -/
def State.payloadCount (s : State) : Nat := (s.hdr.extractLsb' 0 8).toNat

/-- The length `4·N + 5` of a packet with `N` payload words (spec/41_frame_codec.md R90). -/
def packetLength (n : Nat) : Nat := 4 * n + 5

/-- `CTRL.RELAXED` is set (spec/10_state.md R14). -/
abbrev State.Relaxed (s : State) : Prop := s.ctrl = 1

/-- SEND accepts its operand: `TXLEN` is not greater than `TXBUF_SIZE` (spec/40_transport.md R69). -/
abbrev State.SendFits (s : State) : Prop := s.txlen.toNat ≤ s.params.txbufSize

/-- RECV accepts its operand: `maxb` is not greater than `RXBUF_SIZE` (spec/40_transport.md R74). -/
abbrev State.RecvFits (s : State) (maxb : Nat) : Prop := maxb ≤ s.params.rxbufSize

/-- ENCF accepts its operand: the payload fits `PW` and the packet fits `TXBUF` (spec/41_frame_codec.md R95). -/
abbrev State.EncodeFits (s : State) : Prop :=
  s.payloadCount ≤ s.params.pwSize ∧ packetLength s.payloadCount ≤ s.params.txbufSize

/-- DECF accepts its operand: `RXLEN` is not greater than `RXBUF_SIZE` (spec/41_frame_codec.md R96). -/
abbrev State.DecodeFits (s : State) : Prop := s.rxlen.toNat ≤ s.params.rxbufSize

/-- The length test of strict DECF: at least 5 bytes, and one more than a multiple of 4 (spec/41_frame_codec.md R96). -/
abbrev StrictLength (n : Nat) : Prop := 5 ≤ n ∧ (n - 1) % 4 = 0

/-- The number of groups strict DECF delivers (spec/41_frame_codec.md R96). -/
def strictGroups (n : Nat) : Nat := (n - 1) / 4

/-- The number of groups relaxed DECF delivers (spec/41_frame_codec.md R97). -/
def relaxedGroups (n : Nat) : Nat := n / 4

end Sys2Proof.Machine
end

