-- ==== Sys2Proof/Machine/Ops.lean ====
section
/-! DEFINITION. The named operations over buffers, registers and lines that every meaning is written with: reading and writing
buffer elements, driving and sampling the lines, ending an operation (`done` and `raise`), and reset. -/

namespace Sys2Proof.Machine

/-! ## Buffers -/

/-- The canonical form of a buffer of `size` elements: indices strictly rising, each inside the buffer. No entry can equal
what an unlisted element holds, since that is no value of the buffer's own (assumption 2). -/
abbrev Memory.wf {w : Nat} (size : Nat) (m : Memory w) : Prop :=
  m.Pairwise (fun c d => c.1 < d.1) ∧ ∀ c ∈ m, c.1 < size

/-- The value an element was last given, if anything has written it since the last reset. -/
def Memory.find {w : Nat} (m : Memory w) (i : Nat) : Option (BitVec w) :=
  match m with
  | [] => none
  | (j, u) :: rest => if i = j then some u else Memory.find rest i

/-- Write one element, keeping the canonical form. -/
def Memory.store {w : Nat} (m : Memory w) (i : Nat) (v : BitVec w) : Memory w :=
  match m with
  | [] => [(i, v)]
  | (j, u) :: rest =>
    if i < j then (i, v) :: (j, u) :: rest
    else if i = j then (i, v) :: rest
    else (j, u) :: Memory.store rest i v

/-- Write successive elements from index `base` on, in order. -/
def Memory.storeAll {w : Nat} (m : Memory w) (base : Nat) : List (BitVec w) → Memory w
  | [] => m
  | v :: vs => Memory.storeAll (m.store base v) (base + 1) vs

/-- `TXBUF[i]`; a free draw until something writes it (spec/10_state.md R19, R25). -/
def State.txByte (s : State) (i : Nat) : Byte := (s.txbuf.find i).getD (Config.drawnTx s.epoch i)

/-- `RXBUF[i]`; a free draw until something writes it (spec/10_state.md R20, R25). -/
def State.rxByte (s : State) (i : Nat) : Byte := (s.rxbuf.find i).getD (Config.drawnRx s.epoch i)

/-- `PW[i]`; a free draw until something writes it (spec/10_state.md R21, R25). -/
def State.pwWord (s : State) (i : Nat) : Word := (s.pw.find i).getD (Config.drawnPw s.epoch i)

/-- `TXBUF[0 .. n-1]`. -/
def State.txBytes (s : State) (n : Nat) : List Byte := (List.range n).map s.txByte

/-- `RXBUF[0 .. n-1]`. -/
def State.rxBytes (s : State) (n : Nat) : List Byte := (List.range n).map s.rxByte

/-- `PW[0 .. n-1]`. -/
def State.pwWords (s : State) (n : Nat) : List Word := (List.range n).map s.pwWord

/-! ## Bytes and words -/

/-- The exclusive or of all bytes of a list, `0x00` for the empty list (spec/00_scope.md R9). -/
def xorBytes (bytes : List Byte) : Byte := bytes.foldr (· ^^^ ·) 0

/-- `W[8·j + 7 : 8·j]`: byte `j` of a word (spec/41_frame_codec.md R93). -/
def wordByte (w : Word) (j : Nat) : Byte := w.extractLsb' (8 * j) 8

/-- The four wire bytes of a 32-bit value, least significant byte first (spec/20_memory.md R34). -/
def wordBytes (w : Word) : List Byte := [wordByte w 0, wordByte w 1, wordByte w 2, wordByte w 3]

/-- `b3 :: b2 :: b1 :: b0`: the value of four wire bytes (spec/41_frame_codec.md R96). -/
def bytesWord (b0 b1 b2 b3 : Byte) : Word := b3 ++ b2 ++ b1 ++ b0

/-! ## The end of an operation -/

/-- The end of every operation (spec/60_exceptions.md R125, spec/00_scope.md R9): release both lines and write `STATUS`.
`done` is this with `Ok`; `raise <Error>(detail)` is this with the error's code. It is the block's only exception entry:
nothing is saved, no mode changes, and there is nothing to return from (R126). -/
def State.finish (s : State) (c : Code) (detail : BitVec 4) : State :=
  { s with drvA := true, drvB := true, status := statusBits c detail }

/-! ## The lines -/

/-- What the block contributes to the two lines (spec/10_state.md R22). -/
def State.latches (s : State) : LineState := ⟨s.drvA, s.drvB⟩

/-- `drive(s)`: set the two latches and hold them for `T_STEP` ticks (spec/00_scope.md R9). -/
def State.drive (s : State) (l : LineState) : State :=
  { s with
    drvA := l.a
    drvB := l.b
    outputs := s.outputs ++ [.drove l]
    driveTicks := s.driveTicks + s.params.tStep }

/-- Drive the states of a trace in order. -/
def State.driveAll (s : State) : List LineState → State
  | [] => s
  | l :: rest => (s.drive l).driveAll rest

/-- `sample()`: wait one tick and read the pins, where each line is the AND of the block's latch and the peer's contribution
(spec/00_scope.md R9, spec/10_state.md R22). -/
def Peer.sample (p : Peer) (latches : LineState) : LineState × Peer :=
  match p.queued with
  | [] => (latches.wiredAnd (Config.freeSample p.taken), ⟨[], p.taken + 1⟩)
  | x :: rest => (latches.wiredAnd x, ⟨rest, p.taken + 1⟩)

/-- The peer after `n` further samples have been taken. -/
def Peer.after (p : Peer) (n : Nat) : Peer := ⟨p.queued.drop n, p.taken + n⟩

/-! ## Reset and the port's outputs -/

/-- The state after `rst` (spec/70_reset_and_hazards.md R140): the reset state, with fresh draws for every buffer element. The
parameters, the inputs to come and the record of what has been seen are no state of the block and stay. -/
def State.restart (s : State) : State :=
  { State.reset with
    params := s.params
    epoch := s.epoch + 1
    pending := s.pending
    peer := s.peer
    outputs := s.outputs
    driveTicks := s.driveTicks }

/-- Record one thing the outside sees (spec/43_operation_laws.md R117). -/
def State.emit (s : State) (o : Output) : State := { s with outputs := s.outputs ++ [o] }

end Sys2Proof.Machine
end

