-- ==== Sys2Proof/Machine/Codec.lean ====
section
/-! DEFINITION. Frame Codec: ENCF and DECF, strict and relaxed (spec/41_frame_codec.md rules R90 to R98). -/

namespace Sys2Proof.Machine

/-! ## ENCF -/

/-- The bytes of a packet before its checksum: the header and the payload words, each least significant byte first
(spec/41_frame_codec.md R91, R93). -/
def packetBody (hdr : Word) (words : List Word) : List Byte := wordBytes hdr ++ words.flatMap wordBytes

/-- The wire bytes of a packet: its body and the exclusive or of all bytes of it (spec/41_frame_codec.md R90, R94). -/
def packetBytes (hdr : Word) (words : List Word) : List Byte :=
  packetBody hdr words ++ [xorBytes (packetBody hdr words)]

/-- ENCF (spec/41_frame_codec.md R95): write the packet of `HDR` and `PW[0 .. N-1]` to `TXBUF` and its length to `TXLEN`, or report
OperandError before anything is written. -/
def encodeFrame (s : State) : State :=
  if s.EncodeFits then
    { s with
      txbuf := s.txbuf.storeAll 0 (packetBytes s.hdr (s.pwWords s.payloadCount))
      txlen := BitVec.ofNat 12 (packetLength s.payloadCount) }.finish .ok 0
  else s.finish .operandError 0

/-- The meaning of `ENCF`. -/
def execEncf (s : State) : Host.Outcome State Fault Refusal := .next (encodeFrame s)

/-! ## DECF -/

/-- Group `g` of `RXBUF` as a 32-bit value, lowest index to the least significant byte (spec/41_frame_codec.md R96). -/
def State.rxGroup (s : State) (g : Nat) : Word :=
  bytesWord (s.rxByte (4 * g)) (s.rxByte (4 * g + 1)) (s.rxByte (4 * g + 2)) (s.rxByte (4 * g + 3))

/-- `deliver(G)` (spec/41_frame_codec.md R96): group 0 to `HDR`, group `i + 1` to `PW[i]`, and the number of words to `NWORDS`. -/
def State.deliver (s : State) (groups : Nat) : State :=
  { s with
    hdr := s.rxGroup 0
    pw := s.pw.storeAll 0 ((List.range (groups - 1)).map (fun i => s.rxGroup (i + 1)))
    nwords := BitVec.ofNat 10 (groups - 1) }

/-- The checksum test of strict DECF: the exclusive or of all bytes but the last is the last byte
(spec/41_frame_codec.md R96). -/
abbrev State.ChecksumOk (s : State) (n : Nat) : Prop := xorBytes (s.rxBytes (n - 1)) = s.rxByte (n - 1)

/-- Strict DECF on `n` bytes: the length is tested first, the checksum second (spec/41_frame_codec.md R96). -/
def decodeStrict (s : State) (n : Nat) : State :=
  if StrictLength n then
    if s.ChecksumOk n then (s.deliver (strictGroups n)).finish .ok 0
    else s.finish .checksumError 0
  else s.finish .lengthError 0

/-- Relaxed DECF on `n` bytes: every whole group, and LengthError only when there is none (spec/41_frame_codec.md R97). -/
def decodeRelaxed (s : State) (n : Nat) : State :=
  if relaxedGroups n < 1 then s.finish .lengthError 0
  else (s.deliver (relaxedGroups n)).finish .ok 0

/-- DECF (spec/41_frame_codec.md R96, R97): OperandError before anything else, then the path `CTRL[0]` selects. -/
def decodeFrame (s : State) : State :=
  if s.DecodeFits then
    if s.Relaxed then decodeRelaxed s s.rxlen.toNat else decodeStrict s s.rxlen.toNat
  else s.finish .operandError 0

/-- The meaning of `DECF`. -/
def execDecf (s : State) : Host.Outcome State Fault Refusal := .next (decodeFrame s)

end Sys2Proof.Machine
end

