-- ==== Sys2Proof/Machine/Transport.lean ====
section
/-! DEFINITION. Bus Transport: SEND and RECV with the receiver's scan (spec/40_transport.md rules R69 to R74). -/

namespace Sys2Proof.Machine

/-! ## SEND -/

/-- SEND (spec/40_transport.md R69): drive the transmit trace of `TXBUF[0 .. TXLEN-1]`, or report OperandError before any line is
driven. -/
def sendPacket (s : State) : State :=
  if s.SendFits then (s.driveAll (txTrace s.params (s.txBytes s.txlen.toNat))).finish .ok 0
  else s.finish .operandError 0

/-- The meaning of `SEND`. -/
def execSend (s : State) : Host.Outcome State Fault Refusal := .next (sendPacket s)

/-! ## The receiver's scan -/

/-- The two modes of the scan (spec/40_transport.md R70). -/
inductive ScanMode where
  | start
  | data
deriving DecidableEq, Repr

/-- The scan's state (spec/40_transport.md R70): engine working state, made afresh by every reception (spec/10_state.md R23). -/
structure Scan where
  mode : ScanMode
  /-- The index into `START_SEQ`. -/
  k : Nat
  /-- The previous line state. -/
  prev : LineState
  /-- The type of the most recent fall. -/
  prevFall : Option Line
  /-- The number of data bits taken so far. -/
  nbits : Nat
  /-- The shift register of the byte being assembled. -/
  acc : Byte
deriving DecidableEq, Repr

/-- The scan's initial state, with `prev` the reference sample (spec/40_transport.md R70). -/
def Scan.init (ref : LineState) : Scan := ⟨.start, 0, ref, none, 0, 0⟩

/-- What one scan step does: stop with a verdict, or go on, perhaps with a byte just completed. -/
inductive ScanResult where
  | stop (v : Verdict)
  | go (sc : Scan) (byte : Option Byte)
deriving DecidableEq, Repr

/-- The type of the most recent fall after a change: a change in which not exactly one line falls leaves it alone
(spec/40_transport.md R71). -/
def Fall.orElse (f : Fall) (before : Option Line) : Option Line :=
  match f with
  | .none => before
  | .one l => some l
  | .both => before

/-- The scan step in `Start` mode on a changed sample (spec/40_transport.md R71). -/
def startStep (startSeq : List LineState) (x : LineState) (sc : Scan) : ScanResult :=
  if startSeq[sc.k]? = some x then
    let mode := if sc.k + 1 = startSeq.length then .data else .start
    .go { sc with mode := mode, k := sc.k + 1, prev := x, prevFall := Fall.orElse (fell sc.prev x) sc.prevFall } none
  else .stop (.frameError .startMismatch)

/-- `((acc << 1) | d)[7:0]` (spec/40_transport.md R73). -/
def shiftIn (acc : Byte) (d : Bool) : Byte := (acc <<< 1) ||| (BitVec.ofBool d).zeroExtend 8

/-- `take_bit(d)` (spec/40_transport.md R73): shift the bit in, and hand over the byte when its eighth bit has come. -/
def takeBit (d : Bool) (sc : Scan) : Scan × Option Byte :=
  let acc := shiftIn sc.acc d
  let nbits := sc.nbits + 1
  if nbits % 8 = 0 then ({ sc with acc := 0, nbits := nbits }, some acc)
  else ({ sc with acc := acc, nbits := nbits }, none)

/-- The scan step in `Data` mode on a changed sample (spec/40_transport.md R72). -/
def dataStep (maxb : Nat) (x : LineState) (sc : Scan) : ScanResult :=
  match fell sc.prev x with
  | .both => .stop (.frameError .simultaneousFall)
  | .none => .go { sc with prev := x } none
  | .one l =>
    if sc.prevFall = some l then
      if sc.nbits % 8 = 0 then .stop .ok else .stop (.frameError .bitCount)
    else if sc.nbits = 8 * maxb then .stop .overflow
    else
      let taken := takeBit (x.level l.other) sc
      .go { taken.1 with prevFall := some l, prev := x } taken.2

/-- One scan step: nothing on a repeated sample, otherwise the step of the mode (spec/40_transport.md R71, R72). -/
def scanStep (startSeq : List LineState) (maxb : Nat) (x : LineState) (sc : Scan) : ScanResult :=
  if x = sc.prev then .go sc none
  else
    match sc.mode with
    | .start => startStep startSeq x sc
    | .data => dataStep maxb x sc

/-! ## RECV -/

/-- The first loop of RECV (spec/40_transport.md R74): at most `budget` further samples; the first that differs from the reference
sample, if any, and the peer after the samples taken. -/
def awaitChange (latches ref : LineState) : Nat → Peer → Option LineState × Peer
  | 0, p => (none, p)
  | budget + 1, p =>
    let r := p.sample latches
    if r.1 = ref then awaitChange latches ref budget r.2 else (some r.1, r.2)

/-- What a reception leaves: the verdict, the bytes completed in order, and the peer after the samples taken. -/
structure Reception where
  verdict : Verdict
  bytes : List Byte
  peer : Peer
deriving DecidableEq, Repr

/-- The second loop of RECV (spec/40_transport.md R74): scan the sample `x` and then the samples after it, at most `budget` in all.
The scan's verdict on the last sample wins over Unterminated. -/
def capture (startSeq : List LineState) (maxb : Nat) (latches : LineState) :
    Nat → LineState → Scan → Peer → Reception
  | 0, _, _, p => ⟨.frameError .unterminated, [], p⟩
  | budget + 1, x, sc, p =>
    match scanStep startSeq maxb x sc with
    | .stop v => ⟨v, [], p⟩
    | .go sc' byte =>
      if budget = 0 then ⟨.frameError .unterminated, byte.toList, p⟩
      else
        let r := p.sample latches
        let rest := capture startSeq maxb latches budget r.1 sc' r.2
        { rest with bytes := byte.toList ++ rest.bytes }

/-- What RECV writes when the capture has ended: the completed bytes, their number, and the status
(spec/40_transport.md R73, R74, R78). -/
def State.received (s : State) (r : Reception) : State :=
  { s with
    rxbuf := s.rxbuf.storeAll 0 r.bytes
    rxlen := BitVec.ofNat 12 r.bytes.length
    peer := r.peer }.finish r.verdict.code r.verdict.detail

/-- RECV (spec/40_transport.md R74): OperandError before anything else; then clear `RXLEN`, take the reference sample, wait for the
initial transition, capture and decode. -/
def receivePacket (maxb tmo : Nat) (s : State) : State :=
  if s.RecvFits maxb then
    let ref := s.peer.sample s.latches
    let change := awaitChange s.latches ref.1 tmo ref.2
    match change.1 with
    | none => { s with rxlen := 0, peer := change.2 }.finish .timeout 0
    | some x =>
      s.received (capture s.params.startSeq maxb s.latches s.params.sampleBufSize x (Scan.init ref.1) change.2)
  else s.finish .operandError 0

/-- The meaning of `RECV maxb, tmo`. -/
def execRecv (maxb tmo : Nat) (s : State) : Host.Outcome State Fault Refusal := .next (receivePacket maxb tmo s)

end Sys2Proof.Machine
end

