-- ==== Sys2Proof/Machine/Transactions.lean ====
section
/-! DEFINITION. The chained operations TXF and RXF (spec/42_transactions.md rules R110 and R111). -/

namespace Sys2Proof.Machine

/-- The one conditional step of a chained operation: the second half runs exactly when the first ended with
`STATUS.CODE = 0x00` (spec/43_operation_laws.md R113). -/
def thenIfOk (first second : State → State) (s : State) : State :=
  if (first s).code = 0x00 then second (first s) else first s

/-- The meaning of `TXF`: ENCF, then SEND (spec/42_transactions.md R110). -/
def execTxf (s : State) : Host.Outcome State Fault Refusal := .next (thenIfOk encodeFrame sendPacket s)

/-- The meaning of `RXF maxb, tmo`: RECV, then DECF (spec/42_transactions.md R111). -/
def execRxf (maxb tmo : Nat) (s : State) : Host.Outcome State Fault Refusal :=
  .next (thenIfOk (receivePacket maxb tmo) decodeFrame s)

end Sys2Proof.Machine
end

