-- ==== Sys2Proof/Machine/Dispatch.lean ====
section
/-! DEFINITION. The dispatch of an operation to its meaning, one arm per row of spec/opcode_table.json. -/

namespace Sys2Proof.Machine

def exec (i : Instr) (s : State) : Host.Outcome State Fault Refusal :=
  match i with
  | .send => Sys2Proof.Machine.execSend s
  | .recv maxb tmo => Sys2Proof.Machine.execRecv maxb tmo s
  | .encf => Sys2Proof.Machine.execEncf s
  | .decf => Sys2Proof.Machine.execDecf s
  | .txf => Sys2Proof.Machine.execTxf s
  | .rxf maxb tmo => Sys2Proof.Machine.execRxf maxb tmo s

end Sys2Proof.Machine
end

