-- ==== Sys2Proof/Machine/HostPort.lean ====
section
/-! DEFINITION. The host's view of the registers and buffers: the address map and the reads and writes of spec/20_memory.md rules R31 to
R33, and the reserved bits of spec/10_state.md rule R26. -/

namespace Sys2Proof.Machine

/-- What stands at a host address (spec/20_memory.md R32). -/
inductive Location where
  | op
  | status
  | ctrl
  | hdr
  | nwords
  | txlen
  | rxlen
  | txbuf (i : Nat)
  | rxbuf (i : Nat)
  | pw (i : Nat)
  | reserved
deriving DecidableEq, Repr

/-- The address map of spec/20_memory.md R32, by the byte address of a location. A buffer-window address at or beyond the
buffer's size is reserved (R33). -/
def locate (P : Params) (byteAddr : Nat) : Location :=
  if byteAddr < 0x1000 then
    match byteAddr with
    | 0x0000 => .op
    | 0x0004 => .status
    | 0x0008 => .ctrl
    | 0x000C => .hdr
    | 0x0010 => .nwords
    | 0x0014 => .txlen
    | 0x0018 => .rxlen
    | _ => .reserved
  else if byteAddr < 0x5000 then
    if (byteAddr - 0x1000) / 4 < P.txbufSize then .txbuf ((byteAddr - 0x1000) / 4) else .reserved
  else if byteAddr < 0x9000 then
    if (byteAddr - 0x5000) / 4 < P.rxbufSize then .rxbuf ((byteAddr - 0x5000) / 4) else .reserved
  else
    if (byteAddr - 0x9000) / 4 < P.pwSize then .pw ((byteAddr - 0x9000) / 4) else .reserved

/-- The location a port address selects: the port carries bits 15 down to 2 of the byte address (spec/20_memory.md R31). -/
def State.locationAt (s : State) (addr : BitVec 14) : Location := locate s.params (4 * addr.toNat)

/-- The value of a location, its unused bits 0 (spec/20_memory.md R32, R33, spec/10_state.md R18). -/
def State.readLocation (s : State) : Location → Word
  | .op => 0
  | .status => s.status.zeroExtend 32
  | .ctrl => s.ctrl.zeroExtend 32
  | .hdr => s.hdr
  | .nwords => s.nwords.zeroExtend 32
  | .txlen => s.txlen.zeroExtend 32
  | .rxlen => s.rxlen.zeroExtend 32
  | .txbuf i => (s.txByte i).zeroExtend 32
  | .rxbuf i => (s.rxByte i).zeroExtend 32
  | .pw i => s.pwWord i
  | .reserved => 0

/-- Store a value at a location other than `OP`: the used bits only; read-only registers and reserved locations ignore it
(spec/20_memory.md R32, R33, spec/10_state.md R26). A write to `OP` is a command and is served in Machine/Command.lean. -/
def State.writeLocation (s : State) (v : Word) : Location → State
  | .op => s
  | .status => s
  | .ctrl => { s with ctrl := v.extractLsb' 0 1 }
  | .hdr => { s with hdr := v }
  | .nwords => s
  | .txlen => { s with txlen := v.extractLsb' 0 12 }
  | .rxlen => { s with rxlen := v.extractLsb' 0 12 }
  | .txbuf i => { s with txbuf := s.txbuf.store i (v.extractLsb' 0 8) }
  | .rxbuf i => { s with rxbuf := s.rxbuf.store i (v.extractLsb' 0 8) }
  | .pw i => { s with pw := s.pw.store i v }
  | .reserved => s

/-- `MemRead(4·addr, 4)` (spec/20_memory.md R31). -/
def memRead (addr : BitVec 14) (s : State) : Word := s.readLocation (s.locationAt addr)

/-- `MemWrite(4·addr, 4, v)` for an address that is not `OP` (spec/20_memory.md R31). -/
def memWrite (addr : BitVec 14) (v : Word) (s : State) : State := s.writeLocation v (s.locationAt addr)

end Sys2Proof.Machine
end

