-- ==== Sys2Proof/Machine/Command.lean ====
section
/-! DEFINITION. What the block does with one event at its port: a read, a write, a command, a reset (spec/10_state.md rules R18 and
R27, spec/20_memory.md rules R31 and R37, spec/30_encoding.md rule R51, spec/70_reset_and_hazards.md rule R140). -/

namespace Sys2Proof.Machine

/-- Apply a function to the state of a next outcome. -/
def onNext (f : State → State) : Host.Outcome State Fault Refusal → Host.Outcome State Fault Refusal
  | .next s => .next (f s)
  | .fault r => .fault r
  | .refused r => .refused r

/-- A command word: the operation it encodes, or IllegalOp with no other effect (spec/30_encoding.md R51, R53). -/
def runCommand (w : Word) (s : State) : Host.Outcome State Fault Refusal :=
  match decode w with
  | .ok i => exec i s
  | .error _ => .next (s.finish .illegalOp 0)

/-- The state when reset cuts an operation short (spec/70_reset_and_hazards.md R140): the state after any reset, with what was seen
of the operation, which took the state from `s` to `s'`, in its first `ticks` ticks on the lines (assumption 7). The line state
being driven when the reset comes counts as driven. -/
def abandon (s s' : State) (ticks : Nat) : State :=
  let driven := min ticks (s'.driveTicks - s.driveTicks)
  let sampled := min ticks (s'.peer.taken - s.peer.taken)
  let begun := (driven + s.params.tStep - 1) / s.params.tStep
  { s.restart with
    outputs := s'.outputs.take (s.outputs.length + begun)
    driveTicks := s.driveTicks + driven
    peer := s.peer.after sampled }

/-- Serve one event. A write to `OP` is acknowledged when its operation has ended (spec/10_state.md R18); a command that a reset cuts
short is never acknowledged. -/
def servePort (e : PortEvent) (s : State) : Host.Outcome State Fault Refusal :=
  match e with
  | .read addr => .next (s.emit (.readData (memRead addr s)))
  | .write addr v =>
    match s.locationAt addr with
    | .op => onNext (fun t => t.emit .writeAck) (runCommand v s)
    | _ => .next ((memWrite addr v s).emit .writeAck)
  | .reset => .next s.restart
  | .resetDuring w ticks => onNext (fun t => abandon s t ticks) (runCommand w s)

/-- One step of the block: the next event at the port, or nothing while the port is quiet, when the block is idle
(spec/43_operation_laws.md R115, R117). -/
def stepPort (s : State) : Host.Outcome State Fault Refusal :=
  match s.pending with
  | [] => .next s
  | e :: rest => servePort e { s with pending := rest }

/-- The state with a command word next at the port: the host writes it to `OP`, whose address is 0 (spec/20_memory.md R32). -/
def State.withCommand (s : State) (w : Word) : State := { s with pending := .write 0 w :: s.pending }

/-- The command word whose bits are `w`, of which the first `nbits` are given and the rest are 0. -/
def commandWord (nbits w : Nat) : Word := BitVec.ofNat 32 (w % 2 ^ nbits)

end Sys2Proof.Machine
end

