-- ==== Sys2Proof/Machine/Step.lean ====
section
/-! DEFINITION. The step function and the placing of a command before it (spec/10_state.md rule R18, spec/43_operation_laws.md rule R117). -/

namespace Sys2Proof.Machine

/-- One step of the machine: one event at the host port, an operation being one indivisible transition (spec/10_state.md R12). -/
def step (s : State) : Host.Outcome State Fault Refusal := stepPort s

/-- The state whose next step runs the command word `w` of `nbits` given bits: a write of it to `OP` stands first at the port.
The block fetches nothing (spec/10_state.md R12), so this stands for the host issuing the command (assumption 6). -/
def State.withFetchWord (s : State) (nbits w : Nat) : State := s.withCommand (commandWord nbits w)

end Sys2Proof.Machine
end

