-- ==== Sys2Proof/Safety.lean ====
section
/-! DEFINITION. What counts as a safe state: the invariant every step keeps, in the spec's own terms. -/

namespace Sys2Proof.Machine

/-- The values `STATUS` can take: a code of spec/60_exceptions.md R120, with a sub-cause of R121 exactly when the code is FrameError
(spec/95_test_vectors.md lists the eleven in hexadecimal). -/
def legalStatuses : List (BitVec 12) :=
  [statusBits .ok 0, statusBits .timeout 0, statusBits .frameError 1, statusBits .frameError 2,
   statusBits .frameError 3, statusBits .frameError 4, statusBits .overflow 0, statusBits .lengthError 0,
   statusBits .checksumError 0, statusBits .illegalOp 0, statusBits .operandError 0]

/-- Both lines are released (spec/10_state.md R22: whenever no SEND is running). -/
abbrev State.Released (s : State) : Prop := s.drvA = true ∧ s.drvB = true

/-- The three buffers are in canonical form, with no element outside their sizes (spec/43_operation_laws.md R114). -/
abbrev State.BuffersWf (s : State) : Prop :=
  s.txbuf.wf s.params.txbufSize ∧ s.rxbuf.wf s.params.rxbufSize ∧ s.pw.wf s.params.pwSize

/-- The machine's invariant between operations: legal parameters (spec/00_scope.md R6), released lines (spec/10_state.md R22), a
`STATUS` of the list (spec/60_exceptions.md R120, R121), a word count that fits `PW` (spec/10_state.md R15), canonical buffers. -/
abbrev State.Inv (s : State) : Prop :=
  s.params.Wf ∧ s.Released ∧ s.status ∈ legalStatuses ∧ s.nwords.toNat ≤ s.params.pwSize ∧ s.BuffersWf

end Sys2Proof.Machine
end

