-- ==== Sys2Proof/Certificates/Slice0/Obligations.lean ====
section
/-! DEFINITION. The statements for the provers, each formalising rules of spec/ (OBLIGATIONS.json gives the rules and the words). A
frame is written as an equality of whole states: `t = { s with … }` says that every field not named is unchanged, so every
register, latch and byte of a buffer not named reads as before. -/

open Sys2Proof Sys2Proof.Machine

namespace Sys2Proof.Claims

/-! ## What a statement assumes of the peer -/

/-- A trace as the pins show it: each of its states for one tick or more (`n + 1` ticks for the count `n`). -/
def hold (held : List (LineState × Nat)) : List LineState := held.flatMap (fun h => List.replicate (h.2 + 1) h.1)

/-- The peer shows the state `ref` for one tick or more and then each state of the trace for one tick or more, the first of them
within `tmo` ticks of the reference sample and the whole trace within the capture budget (spec/40_transport.md R74, R76); what
follows is free. The block itself releases both lines. -/
def PeerSendsFrom (s : State) (tmo : Nat) (ref : LineState) (trace : List LineState) : Prop :=
  s.Released ∧ ∃ (k : Nat) (held : List (LineState × Nat)) (rest : List LineState),
    held.map Prod.fst = trace ∧ s.peer.queued = List.replicate (k + 1) ref ++ hold held ++ rest ∧
    k + 1 ≤ tmo ∧ (hold held).length ≤ s.params.sampleBufSize

/-- The same with the lines at `IDLE` before the trace, as rule R76 has it. -/
def PeerSends (s : State) (tmo : Nat) (trace : List LineState) : Prop := PeerSendsFrom s tmo .idle trace

/-- Two sample lists with the same transition trace: equal once every run of equal neighbours is reduced to one
(spec/40_transport.md R75). -/
def SameTransitions (xs ys : List LineState) : Prop := xs.destutter (· ≠ ·) = ys.destutter (· ≠ ·)

/-- The trace carries the bits: counted from the state `p`, its falls are those of line A and line B in turn, one for each bit, and each
carries its bit (spec/40_transport.md R60, R62). Any number of rises and repeated states may stand between them. -/
def Carries (p : LineState) (trace : List LineState) (bits : List Bool) : Prop :=
  fallingSteps p trace = (List.range bits.length).map (fun n => Fall.one (clockLine n)) ∧ carriedBits p trace = bits

/-! ## The tables of the spec, written out for the statements -/

/-- A byte address at which the address map has a register or a buffer element (spec/20_memory.md R32). -/
def Mapped (P : Params) (a : Nat) : Prop :=
  a ≤ 0x0018 ∨ (0x1000 ≤ a ∧ a < 0x1000 + 4 * P.txbufSize) ∨ (0x5000 ≤ a ∧ a < 0x5000 + 4 * P.rxbufSize) ∨
  (0x9000 ≤ a ∧ a < 0x9000 + 4 * P.pwSize)

/-- The bits a host write stores at a byte address other than `OP`; 0 where the location is read only or reserved
(spec/20_memory.md R32, column "Bits used"). -/
def writableBits (P : Params) (a : Nat) : Word :=
  if a = 0x0008 then 0x00000001
  else if a = 0x000C then 0xFFFFFFFF
  else if a = 0x0014 ∨ a = 0x0018 then 0x00000FFF
  else if 0x1000 ≤ a ∧ a < 0x1000 + 4 * P.txbufSize then 0x000000FF
  else if 0x5000 ≤ a ∧ a < 0x5000 + 4 * P.rxbufSize then 0x000000FF
  else if 0x9000 ≤ a ∧ a < 0x9000 + 4 * P.pwSize then 0xFFFFFFFF
  else 0

/-- The command words rule R53 calls illegal: an operation code outside 1 to 6, or an operation without operands with some bit
of 27:0 set (spec/30_encoding.md R50, R51, R53). -/
def IllegalWord (w : Word) : Prop :=
  w.toNat / 2 ^ 28 ∉ [1, 2, 3, 4, 5, 6] ∨ (w.toNat / 2 ^ 28 ∈ [1, 3, 4, 5] ∧ w.toNat % 2 ^ 28 ≠ 0)

/-- The table of spec/60_exceptions.md R122: which operation can end with which code. -/
def mayReport : Instr → Code → Bool
  | .send, c => decide (c ∈ [Code.ok, .operandError])
  | .recv _ _, c => decide (c ∈ [Code.ok, .timeout, .frameError, .overflow, .operandError])
  | .encf, c => decide (c ∈ [Code.ok, .operandError])
  | .decf, c => decide (c ∈ [Code.ok, .lengthError, .checksumError, .operandError])
  | .txf, c => decide (c ∈ [Code.ok, .operandError])
  | .rxf _ _, c =>
    decide (c ∈ [Code.ok, .timeout, .frameError, .overflow, .lengthError, .checksumError, .operandError])

/-- `RXBUF[0 .. n-1]` is a valid packet in strict mode, with `n` the length `RXLEN` (spec/41_frame_codec.md R96). -/
def HoldsValidPacket (s : State) : Prop :=
  s.DecodeFits ∧ ¬ s.Relaxed ∧ 5 ≤ s.rxlen.toNat ∧ (s.rxlen.toNat - 1) % 4 = 0 ∧
  xorBytes (s.rxBytes (s.rxlen.toNat - 1)) = s.rxByte (s.rxlen.toNat - 1)

end Sys2Proof.Claims

open Sys2Proof.Claims

/-! ## Command words -/

/-- Decoding the command word of any well-formed operation gives it back, with every operand. -/
def Obligations.DecodeOfEncodeIsIdentity : Prop :=
  ∀ i : Instr, i.WellFormed → decode (encode i) = .ok i

/-- Each command word has at most one meaning: a word that decodes to an operation is the word of that operation. -/
def Obligations.EncodeOfDecodeIsIdentity : Prop :=
  ∀ (w : Word) (i : Instr), decode w = .ok i → i.WellFormed ∧ encode i = w

/-- The decoding procedure of R53 with its match and mask rows, the fields computed here by arithmetic on the word: the command word of
an operation runs it, any other ends with IllegalOp, and no two rows match one word. -/
def Obligations.DecoderGivesTheVerdictOfTheTable : Prop :=
  ∀ w : Word,
    (w.toNat / 2 ^ 28 ∉ [1, 2, 3, 4, 5, 6] → decode w = .error .reservedOpcode) ∧
    (w.toNat / 2 ^ 28 ∈ [1, 3, 4, 5] ∧ w.toNat % 2 ^ 28 ≠ 0 → decode w = .error .reservedField) ∧
    (w &&& 0xFFFFFFFF = 0x10000000 ↔ decode w = .ok .send) ∧
    (w &&& 0xF0000000 = 0x20000000 ↔ decode w = .ok (.recv (w.toNat / 2 ^ 16 % 2 ^ 12) (w.toNat % 2 ^ 16))) ∧
    (w &&& 0xFFFFFFFF = 0x30000000 ↔ decode w = .ok .encf) ∧
    (w &&& 0xFFFFFFFF = 0x40000000 ↔ decode w = .ok .decf) ∧
    (w &&& 0xFFFFFFFF = 0x50000000 ↔ decode w = .ok .txf) ∧
    (w &&& 0xF0000000 = 0x60000000 ↔ decode w = .ok (.rxf (w.toNat / 2 ^ 16 % 2 ^ 12) (w.toNat % 2 ^ 16))) ∧
    (∀ i j : Instr, w &&& i.rowMask = i.rowMatch → w &&& j.rowMask = j.rowMatch → i.opc = j.opc) ∧
    (∀ s : State, (∃ i, decode w = .ok i ∧ runCommand w s = exec i s) ∨
      (∃ e, decode w = .error e ∧ runCommand w s = .next { s with status := 0x0FA, drvA := true, drvB := true }))

/-- The command words E1 to E9 and E11 to E18 of spec/95_test_vectors.md have the verdicts listed there. -/
def Obligations.ListedCommandWordsDecodeAsWritten : Prop :=
  decode 0x10000000 = .ok .send ∧ decode 0x200903E8 = .ok (.recv 9 1000) ∧ decode 0x20000000 = .ok (.recv 0 0) ∧
  decode 0x2FFFFFFF = .ok (.recv 4095 65535) ∧ decode 0x30000000 = .ok .encf ∧ decode 0x40000000 = .ok .decf ∧
  decode 0x50000000 = .ok .txf ∧ decode 0x600903E8 = .ok (.rxf 9 1000) ∧ decode 0x640101F4 = .ok (.rxf 1025 500) ∧
  decode 0x00000000 = .error .reservedOpcode ∧ decode 0xFFFFFFFF = .error .reservedOpcode ∧
  decode 0x70000000 = .error .reservedOpcode ∧ decode 0x80000000 = .error .reservedOpcode ∧
  decode 0x10000001 = .error .reservedField ∧ decode 0x30010000 = .error .reservedField ∧
  decode 0x4000FFFF = .error .reservedField ∧ decode 0x50000001 = .error .reservedField

/-- An illegal command word written to `OP` sets `STATUS` to IllegalOp with detail 0, changes no other state, drives nothing, and is
acknowledged in the same step. The all-zero word and the all-ones word are illegal. -/
def Obligations.IllegalWordOnlySetsStatus : Prop :=
  IllegalWord 0x00000000 ∧ IllegalWord 0xFFFFFFFF ∧
  ∀ (s : State) (w : Word) (rest : List PortEvent),
    IllegalWord w → s.Released → s.pending = .write 0 w :: rest →
    step s = .next { s with pending := rest, status := 0x0FA, outputs := s.outputs ++ [.writeAck] }

/-! ## The step -/

/-- When the next event at the port is a write to `OP` of a word that decodes to an operation, the step is `exec` of it, with the
event taken and the write acknowledged after the operation; this is so of the word `withFetchWord` places. That a command waits in
a list of events at the port, and that `withFetchWord` puts a write of the word to `OP` before it, is the model's choice
(assumption 6). -/
def Obligations.StepRunsTheDecodedInstruction : Prop :=
  (∀ (s : State) (w : Word) (i : Instr) (rest : List PortEvent),
    decode w = .ok i → s.pending = .write 0 w :: rest →
    ∃ t, exec i { s with pending := rest } = .next t ∧
      step s = .next { t with outputs := t.outputs ++ [.writeAck] }) ∧
  (∀ (s : State) (i : Instr), i.WellFormed →
    ∃ t, exec i s = .next t ∧
      step (s.withFetchWord 32 (encode i).toNat) = .next { t with outputs := t.outputs ++ [.writeAck] })

/-- No step ever stops the machine: every state has a next state, and with nothing at the port it is the state itself. -/
def Obligations.EveryStepHasANextState : Prop :=
  ∀ s : State, (∃ t, step s = .next t) ∧ (s.pending = [] → step s = .next s)

/-- The machine's invariant is kept by every step, whatever the event and whatever the samples. -/
def Obligations.StepKeepsTheInvariant : Prop :=
  ∀ s t : State, s.Inv → step s = .next t → t.Inv

/-- The invariant holds at reset for every legal value of the parameters, and the reference parameters are legal (R65 and R67 say that the
two sequences satisfy R64 and R66). That `State.reset` itself carries the reference parameters, so that it meets the invariant too,
is the model's choice (assumption 1). -/
def Obligations.ResetMeetsTheInvariant : Prop :=
  (∀ P : Params, P.Wf → ({ State.reset with params := P } : State).Inv) ∧ Params.reference.Wf ∧ State.reset.Inv

/-- A buffer element without a value of its own never had one since the last reset and keeps its draw: when it has none after a step
that is no reset, it had none before the step and reads the same. The statement holds for every value of the draws
(assumption 2). -/
def Obligations.UnwrittenElementsKeepTheirDraw : Prop :=
  ∀ s t : State, step s = .next t → t.epoch = s.epoch →
    (∀ i, t.txbuf.find i = none → s.txbuf.find i = none ∧ t.txByte i = s.txByte i) ∧
    (∀ i, t.rxbuf.find i = none → s.rxbuf.find i = none ∧ t.rxByte i = s.rxByte i) ∧
    (∀ i, t.pw.find i = none → s.pw.find i = none ∧ t.pwWord i = s.pwWord i)

/-! ## Reset -/

/-- What reset leaves: registers 0 and both lines released, as R25 says, and every buffer element at its draw of that reset. That an
unspecified element reads as an opaque draw by the number of resets and the index, the number being 0 in `State.reset`, is the
model's choice (assumption 2). -/
def Obligations.ResetLeavesRegistersZero : Prop :=
  State.reset.hdr = 0 ∧ State.reset.status = 0 ∧ State.reset.ctrl = 0 ∧ State.reset.nwords = 0 ∧
  State.reset.txlen = 0 ∧ State.reset.rxlen = 0 ∧ State.reset.drvA = true ∧ State.reset.drvB = true ∧
  ∀ i, State.reset.txByte i = Config.drawnTx 0 i ∧ State.reset.rxByte i = Config.drawnRx 0 i ∧
    State.reset.pwWord i = Config.drawnPw 0 i

/-- A reset between accesses leaves the registers 0, the lines released and every buffer element at a new draw, and nothing more is seen. A
reset that cuts a command short leaves the same, and the command is not acknowledged. All that is seen of it then are the first
line states of those the whole operation drives (`driven`): as many as it had begun to drive in the ticks before the reset, the
last of them perhaps not for its whole time; and the peer's samples of those ticks are used up. That resets are events with a
number of ticks on the lines, and that the state being driven counts as driven, is the model's choice (assumption 7), and so
are the draws (assumption 2). -/
def Obligations.ResetRestoresTheResetState : Prop :=
  ∀ (s : State) (rest : List PortEvent),
    (s.pending = .reset :: rest →
      step s = .next { State.reset with
        params := s.params, epoch := s.epoch + 1, pending := rest, peer := s.peer
        outputs := s.outputs, driveTicks := s.driveTicks }) ∧
    (∀ (w : Word) (ticks : Nat), s.params.Wf → s.pending = .resetDuring w ticks :: rest →
      ∃ (u : State) (driven : List LineState) (spent sampled begun : Nat),
        runCommand w { s with pending := rest } = .next u ∧
        u.outputs = s.outputs ++ driven.map Output.drove ∧ begun ≤ driven.length ∧
        spent = min ticks (u.driveTicks - s.driveTicks) ∧ sampled = min ticks (u.peer.taken - s.peer.taken) ∧
        spent ≤ s.params.tStep * begun ∧ s.params.tStep * begun < spent + s.params.tStep ∧
        step s = .next { State.reset with
          params := s.params, epoch := s.epoch + 1, pending := rest
          peer := ⟨s.peer.queued.drop sampled, s.peer.taken + sampled⟩
          outputs := s.outputs ++ (driven.take begun).map Output.drove
          driveTicks := s.driveTicks + spent }) ∧
    (∀ t : State, (s.pending = .reset :: rest ∨ ∃ w ticks, s.pending = .resetDuring w ticks :: rest) → step s = .next t →
      ∀ i, t.txByte i = Config.drawnTx (s.epoch + 1) i ∧ t.rxByte i = Config.drawnRx (s.epoch + 1) i ∧
        t.pwWord i = Config.drawnPw (s.epoch + 1) i)

/-! ## The host port -/

/-- A host read returns the value the address map gives and changes nothing but the record of what was seen. -/
def Obligations.HostReadFollowsTheAddressMap : Prop :=
  ∀ (s : State) (addr : BitVec 14) (rest : List PortEvent),
    s.params.Wf → s.pending = .read addr :: rest →
    ∃ v : Word, step s = .next { s with pending := rest, outputs := s.outputs ++ [.readData v] } ∧
      (4 * addr.toNat = 0x0000 → v = 0) ∧
      (4 * addr.toNat = 0x0004 → v.toNat = s.status.toNat) ∧
      (4 * addr.toNat = 0x0008 → v.toNat = s.ctrl.toNat) ∧
      (4 * addr.toNat = 0x000C → v = s.hdr) ∧
      (4 * addr.toNat = 0x0010 → v.toNat = s.nwords.toNat) ∧
      (4 * addr.toNat = 0x0014 → v.toNat = s.txlen.toNat) ∧
      (4 * addr.toNat = 0x0018 → v.toNat = s.rxlen.toNat) ∧
      (∀ i, i < s.params.txbufSize → 4 * addr.toNat = 0x1000 + 4 * i → v.toNat = (s.txByte i).toNat) ∧
      (∀ i, i < s.params.rxbufSize → 4 * addr.toNat = 0x5000 + 4 * i → v.toNat = (s.rxByte i).toNat) ∧
      (∀ i, i < s.params.pwSize → 4 * addr.toNat = 0x9000 + 4 * i → v = s.pwWord i) ∧
      (¬ Mapped s.params (4 * addr.toNat) → v = 0)

/-- A host write other than to `OP` is acknowledged and stores the used bits of its own location: a read there returns them, a read
anywhere else returns what it returned before, and nothing that is not a register or buffer changes. -/
def Obligations.HostWriteIsReadBackAtItsAddressOnly : Prop :=
  ∀ (s : State) (addr : BitVec 14) (v : Word) (rest : List PortEvent),
    s.params.Wf → addr ≠ 0 → s.pending = .write addr v :: rest →
    ∃ t : State, step s = .next t ∧
      (∀ b, memRead b t =
        if b = addr ∧ writableBits s.params (4 * addr.toNat) ≠ 0 then v &&& writableBits s.params (4 * addr.toNat)
        else memRead b s) ∧
      t = { s with
            ctrl := t.ctrl, hdr := t.hdr, txlen := t.txlen, rxlen := t.rxlen,
            txbuf := t.txbuf, rxbuf := t.rxbuf, pw := t.pw,
            pending := rest, outputs := s.outputs ++ [.writeAck] }

/-- A reserved address reads 0 and ignores writes, and neither changes `STATUS` or anything else. -/
def Obligations.ReservedAddressesReadZeroAndIgnoreWrites : Prop :=
  ∀ (s : State) (addr : BitVec 14) (v : Word) (rest : List PortEvent),
    s.params.Wf → ¬ Mapped s.params (4 * addr.toNat) →
    (s.pending = .read addr :: rest →
      step s = .next { s with pending := rest, outputs := s.outputs ++ [.readData 0] }) ∧
    (s.pending = .write addr v :: rest →
      step s = .next { s with pending := rest, outputs := s.outputs ++ [.writeAck] })

/-! ## The line code -/

/-- `bit_steps` raises the clock line, sets the data line, drops the clock line; when the data line starts low the only fall is the
clock's, in the last step, where the data line holds the bit. -/
def Obligations.BitStepsFallOnceWithTheBitOnTheDataLine : Prop :=
  ∀ (state : LineState) (clock : Line) (d : Bool),
    bitSteps state clock d =
      [state.set clock true, (state.set clock true).set clock.other d,
       ((state.set clock true).set clock.other d).set clock false] ∧
    (state.level clock.other = false →
      fallsFrom state (bitSteps state clock d) = [.none, .none, .one clock] ∧
      (((state.set clock true).set clock.other d).set clock false).level clock.other = d)

/-- In the data part of a transmit trace each bit makes exactly one line fall, line A for bits of even number and line B for odd
ones: the falling steps are the clock falls in order and nothing else. -/
def Obligations.DataFallsAlternateBetweenTheLines : Prop :=
  ∀ bits : List Bool,
    fallingSteps .s10 (dataTrace 0 .s10 bits) = (List.range bits.length).map (fun n => Fall.one (clockLine n))

/-- The transmit trace begins with `START_SEQ`, ends with `STOP_SEQ`, and has 24 states for each byte between them, three for each bit.
Bytes go in the order of their index and bits most significant first: bit `k` in the order sent of byte `i` is `bytes[i][7 - k]`,
line A being the clock line for even `k` and line B for odd `k`. In the first of its three states the clock line is high and the
data line still low (for a start sequence that ends in `10`, as R64 asks), in the second the clock line is high and the data line
at the bit, and in the third the clock line is low and the data line at the bit. -/
def Obligations.TransmitTraceHasTwentyFourStatesPerByte : Prop :=
  ∀ (P : Params) (bytes : List Byte),
    (txTrace P bytes).length = P.startSeq.length + 24 * bytes.length + P.stopSeq.length ∧
    P.startSeq <+: txTrace P bytes ∧ P.stopSeq <:+ txTrace P bytes ∧
    ∀ (i k : Nat) (y : Byte), bytes[i]? = some y → k < 8 →
      (P.startSeq.getLast? = some .s10 →
        (txTrace P bytes)[P.startSeq.length + 24 * i + 3 * k]? = some (if k % 2 = 0 then .s10 else .s01)) ∧
      (txTrace P bytes)[P.startSeq.length + 24 * i + 3 * k + 1]? =
        some (if k % 2 = 0 then ⟨true, y.getLsbD (7 - k)⟩ else ⟨y.getLsbD (7 - k), true⟩) ∧
      (txTrace P bytes)[P.startSeq.length + 24 * i + 3 * k + 2]? =
        some (if k % 2 = 0 then ⟨false, y.getLsbD (7 - k)⟩ else ⟨y.getLsbD (7 - k), false⟩)

/-! ## SEND -/

/-- SEND drives the transmit trace of `TXBUF[0 .. TXLEN-1]`, each state for `T_STEP` ticks, reports Ok, leaves both lines released and
changes nothing else; with `TXLEN` greater than `TXBUF_SIZE` it reports OperandError and drives nothing. -/
def Obligations.SendDrivesTheTransmitTrace : Prop :=
  ∀ s : State,
    (s.txlen.toNat ≤ s.params.txbufSize →
      exec .send s = .next { s with
        status := 0x000, drvA := true, drvB := true
        outputs := s.outputs ++ (txTrace s.params (s.txBytes s.txlen.toNat)).map Output.drove
        driveTicks := s.driveTicks +
          s.params.tStep * (s.params.startSeq.length + 24 * s.txlen.toNat + s.params.stopSeq.length) }) ∧
    (s.params.txbufSize < s.txlen.toNat →
      exec .send s = .next { s with status := 0x0F9, drvA := true, drvB := true })

/-! ## RECV -/

/-- RECV on any state and any samples ends in a next state. With `maxb` greater than `RXBUF_SIZE` it only reports OperandError.
Otherwise `RXLEN` is at most `maxb`, no element of `RXBUF` at or above `RXLEN` changes, it takes at most
`1 + tmo + SAMPLE_BUF_SIZE` samples, and nothing but `STATUS`, `RXLEN`, `RXBUF` and the consumed samples changes. -/
def Obligations.RecvAlwaysEndsWithinItsBounds : Prop :=
  ∀ (s : State) (maxb tmo : Nat), s.params.Wf →
    (s.params.rxbufSize < maxb →
      exec (.recv maxb tmo) s = .next { s with status := 0x0F9, drvA := true, drvB := true }) ∧
    (maxb ≤ s.params.rxbufSize →
      ∃ t, exec (.recv maxb tmo) s = .next t ∧
        t.rxlen.toNat ≤ maxb ∧ (∀ i, t.rxlen.toNat ≤ i → t.rxByte i = s.rxByte i) ∧
        s.peer.taken < t.peer.taken ∧ t.peer.taken ≤ s.peer.taken + (1 + tmo + s.params.sampleBufSize) ∧
        t.peer.queued = s.peer.queued.drop (t.peer.taken - s.peer.taken) ∧
        t = { s with
              status := t.status, rxlen := t.rxlen, rxbuf := t.rxbuf, peer := t.peer, drvA := true, drvB := true })

/-- What RECV leaves for each code it reports: after Timeout and StartMismatch `RXLEN` is 0 and `RXBUF` is unchanged; after Overflow
`RXLEN` is `maxb`. -/
def Obligations.RecvLeavesRxlenByOutcome : Prop :=
  ∀ (s t : State) (maxb tmo : Nat), s.params.Wf → maxb ≤ s.params.rxbufSize → exec (.recv maxb tmo) s = .next t →
    ((t.status = 0x0FF ∨ t.status = 0x1FE) → t.rxlen = 0 ∧ ∀ i, t.rxByte i = s.rxByte i) ∧
    (t.status = 0x0FD → t.rxlen.toNat = maxb)

/-- Timeout: when the `tmo` samples after the reference sample all equal it, RECV reports Timeout after exactly `1 + tmo` samples, with
`RXLEN` 0 and `RXBUF` unchanged; `tmo` may be 0. -/
def Obligations.RecvTimesOutOnASilentBus : Prop :=
  ∀ (s : State) (maxb tmo : Nat) (x : LineState) (rest : List LineState),
    maxb ≤ s.params.rxbufSize → s.peer.queued = List.replicate (tmo + 1) x ++ rest →
    exec (.recv maxb tmo) s = .next { s with
      status := 0x0FF, rxlen := 0, drvA := true, drvB := true, peer := ⟨rest, s.peer.taken + tmo + 1⟩ }

/-- Round trip over the wire: the bytes of any transmit trace, each state held for any number of ticks, arrive in `RXBUF` in order,
with their number in `RXLEN` and status Ok. The words are those of R76; that a legal stop sequence makes line B fall, which
`Params.Wf` asks of it and the end of the packet rests on, is the model's reading of R66 (assumption 4). -/
def Obligations.RecvReadsBackWhatSendDrives : Prop :=
  ∀ (s : State) (maxb tmo : Nat) (bytes : List Byte),
    s.params.Wf → maxb ≤ s.params.rxbufSize → bytes.length ≤ maxb → PeerSends s tmo (txTrace s.params bytes) →
    ∃ t, exec (.recv maxb tmo) s = .next t ∧
      t.status = 0x000 ∧ t.rxlen.toNat = bytes.length ∧ t.rxBytes bytes.length = bytes ∧
      (∀ i, bytes.length ≤ i → t.rxByte i = s.rxByte i)

/-- Empty packet: after the start sequence, any number of changes that make no line fall and then a fall of line B alone end the
reception with Ok and zero bytes, whatever `maxb` is; the trace SEND drives for no bytes is such a trace. That the change R77 speaks
of makes line B fall and line A not is the model's reading of it (assumption 13), and that the stop sequence has such a change is
its reading of R66 (assumption 4). -/
def Obligations.RecvAcceptsTheEmptyPacket : Prop :=
  (∀ (s : State) (maxb tmo : Nat) (mids : List LineState) (y : LineState),
    s.params.Wf → maxb ≤ s.params.rxbufSize →
    fallsFrom .s10 (mids ++ [y]) = List.replicate mids.length Fall.none ++ [Fall.one .B] →
    PeerSends s tmo (s.params.startSeq ++ mids ++ [y]) →
    ∃ t, exec (.recv maxb tmo) s = .next t ∧ t.status = 0x000 ∧ t.rxlen = 0) ∧
  (∀ P : Params, P.Wf → ∃ (mids : List LineState) (y : LineState) (rest : List LineState),
    txTrace P [] = P.startSeq ++ mids ++ [y] ++ rest ∧
    fallsFrom .s10 (mids ++ [y]) = List.replicate mids.length Fall.none ++ [Fall.one .B])

/-- Overflow: a packet of more than `maxb` bytes leaves its first `maxb` bytes in `RXBUF`, `RXLEN = maxb` and the status Overflow. -/
def Obligations.RecvKeepsTheBytesThatFitOnOverflow : Prop :=
  ∀ (s : State) (maxb tmo : Nat) (bytes : List Byte),
    s.params.Wf → maxb ≤ s.params.rxbufSize → maxb < bytes.length → PeerSends s tmo (txTrace s.params bytes) →
    ∃ t, exec (.recv maxb tmo) s = .next t ∧
      t.status = 0x0FD ∧ t.rxlen.toNat = maxb ∧ t.rxBytes maxb = bytes.take maxb

/-- BitCount: when the terminator comes after whole bytes and 1 to 7 further bits, RECV reports FrameError with detail 3 and keeps the
whole bytes. First the traces the sender's bit patterns make, with 2, 4 or 6 further bits and the stop sequence; then any trace
that carries the bits, an odd number of further bits included, ended by a second fall of the line that fell last. That a legal stop
sequence makes line B fall, which `Params.Wf` asks of it and the end of the first traces rests on, is the model's reading of R66
(assumption 4); the other traces do not rest on it. -/
def Obligations.RecvReportsAnIncompleteLastByte : Prop :=
  ∀ (s : State) (maxb tmo : Nat) (bytes : List Byte) (extra : List Bool),
    s.params.Wf → maxb ≤ s.params.rxbufSize → bytes.length < maxb →
    (extra.length ∈ [2, 4, 6] →
      PeerSends s tmo (s.params.startSeq ++ dataTrace 0 .s10 (bytes.flatMap byteBits ++ extra) ++ s.params.stopSeq) →
      ∃ t, exec (.recv maxb tmo) s = .next t ∧
        t.status = 0x3FE ∧ t.rxlen.toNat = bytes.length ∧ t.rxBytes bytes.length = bytes) ∧
    (∀ (data : List LineState) (y : LineState), 1 ≤ extra.length → extra.length ≤ 7 →
      Carries .s10 data (bytes.flatMap byteBits ++ extra) →
      fell (data.getLastD .s10) y = .one (clockLine (extra.length + 1)) →
      PeerSends s tmo (s.params.startSeq ++ data ++ [y]) →
      ∃ t, exec (.recv maxb tmo) s = .next t ∧
        t.status = 0x3FE ∧ t.rxlen.toNat = bytes.length ∧ t.rxBytes bytes.length = bytes)

/-- SimultaneousFall: after the start sequence, from any reference sample that lets it begin, and any trace that carries whole bytes and
up to 7 further bits, a change in which both lines fall makes RECV report FrameError with detail 2. The whole bytes are kept, the
further bits are dropped and no other element of `RXBUF` changes. -/
def Obligations.RecvReportsASimultaneousFall : Prop :=
  ∀ (s : State) (maxb tmo : Nat) (ref : LineState) (bytes : List Byte) (extra : List Bool) (data : List LineState)
    (y : LineState),
    s.params.Wf → maxb ≤ s.params.rxbufSize → s.params.startSeq.head? ≠ some ref →
    Carries .s10 data (bytes.flatMap byteBits ++ extra) → extra.length ≤ 7 →
    8 * bytes.length + extra.length ≤ 8 * maxb → fell (data.getLastD .s10) y = .both →
    PeerSendsFrom s tmo ref (s.params.startSeq ++ data ++ [y]) →
    ∃ t, exec (.recv maxb tmo) s = .next t ∧
      t.status = 0x2FE ∧ t.rxlen.toNat = bytes.length ∧ t.rxBytes bytes.length = bytes ∧
      (∀ i, bytes.length ≤ i → t.rxByte i = s.rxByte i)

/-- StartMismatch: when the first change of the lines does not lead to the first state of `START_SEQ`, RECV reports FrameError with detail
1 at that sample; the lines need not be idle before it. -/
def Obligations.RecvRejectsAWrongFirstChange : Prop :=
  ∀ (s : State) (maxb tmo k : Nat) (ref x : LineState) (rest : List LineState),
    s.params.Wf → s.Released → maxb ≤ s.params.rxbufSize → k + 1 ≤ tmo → x ≠ ref → s.params.startSeq.head? ≠ some x →
    s.peer.queued = List.replicate (k + 1) ref ++ x :: rest →
    exec (.recv maxb tmo) s = .next { s with
      status := 0x1FE, rxlen := 0, peer := ⟨rest, s.peer.taken + k + 2⟩ }

/-- Unterminated: when the capture budget is spent before the scan has stopped, RECV reports FrameError with detail 4 after exactly
`SAMPLE_BUF_SIZE` captured samples. Where the captured samples show some first states of the start sequence only, nothing is
received; where they show all of it and then carry whole bytes and up to 7 further bits, the whole bytes are kept and the further
bits are dropped. -/
def Obligations.RecvEndsWhenTheCaptureBudgetIsSpent : Prop :=
  ∀ (s : State) (maxb tmo k : Nat) (held : List (LineState × Nat)) (rest : List LineState),
    s.params.Wf → s.Released → maxb ≤ s.params.rxbufSize → k + 1 ≤ tmo →
    s.peer.queued = List.replicate (k + 1) .idle ++ hold held ++ rest →
    (hold held).length = s.params.sampleBufSize →
    (∀ m, held.map Prod.fst = s.params.startSeq.take (m + 1) →
      exec (.recv maxb tmo) s = .next { s with
        status := 0x4FE, rxlen := 0, peer := ⟨rest, s.peer.taken + k + 1 + s.params.sampleBufSize⟩ }) ∧
    (∀ (data : List LineState) (bytes : List Byte) (extra : List Bool),
      held.map Prod.fst = s.params.startSeq ++ data → Carries .s10 data (bytes.flatMap byteBits ++ extra) →
      extra.length ≤ 7 → 8 * bytes.length + extra.length ≤ 8 * maxb →
      ∃ t, exec (.recv maxb tmo) s = .next t ∧
        t.rxlen.toNat = bytes.length ∧ t.rxBytes bytes.length = bytes ∧
        (∀ i, bytes.length ≤ i → t.rxByte i = s.rxByte i) ∧
        t = { s with
              status := 0x4FE, rxlen := t.rxlen, rxbuf := t.rxbuf
              peer := ⟨rest, s.peer.taken + k + 1 + s.params.sampleBufSize⟩ })

/-- StartMismatch inside the start sequence: when one or more states of `START_SEQ` have been matched, but not all, and the next change
does not lead to the next one, RECV reports FrameError with detail 1 at that sample, with `RXLEN` 0 and `RXBUF` unchanged. The
reference sample may be any state but the first of `START_SEQ`; the lines need not be idle. -/
def Obligations.RecvRejectsABrokenStartSequence : Prop :=
  ∀ (s : State) (maxb tmo k m : Nat) (ref : LineState) (held : List (LineState × Nat)) (x : LineState)
    (rest : List LineState),
    s.params.Wf → s.Released → maxb ≤ s.params.rxbufSize → k + 1 ≤ tmo → s.params.startSeq.head? ≠ some ref →
    m + 1 < s.params.startSeq.length → held.map Prod.fst = s.params.startSeq.take (m + 1) →
    s.params.startSeq[m]? ≠ some x → s.params.startSeq[m + 1]? ≠ some x →
    (hold held).length < s.params.sampleBufSize →
    s.peer.queued = List.replicate (k + 1) ref ++ hold held ++ x :: rest →
    exec (.recv maxb tmo) s = .next { s with
      status := 0x1FE, rxlen := 0, peer := ⟨rest, s.peer.taken + k + 1 + (hold held).length + 1⟩ }

/-- The decoding rule, on any trace and not only on the sender's patterns: after the start sequence each fall of the line whose turn it is
carries one bit, the level of the other line after the fall, also when that line rises in the same change; the bits make the bytes,
and a second fall of line B ends the packet with Ok. The lines need not be idle before: the reference sample may be any state but
the first of `START_SEQ`. One empty packet is left out: with `START_SEQ` the state `10` alone and the reference `00` no line has
fallen before the fall of line B, and RecvTakesABitWhereNoLineHasFallen says what happens then. -/
def Obligations.RecvTakesOneBitFromEachFall : Prop :=
  ∀ (s : State) (maxb tmo : Nat) (ref : LineState) (bytes : List Byte) (data : List LineState) (y : LineState),
    s.params.Wf → maxb ≤ s.params.rxbufSize → bytes.length ≤ maxb → s.params.startSeq.head? ≠ some ref →
    (bytes ≠ [] ∨ s.params.startSeq ≠ [.s10] ∨ ref ≠ .s00) →
    Carries .s10 data (bytes.flatMap byteBits) → fell (data.getLastD .s10) y = .one .B →
    PeerSendsFrom s tmo ref (s.params.startSeq ++ data ++ [y]) →
    ∃ t, exec (.recv maxb tmo) s = .next t ∧
      t.status = 0x000 ∧ t.rxlen.toNat = bytes.length ∧ t.rxBytes bytes.length = bytes ∧
      (∀ i, bytes.length ≤ i → t.rxByte i = s.rxByte i)

/-- Where `START_SEQ` is the state `10` alone and the reference sample is `00`, no line has fallen when the start sequence has been
matched. A fall of line B is then no second fall but takes a bit: with `maxb` 0 RECV reports Overflow at it, and otherwise a second
fall of line B ends the reception with FrameError of detail 3 after that one bit. This follows the pseudocode of R71 and R72, where
the remark below R71 that line B fell last would make the first fall the end of an empty packet; the choice between the two is the
model's reading (assumption 15). -/
def Obligations.RecvTakesABitWhereNoLineHasFallen : Prop :=
  ∀ (s : State) (maxb tmo : Nat) (data : List LineState) (y : LineState),
    s.params.Wf → maxb ≤ s.params.rxbufSize → s.params.startSeq = [.s10] → fell (data.getLastD .s10) y = .one .B →
    PeerSendsFrom s tmo .s00 (.s10 :: data ++ [y]) →
    (maxb = 0 → fallingSteps .s10 data = [] →
      ∃ t, exec (.recv maxb tmo) s = .next t ∧ t.status = 0x0FD ∧ t.rxlen = 0) ∧
    (0 < maxb → fallingSteps .s10 data = [.one .B] →
      ∃ t, exec (.recv maxb tmo) s = .next t ∧
        t.status = 0x3FE ∧ t.rxlen = 0 ∧ ∀ i, t.rxByte i = s.rxByte i)

/-- Stutter invariance: two receptions whose samples have the same transition trace, each ended by the scan and not by Timeout or by the
capture budget, report the same status and leave the same `RXLEN` and the same received bytes. -/
def Obligations.RecvDependsOnlyOnTheTransitionTrace : Prop :=
  ∀ (s s' t t' : State) (maxb tmo tmo' : Nat),
    s.params.Wf → s'.params.startSeq = s.params.startSeq → s.Released → s'.Released →
    maxb ≤ s.params.rxbufSize → maxb ≤ s'.params.rxbufSize → s'.params.rxbufSize ≤ 4095 →
    SameTransitions s.peer.queued s'.peer.queued →
    exec (.recv maxb tmo) s = .next t → exec (.recv maxb tmo') s' = .next t' →
    t.peer.taken - s.peer.taken ≤ s.peer.queued.length → t'.peer.taken - s'.peer.taken ≤ s'.peer.queued.length →
    t.status ∉ [0x0FF, 0x4FE] → t'.status ∉ [0x0FF, 0x4FE] →
    t'.status = t.status ∧ t'.rxlen = t.rxlen ∧ t'.rxBytes t.rxlen.toNat = t.rxBytes t.rxlen.toNat

/-! ## ENCF -/

/-- ENCF writes the header bytes, the payload bytes and the checksum to `TXBUF`, the length to `TXLEN`, and nothing else but `STATUS`; with a
payload or packet that does not fit it reports OperandError and writes nothing. -/
def Obligations.EncfBuildsThePacket : Prop :=
  ∀ (s : State) (N : Nat), N = (s.hdr.extractLsb' 0 8).toNat →
    (N ≤ s.params.pwSize ∧ 4 * N + 5 ≤ s.params.txbufSize →
      ∃ t, exec .encf s = .next t ∧
        t.txByte 0 = s.hdr.extractLsb' 0 8 ∧ t.txByte 1 = s.hdr.extractLsb' 8 8 ∧
        t.txByte 2 = s.hdr.extractLsb' 16 8 ∧ t.txByte 3 = s.hdr.extractLsb' 24 8 ∧
        (∀ i j, i < N → j < 4 → t.txByte (4 + 4 * i + j) = (s.pwWord i).extractLsb' (8 * j) 8) ∧
        t.txByte (4 + 4 * N) = xorBytes (t.txBytes (4 * N + 4)) ∧
        (∀ i, 4 * N + 5 ≤ i → t.txByte i = s.txByte i) ∧
        t.txlen.toNat = 4 * N + 5 ∧
        t = { s with status := 0x000, txlen := t.txlen, txbuf := t.txbuf, drvA := true, drvB := true }) ∧
    (s.params.pwSize < N ∨ s.params.txbufSize < 4 * N + 5 →
      exec .encf s = .next { s with status := 0x0F9, drvA := true, drvB := true })

/-- ENCF may be repeated and gives the same result each time. -/
def Obligations.EncfIsIdempotent : Prop :=
  ∀ s t : State, s.BuffersWf → exec .encf s = .next t → exec .encf t = .next t

/-! ## DECF -/

/-- Strict DECF: LengthError first, ChecksumError second, each changing nothing but `STATUS`; otherwise the header goes to `HDR`, the words to
`PW`, their number to `NWORDS`, and nothing else changes. The length byte is not compared with the count. -/
def Obligations.DecfValidatesAndDelivers : Prop :=
  ∀ (s : State) (n : Nat), s.params.Wf → n = s.rxlen.toNat → ¬ s.Relaxed →
    (s.params.rxbufSize < n →
      exec .decf s = .next { s with status := 0x0F9, drvA := true, drvB := true }) ∧
    (n ≤ s.params.rxbufSize →
      (n < 5 ∨ (n - 1) % 4 ≠ 0 →
        exec .decf s = .next { s with status := 0x0FC, drvA := true, drvB := true }) ∧
      (5 ≤ n ∧ (n - 1) % 4 = 0 ∧ xorBytes (s.rxBytes (n - 1)) ≠ s.rxByte (n - 1) →
        exec .decf s = .next { s with status := 0x0FB, drvA := true, drvB := true }) ∧
      (5 ≤ n ∧ (n - 1) % 4 = 0 ∧ xorBytes (s.rxBytes (n - 1)) = s.rxByte (n - 1) →
        ∃ t, exec .decf s = .next t ∧
          t.hdr = s.rxByte 3 ++ s.rxByte 2 ++ s.rxByte 1 ++ s.rxByte 0 ∧
          t.nwords.toNat = (n - 1) / 4 - 1 ∧
          (∀ i, i < (n - 1) / 4 - 1 → t.pwWord i =
            s.rxByte (7 + 4 * i) ++ s.rxByte (6 + 4 * i) ++ s.rxByte (5 + 4 * i) ++ s.rxByte (4 + 4 * i)) ∧
          (∀ i, (n - 1) / 4 - 1 ≤ i → t.pwWord i = s.pwWord i) ∧
          t = { s with
                status := 0x000, hdr := t.hdr, nwords := t.nwords, pw := t.pw, drvA := true, drvB := true }))

/-- Relaxed DECF delivers every whole group without a checksum or length test and ignores the bytes after the last; fewer than four bytes
are a LengthError. -/
def Obligations.DecfRelaxedDeliversWholeGroups : Prop :=
  ∀ (s : State) (n : Nat), s.params.Wf → n = s.rxlen.toNat → s.Relaxed →
    (s.params.rxbufSize < n →
      exec .decf s = .next { s with status := 0x0F9, drvA := true, drvB := true }) ∧
    (n ≤ s.params.rxbufSize →
      (n < 4 → exec .decf s = .next { s with status := 0x0FC, drvA := true, drvB := true }) ∧
      (4 ≤ n →
        ∃ t, exec .decf s = .next t ∧
          t.hdr = s.rxByte 3 ++ s.rxByte 2 ++ s.rxByte 1 ++ s.rxByte 0 ∧
          t.nwords.toNat = n / 4 - 1 ∧
          (∀ i, i < n / 4 - 1 → t.pwWord i =
            s.rxByte (7 + 4 * i) ++ s.rxByte (6 + 4 * i) ++ s.rxByte (5 + 4 * i) ++ s.rxByte (4 + 4 * i)) ∧
          (∀ i, n / 4 - 1 ≤ i → t.pwWord i = s.pwWord i) ∧
          t = { s with
                status := 0x000, hdr := t.hdr, nwords := t.nwords, pw := t.pw, drvA := true, drvB := true }))

/-- Strict DECF rejects with LengthError, whatever the bytes are, every length that is not one more than a multiple of 4 (0 included), and
every length below 5, the length 1 included, which has no header. -/
def Obligations.DecfRejectsEveryBadLength : Prop :=
  ∀ s : State, s.DecodeFits → ¬ s.Relaxed → ((s.rxlen.toNat : Int) - 1) % 4 ≠ 0 ∨ s.rxlen.toNat < 5 →
    exec .decf s = .next { s with status := 0x0FC, drvA := true, drvB := true }

/-- Single-bit rejection: inverting one bit of one byte of a valid packet, the checksum included, gives ChecksumError; and a packet
corrupted in any way is accepted exactly when every bit position is inverted in an even number of bytes. -/
def Obligations.DecfDetectsEverySingleBitError : Prop :=
  (∀ (s s' : State) (k b : Nat),
    HoldsValidPacket s → k < s.rxlen.toNat → b < 8 →
    s'.rxlen = s.rxlen → s'.ctrl = s.ctrl → s'.params = s.params →
    (∀ i, s'.rxByte i = if i = k then s.rxByte i ^^^ BitVec.twoPow 8 b else s.rxByte i) →
    exec .decf s' = .next { s' with status := 0x0FB, drvA := true, drvB := true }) ∧
  (∀ (s s' : State) (e : Nat → Byte),
    HoldsValidPacket s → s'.rxlen = s.rxlen → s'.ctrl = s.ctrl → s'.params = s.params →
    (∀ i, s'.rxByte i = s.rxByte i ^^^ e i) →
    ∃ t, exec .decf s' = .next t ∧
      (t.status = 0x000 ↔
        ∀ b, b < 8 → ((List.range s.rxlen.toNat).filter (fun i => (e i).getLsbD b)).length % 2 = 0) ∧
      (t.status ≠ 0x000 → t.status = 0x0FB))

/-- Codec round trip: after ENCF, with the bytes of `TXBUF` copied to `RXBUF` and `TXLEN` to `RXLEN`, strict DECF gives back the header and
the payload words. -/
def Obligations.DecfUndoesEncf : Prop :=
  ∀ s t u : State,
    s.EncodeFits → exec .encf s = .next t →
    u.params.Wf → u.DecodeFits → ¬ u.Relaxed → u.rxlen = t.txlen →
    u.rxBytes t.txlen.toNat = t.txBytes t.txlen.toNat →
    ∃ v, exec .decf u = .next v ∧
      v.status = 0x000 ∧ v.hdr = s.hdr ∧ v.nwords.toNat = s.payloadCount ∧
      v.pwWords s.payloadCount = s.pwWords s.payloadCount

/-! ## TXF and RXF -/

/-- TXF is ENCF and then SEND: it leaves what they leave and drives the trace of the packet built; when ENCF reports OperandError nothing is
sent. A later SEND drives the same trace again. -/
def Obligations.TxfEncodesThenSends : Prop :=
  ∀ s : State,
    (s.EncodeFits →
      ∃ u t, exec .encf s = .next u ∧ exec .send u = .next t ∧ exec .txf s = .next t ∧ t.status = 0x000 ∧
        t.txlen = u.txlen ∧ t.txbuf = u.txbuf ∧
        t.outputs = s.outputs ++ (txTrace s.params (u.txBytes u.txlen.toNat)).map Output.drove ∧
        t = { s with
              status := 0x000, txlen := u.txlen, txbuf := u.txbuf, drvA := true, drvB := true
              outputs := t.outputs
              driveTicks := s.driveTicks + s.params.tStep *
                (s.params.startSeq.length + 24 * (4 * s.payloadCount + 5) + s.params.stopSeq.length) } ∧
        ∃ t', exec .send t = .next t' ∧
          t'.outputs = t.outputs ++ (txTrace s.params (u.txBytes u.txlen.toNat)).map Output.drove) ∧
    (¬ s.EncodeFits →
      exec .txf s = .next { s with status := 0x0F9, drvA := true, drvB := true })

/-- RXF is RECV and then, exactly when RECV reported Ok, DECF; so an error of the reception stands with no decoding attempted, DECF's
OperandError cannot occur after a reception, and an empty packet gives LengthError in both modes. -/
def Obligations.RxfReceivesThenDecodes : Prop :=
  ∀ (s : State) (maxb tmo : Nat), s.params.Wf →
    ∃ u, exec (.recv maxb tmo) s = .next u ∧
      (u.code ≠ 0x00 → exec (.rxf maxb tmo) s = .next u) ∧
      (u.code = 0x00 → ∃ t, exec .decf u = .next t ∧ exec (.rxf maxb tmo) s = .next t ∧
        t.status ≠ 0x0F9 ∧ (u.rxlen = 0 → t.status = 0x0FC))

/-- RXF of a frame: when the peer sends the packet of a header and payload words, strict RXF ends Ok with that header in `HDR`, the words in
`PW`, their number in `NWORDS`, the packet in `RXBUF` and its length in `RXLEN`. No element of `PW` beyond the words and none of
`RXBUF` beyond the packet changes, and nothing else does but `STATUS` and the samples used up. That a legal stop sequence makes line B fall, which ends the
packet, is the model's reading of R66 (assumption 4). -/
def Obligations.RxfDeliversTheFrameThePeerSends : Prop :=
  ∀ (s : State) (maxb tmo : Nat) (hdr : Word) (words : List Word),
    s.params.Wf → maxb ≤ s.params.rxbufSize → ¬ s.Relaxed → 4 * words.length + 5 ≤ maxb →
    PeerSends s tmo (txTrace s.params (packetBytes hdr words)) →
    ∃ t, exec (.rxf maxb tmo) s = .next t ∧
      t.status = 0x000 ∧ t.hdr = hdr ∧ t.nwords.toNat = words.length ∧ t.pwWords words.length = words ∧
      t.rxlen.toNat = 4 * words.length + 5 ∧ t.rxBytes (4 * words.length + 5) = packetBytes hdr words ∧
      (∀ i, words.length ≤ i → t.pwWord i = s.pwWord i) ∧
      (∀ i, 4 * words.length + 5 ≤ i → t.rxByte i = s.rxByte i) ∧
      s.peer.taken < t.peer.taken ∧ t.peer.queued = s.peer.queued.drop (t.peer.taken - s.peer.taken) ∧
      t = { s with
            status := 0x000, hdr := hdr, nwords := t.nwords, pw := t.pw
            rxlen := t.rxlen, rxbuf := t.rxbuf, peer := t.peer }

/-- Two blocks on one bus: what one block drives for TXF, shown to another block's strict RXF with every driven state held for one tick or
more, arrives as the header and payload words the first block had. That a legal stop sequence makes line B fall, which ends the
packet, is the model's reading of R66 (assumption 4). -/
def Obligations.FrameCrossesTheBusUnchanged : Prop :=
  ∀ (s t r : State) (maxb tmo : Nat) (trace : List LineState),
    s.EncodeFits → exec .txf s = .next t → t.outputs = s.outputs ++ trace.map Output.drove →
    r.params.Wf → r.params.startSeq = s.params.startSeq → r.params.stopSeq = s.params.stopSeq →
    maxb ≤ r.params.rxbufSize → 4 * s.payloadCount + 5 ≤ maxb → ¬ r.Relaxed → PeerSends r tmo trace →
    ∃ v, exec (.rxf maxb tmo) r = .next v ∧
      v.status = 0x000 ∧ v.hdr = s.hdr ∧ v.nwords.toNat = s.payloadCount ∧
      v.pwWords s.payloadCount = s.pwWords s.payloadCount

/-! ## Whole-machine rules -/

/-- Which operation can end with which code: no operation ends with a code its row denies, ChecksumError comes in strict mode only, every
code a row allows is reached from some state of the invariant, and an illegal word ends with IllegalOp only. -/
def Obligations.OperationsReportExactlyTheirCodes : Prop :=
  (∀ (i : Instr) (s t : State), exec i s = .next t →
    ∃ c : Code, t.code = c.bits ∧ mayReport i c = true ∧ (c = .checksumError → ¬ s.Relaxed)) ∧
  (∀ (i : Instr) (c : Code), mayReport i c = true →
    ∃ (j : Instr) (s t : State), j.opc = i.opc ∧ j.WellFormed ∧ s.Inv ∧ exec j s = .next t ∧ t.code = c.bits) ∧
  (∀ (s t : State) (w : Word), IllegalWord w → step (s.withCommand w) = .next t → t.code = Code.illegalOp.bits)

/-- After every operation `STATUS` has one of the eleven legal values, `DETAIL` is non-zero exactly for FrameError, `CODE` is 0 or negative
as a signed number, and both lines are released. -/
def Obligations.EveryOperationLeavesALegalStatus : Prop :=
  ∀ (i : Instr) (s t : State), exec i s = .next t →
    t.status ∈ [0x000, 0x0FF, 0x1FE, 0x2FE, 0x3FE, 0x4FE, 0x0FD, 0x0FC, 0x0FB, 0x0FA, 0x0F9] ∧
    (t.detail ≠ 0 ↔ t.code = 0xFE) ∧ (t.code = 0 ∨ t.code.toInt < 0) ∧ t.drvA = true ∧ t.drvB = true

/-- What each operation leaves unchanged, whatever the state: no operation writes `CTRL` or takes an input it has no part in; only SEND and
TXF drive, only RECV and RXF sample; `TXBUF` and `TXLEN` are written by ENCF and TXF only, `RXBUF` and `RXLEN` by RECV and RXF
only, `HDR`, `PW` and `NWORDS` by DECF and RXF only. -/
def Obligations.EachOperationWritesOnlyItsOwnState : Prop :=
  ∀ (i : Instr) (s t : State), exec i s = .next t →
    t.ctrl = s.ctrl ∧ t.params = s.params ∧ t.epoch = s.epoch ∧ t.pending = s.pending ∧
    (i.opc ≠ 0x1 → i.opc ≠ 0x5 → t.outputs = s.outputs ∧ t.driveTicks = s.driveTicks) ∧
    (i.opc ≠ 0x2 → i.opc ≠ 0x6 → t.peer = s.peer ∧ t.rxlen = s.rxlen ∧ ∀ a, t.rxByte a = s.rxByte a) ∧
    (i.opc ≠ 0x3 → i.opc ≠ 0x5 → t.txlen = s.txlen ∧ ∀ a, t.txByte a = s.txByte a) ∧
    (i.opc ≠ 0x4 → i.opc ≠ 0x6 → t.hdr = s.hdr ∧ t.nwords = s.nwords ∧ ∀ a, t.pwWord a = s.pwWord a)

/-- A failed decode or encode leaves everything but `STATUS`: the previous header, words and count stand. -/
def Obligations.FailedCodecOperationChangesOnlyStatus : Prop :=
  ∀ (i : Instr) (s t : State), i ∈ [Instr.encf, .decf] → exec i s = .next t → t.code ≠ 0 →
    t = { s with status := t.status, drvA := true, drvB := true }

/-- No operation reads the status it finds, nor what the previous operation was: from two states that differ only in `STATUS` it does the
same. -/
def Obligations.OperationsDoNotReadOldStatus : Prop :=
  ∀ (i : Instr) (s : State) (x : BitVec 12), exec i { s with status := x } = exec i s

/-- An operation depends on its own inputs only: SEND on `TXLEN` and the bytes it sends; RECV on the samples and the latches; ENCF on `HDR`
and the words it sends; DECF on `CTRL`, `RXLEN` and the bytes it decodes; and each on the parameters. -/
def Obligations.OperationsDependOnlyOnTheirInputs : Prop :=
  ∀ s s' : State, s'.params = s.params →
    (s'.txlen = s.txlen → s'.txBytes s.txlen.toNat = s.txBytes s.txlen.toNat →
      ∃ t t' new, exec .send s = .next t ∧ exec .send s' = .next t' ∧ t'.status = t.status ∧
        t.outputs = s.outputs ++ new ∧ t'.outputs = s'.outputs ++ new) ∧
    (∀ maxb tmo, s.params.Wf → maxb ≤ s.params.rxbufSize → s'.peer = s.peer → s'.latches = s.latches →
      ∃ t t', exec (.recv maxb tmo) s = .next t ∧ exec (.recv maxb tmo) s' = .next t' ∧ t'.status = t.status ∧
        t'.rxlen = t.rxlen ∧ t'.rxBytes t.rxlen.toNat = t.rxBytes t.rxlen.toNat ∧ t'.peer = t.peer) ∧
    (s.EncodeFits → s'.hdr = s.hdr → s'.pwWords s.payloadCount = s.pwWords s.payloadCount →
      ∃ t t', exec .encf s = .next t ∧ exec .encf s' = .next t' ∧ t'.status = t.status ∧
        t'.txlen = t.txlen ∧ t'.txBytes t.txlen.toNat = t.txBytes t.txlen.toNat) ∧
    (s.params.Wf → s.DecodeFits → s'.ctrl = s.ctrl → s'.rxlen = s.rxlen →
      s'.rxBytes s.rxlen.toNat = s.rxBytes s.rxlen.toNat →
      ∃ t t', exec .decf s = .next t ∧ exec .decf s' = .next t' ∧ t'.status = t.status ∧
        (t.status = 0 → t'.hdr = t.hdr ∧ t'.nwords = t.nwords ∧
          t'.pwWords t.nwords.toNat = t.pwWords t.nwords.toNat))
end

