-- ==== Sys2Proof/Laws/State.lean ====
section
/-! SUPPORT. What each update of the state does to each field: one lemma for each field and update, true by `rfl`, so that no
proof unfolds a record update. -/

namespace Sys2Proof.Machine

variable (s : State)

/-! ## The end of an operation: `finish` -/

@[simp] theorem State.finish_hdr (c : Code) (d : BitVec 4) : (s.finish c d).hdr = s.hdr := rfl
@[simp] theorem State.finish_status (c : Code) (d : BitVec 4) : (s.finish c d).status = statusBits c d := rfl
@[simp] theorem State.finish_ctrl (c : Code) (d : BitVec 4) : (s.finish c d).ctrl = s.ctrl := rfl
@[simp] theorem State.finish_nwords (c : Code) (d : BitVec 4) : (s.finish c d).nwords = s.nwords := rfl
@[simp] theorem State.finish_txlen (c : Code) (d : BitVec 4) : (s.finish c d).txlen = s.txlen := rfl
@[simp] theorem State.finish_rxlen (c : Code) (d : BitVec 4) : (s.finish c d).rxlen = s.rxlen := rfl
@[simp] theorem State.finish_txbuf (c : Code) (d : BitVec 4) : (s.finish c d).txbuf = s.txbuf := rfl
@[simp] theorem State.finish_rxbuf (c : Code) (d : BitVec 4) : (s.finish c d).rxbuf = s.rxbuf := rfl
@[simp] theorem State.finish_pw (c : Code) (d : BitVec 4) : (s.finish c d).pw = s.pw := rfl
@[simp] theorem State.finish_drvA (c : Code) (d : BitVec 4) : (s.finish c d).drvA = true := rfl
@[simp] theorem State.finish_drvB (c : Code) (d : BitVec 4) : (s.finish c d).drvB = true := rfl
@[simp] theorem State.finish_params (c : Code) (d : BitVec 4) : (s.finish c d).params = s.params := rfl
@[simp] theorem State.finish_epoch (c : Code) (d : BitVec 4) : (s.finish c d).epoch = s.epoch := rfl
@[simp] theorem State.finish_pending (c : Code) (d : BitVec 4) : (s.finish c d).pending = s.pending := rfl
@[simp] theorem State.finish_peer (c : Code) (d : BitVec 4) : (s.finish c d).peer = s.peer := rfl
@[simp] theorem State.finish_outputs (c : Code) (d : BitVec 4) : (s.finish c d).outputs = s.outputs := rfl
@[simp] theorem State.finish_driveTicks (c : Code) (d : BitVec 4) : (s.finish c d).driveTicks = s.driveTicks := rfl

/-! ## Driving one line state: `drive` -/

@[simp] theorem State.drive_hdr (l : LineState) : (s.drive l).hdr = s.hdr := rfl
@[simp] theorem State.drive_status (l : LineState) : (s.drive l).status = s.status := rfl
@[simp] theorem State.drive_ctrl (l : LineState) : (s.drive l).ctrl = s.ctrl := rfl
@[simp] theorem State.drive_nwords (l : LineState) : (s.drive l).nwords = s.nwords := rfl
@[simp] theorem State.drive_txlen (l : LineState) : (s.drive l).txlen = s.txlen := rfl
@[simp] theorem State.drive_rxlen (l : LineState) : (s.drive l).rxlen = s.rxlen := rfl
@[simp] theorem State.drive_txbuf (l : LineState) : (s.drive l).txbuf = s.txbuf := rfl
@[simp] theorem State.drive_rxbuf (l : LineState) : (s.drive l).rxbuf = s.rxbuf := rfl
@[simp] theorem State.drive_pw (l : LineState) : (s.drive l).pw = s.pw := rfl
@[simp] theorem State.drive_drvA (l : LineState) : (s.drive l).drvA = l.a := rfl
@[simp] theorem State.drive_drvB (l : LineState) : (s.drive l).drvB = l.b := rfl
@[simp] theorem State.drive_params (l : LineState) : (s.drive l).params = s.params := rfl
@[simp] theorem State.drive_epoch (l : LineState) : (s.drive l).epoch = s.epoch := rfl
@[simp] theorem State.drive_pending (l : LineState) : (s.drive l).pending = s.pending := rfl
@[simp] theorem State.drive_peer (l : LineState) : (s.drive l).peer = s.peer := rfl
@[simp] theorem State.drive_outputs (l : LineState) : (s.drive l).outputs = s.outputs ++ [.drove l] := rfl
@[simp] theorem State.drive_driveTicks (l : LineState) : (s.drive l).driveTicks = s.driveTicks + s.params.tStep := rfl

/-! ## Recording an output: `emit` -/

@[simp] theorem State.emit_hdr (o : Output) : (s.emit o).hdr = s.hdr := rfl
@[simp] theorem State.emit_status (o : Output) : (s.emit o).status = s.status := rfl
@[simp] theorem State.emit_ctrl (o : Output) : (s.emit o).ctrl = s.ctrl := rfl
@[simp] theorem State.emit_nwords (o : Output) : (s.emit o).nwords = s.nwords := rfl
@[simp] theorem State.emit_txlen (o : Output) : (s.emit o).txlen = s.txlen := rfl
@[simp] theorem State.emit_rxlen (o : Output) : (s.emit o).rxlen = s.rxlen := rfl
@[simp] theorem State.emit_txbuf (o : Output) : (s.emit o).txbuf = s.txbuf := rfl
@[simp] theorem State.emit_rxbuf (o : Output) : (s.emit o).rxbuf = s.rxbuf := rfl
@[simp] theorem State.emit_pw (o : Output) : (s.emit o).pw = s.pw := rfl
@[simp] theorem State.emit_drvA (o : Output) : (s.emit o).drvA = s.drvA := rfl
@[simp] theorem State.emit_drvB (o : Output) : (s.emit o).drvB = s.drvB := rfl
@[simp] theorem State.emit_params (o : Output) : (s.emit o).params = s.params := rfl
@[simp] theorem State.emit_epoch (o : Output) : (s.emit o).epoch = s.epoch := rfl
@[simp] theorem State.emit_pending (o : Output) : (s.emit o).pending = s.pending := rfl
@[simp] theorem State.emit_peer (o : Output) : (s.emit o).peer = s.peer := rfl
@[simp] theorem State.emit_outputs (o : Output) : (s.emit o).outputs = s.outputs ++ [o] := rfl
@[simp] theorem State.emit_driveTicks (o : Output) : (s.emit o).driveTicks = s.driveTicks := rfl

/-! ## Delivering a packet: `deliver` -/

@[simp] theorem State.deliver_hdr (g : Nat) : (s.deliver g).hdr = s.rxGroup 0 := rfl
@[simp] theorem State.deliver_status (g : Nat) : (s.deliver g).status = s.status := rfl
@[simp] theorem State.deliver_ctrl (g : Nat) : (s.deliver g).ctrl = s.ctrl := rfl
@[simp] theorem State.deliver_nwords (g : Nat) : (s.deliver g).nwords = BitVec.ofNat 10 (g - 1) := rfl
@[simp] theorem State.deliver_txlen (g : Nat) : (s.deliver g).txlen = s.txlen := rfl
@[simp] theorem State.deliver_rxlen (g : Nat) : (s.deliver g).rxlen = s.rxlen := rfl
@[simp] theorem State.deliver_txbuf (g : Nat) : (s.deliver g).txbuf = s.txbuf := rfl
@[simp] theorem State.deliver_rxbuf (g : Nat) : (s.deliver g).rxbuf = s.rxbuf := rfl
@[simp] theorem State.deliver_pw (g : Nat) :
    (s.deliver g).pw = s.pw.storeAll 0 ((List.range (g - 1)).map (fun i => s.rxGroup (i + 1))) := rfl
@[simp] theorem State.deliver_drvA (g : Nat) : (s.deliver g).drvA = s.drvA := rfl
@[simp] theorem State.deliver_drvB (g : Nat) : (s.deliver g).drvB = s.drvB := rfl
@[simp] theorem State.deliver_params (g : Nat) : (s.deliver g).params = s.params := rfl
@[simp] theorem State.deliver_epoch (g : Nat) : (s.deliver g).epoch = s.epoch := rfl
@[simp] theorem State.deliver_pending (g : Nat) : (s.deliver g).pending = s.pending := rfl
@[simp] theorem State.deliver_peer (g : Nat) : (s.deliver g).peer = s.peer := rfl
@[simp] theorem State.deliver_outputs (g : Nat) : (s.deliver g).outputs = s.outputs := rfl
@[simp] theorem State.deliver_driveTicks (g : Nat) : (s.deliver g).driveTicks = s.driveTicks := rfl

/-! ## The end of a reception: `received` -/

@[simp] theorem State.received_hdr (r : Reception) : (s.received r).hdr = s.hdr := rfl
@[simp] theorem State.received_status (r : Reception) :
    (s.received r).status = statusBits r.verdict.code r.verdict.detail := rfl
@[simp] theorem State.received_ctrl (r : Reception) : (s.received r).ctrl = s.ctrl := rfl
@[simp] theorem State.received_nwords (r : Reception) : (s.received r).nwords = s.nwords := rfl
@[simp] theorem State.received_txlen (r : Reception) : (s.received r).txlen = s.txlen := rfl
@[simp] theorem State.received_rxlen (r : Reception) : (s.received r).rxlen = BitVec.ofNat 12 r.bytes.length := rfl
@[simp] theorem State.received_txbuf (r : Reception) : (s.received r).txbuf = s.txbuf := rfl
@[simp] theorem State.received_rxbuf (r : Reception) : (s.received r).rxbuf = s.rxbuf.storeAll 0 r.bytes := rfl
@[simp] theorem State.received_pw (r : Reception) : (s.received r).pw = s.pw := rfl
@[simp] theorem State.received_drvA (r : Reception) : (s.received r).drvA = true := rfl
@[simp] theorem State.received_drvB (r : Reception) : (s.received r).drvB = true := rfl
@[simp] theorem State.received_params (r : Reception) : (s.received r).params = s.params := rfl
@[simp] theorem State.received_epoch (r : Reception) : (s.received r).epoch = s.epoch := rfl
@[simp] theorem State.received_pending (r : Reception) : (s.received r).pending = s.pending := rfl
@[simp] theorem State.received_peer (r : Reception) : (s.received r).peer = r.peer := rfl
@[simp] theorem State.received_outputs (r : Reception) : (s.received r).outputs = s.outputs := rfl
@[simp] theorem State.received_driveTicks (r : Reception) : (s.received r).driveTicks = s.driveTicks := rfl

/-! ## Reset: `restart` -/

@[simp] theorem State.restart_hdr : (s.restart).hdr = 0 := rfl
@[simp] theorem State.restart_status : (s.restart).status = 0 := rfl
@[simp] theorem State.restart_ctrl : (s.restart).ctrl = 0 := rfl
@[simp] theorem State.restart_nwords : (s.restart).nwords = 0 := rfl
@[simp] theorem State.restart_txlen : (s.restart).txlen = 0 := rfl
@[simp] theorem State.restart_rxlen : (s.restart).rxlen = 0 := rfl
@[simp] theorem State.restart_txbuf : (s.restart).txbuf = [] := rfl
@[simp] theorem State.restart_rxbuf : (s.restart).rxbuf = [] := rfl
@[simp] theorem State.restart_pw : (s.restart).pw = [] := rfl
@[simp] theorem State.restart_drvA : (s.restart).drvA = true := rfl
@[simp] theorem State.restart_drvB : (s.restart).drvB = true := rfl
@[simp] theorem State.restart_params : (s.restart).params = s.params := rfl
@[simp] theorem State.restart_epoch : (s.restart).epoch = s.epoch + 1 := rfl
@[simp] theorem State.restart_pending : (s.restart).pending = s.pending := rfl
@[simp] theorem State.restart_peer : (s.restart).peer = s.peer := rfl
@[simp] theorem State.restart_outputs : (s.restart).outputs = s.outputs := rfl
@[simp] theorem State.restart_driveTicks : (s.restart).driveTicks = s.driveTicks := rfl

/-! ## Placing a command: `withCommand` -/

@[simp] theorem State.withCommand_hdr (w : Word) : (s.withCommand w).hdr = s.hdr := rfl
@[simp] theorem State.withCommand_status (w : Word) : (s.withCommand w).status = s.status := rfl
@[simp] theorem State.withCommand_ctrl (w : Word) : (s.withCommand w).ctrl = s.ctrl := rfl
@[simp] theorem State.withCommand_nwords (w : Word) : (s.withCommand w).nwords = s.nwords := rfl
@[simp] theorem State.withCommand_txlen (w : Word) : (s.withCommand w).txlen = s.txlen := rfl
@[simp] theorem State.withCommand_rxlen (w : Word) : (s.withCommand w).rxlen = s.rxlen := rfl
@[simp] theorem State.withCommand_txbuf (w : Word) : (s.withCommand w).txbuf = s.txbuf := rfl
@[simp] theorem State.withCommand_rxbuf (w : Word) : (s.withCommand w).rxbuf = s.rxbuf := rfl
@[simp] theorem State.withCommand_pw (w : Word) : (s.withCommand w).pw = s.pw := rfl
@[simp] theorem State.withCommand_drvA (w : Word) : (s.withCommand w).drvA = s.drvA := rfl
@[simp] theorem State.withCommand_drvB (w : Word) : (s.withCommand w).drvB = s.drvB := rfl
@[simp] theorem State.withCommand_params (w : Word) : (s.withCommand w).params = s.params := rfl
@[simp] theorem State.withCommand_epoch (w : Word) : (s.withCommand w).epoch = s.epoch := rfl
@[simp] theorem State.withCommand_pending (w : Word) : (s.withCommand w).pending = .write 0 w :: s.pending := rfl
@[simp] theorem State.withCommand_peer (w : Word) : (s.withCommand w).peer = s.peer := rfl
@[simp] theorem State.withCommand_outputs (w : Word) : (s.withCommand w).outputs = s.outputs := rfl
@[simp] theorem State.withCommand_driveTicks (w : Word) : (s.withCommand w).driveTicks = s.driveTicks := rfl

/-! ## Reading buffer elements -/

@[simp] theorem State.finish_txByte (c : Code) (d : BitVec 4) (i : Nat) : (s.finish c d).txByte i = s.txByte i := rfl
@[simp] theorem State.finish_rxByte (c : Code) (d : BitVec 4) (i : Nat) : (s.finish c d).rxByte i = s.rxByte i := rfl
@[simp] theorem State.finish_pwWord (c : Code) (d : BitVec 4) (i : Nat) : (s.finish c d).pwWord i = s.pwWord i := rfl
@[simp] theorem State.drive_txByte (l : LineState) (i : Nat) : (s.drive l).txByte i = s.txByte i := rfl
@[simp] theorem State.drive_rxByte (l : LineState) (i : Nat) : (s.drive l).rxByte i = s.rxByte i := rfl
@[simp] theorem State.drive_pwWord (l : LineState) (i : Nat) : (s.drive l).pwWord i = s.pwWord i := rfl

theorem State.txBytes_length (n : Nat) : (s.txBytes n).length = n := by simp [State.txBytes]

theorem State.rxBytes_length (n : Nat) : (s.rxBytes n).length = n := by simp [State.rxBytes]

theorem State.pwWords_length (n : Nat) : (s.pwWords n).length = n := by simp [State.pwWords]

/-- The status layout: `CODE` is what the code says (spec/10_state.md R13). -/
@[simp] theorem State.finish_code (c : Code) (d : BitVec 4) : (s.finish c d).code = c.bits := by
  cases c <;> simp only [State.code, State.finish_status, statusBits] <;> revert d <;> decide

/-- The status layout: `DETAIL` is what the detail says (spec/10_state.md R13). -/
@[simp] theorem State.finish_detail (c : Code) (d : BitVec 4) : (s.finish c d).detail = d := by
  cases c <;> simp only [State.detail, State.finish_status, statusBits] <;> revert d <;> decide

/-- Ending an operation twice is ending it the second way. -/
@[simp] theorem State.finish_finish (c c' : Code) (d d' : BitVec 4) :
    (s.finish c d).finish c' d' = s.finish c' d' := rfl

end Sys2Proof.Machine
end

