-- ==== Sys2Proof/Laws/Memory.lean ====
section
/-! SUPPORT. The laws of the buffers: a read after a write, a write leaves every other element alone, every write keeps the canonical
form, and what a run of writes leaves. -/

namespace Sys2Proof.Machine

variable {w : Nat}

@[simp] theorem Memory.find_nil (i : Nat) : Memory.find ([] : Memory w) i = none := rfl

/-- A read after a write to the same element gives the value written. -/
@[simp] theorem Memory.find_store_same (m : Memory w) (i : Nat) (v : BitVec w) : (m.store i v).find i = some v := by
  induction m with
  | nil => simp [Memory.store, Memory.find]
  | cons c rest ih =>
    obtain ⟨j, u⟩ := c
    simp only [Memory.store]
    split
    · simp [Memory.find]
    · split
      · simp [Memory.find]
      · rename_i h1 h2
        simp [Memory.find, h2, ih]

/-- A write leaves every other element alone. -/
theorem Memory.find_store_other (m : Memory w) (i k : Nat) (v : BitVec w) (h : k ≠ i) :
    (m.store i v).find k = m.find k := by
  induction m with
  | nil => simp [Memory.store, Memory.find, h]
  | cons c rest ih =>
    obtain ⟨j, u⟩ := c
    simp only [Memory.store]
    split
    · simp [Memory.find, h]
    · split
      · rename_i h1 h2
        subst h2
        simp [Memory.find, h]
      · simp [Memory.find, ih]

/-- What a write can list: the entry written, and entries listed before. -/
theorem Memory.mem_store (m : Memory w) (i : Nat) (v : BitVec w) (c : Nat × BitVec w) (h : c ∈ m.store i v) :
    c = (i, v) ∨ c ∈ m := by
  induction m with
  | nil => simpa [Memory.store] using h
  | cons d rest ih =>
    obtain ⟨j, u⟩ := d
    simp only [Memory.store] at h
    split at h
    · simpa using h
    · split at h
      · rcases List.mem_cons.1 h with h | h
        · exact .inl h
        · exact .inr (List.mem_cons_of_mem _ h)
      · rcases List.mem_cons.1 h with h | h
        · exact .inr (h ▸ List.mem_cons_self)
        · exact (ih h).imp id (List.mem_cons_of_mem _)

theorem Memory.store_pairwise (m : Memory w) (i : Nat) (v : BitVec w) (h : m.Pairwise (fun c d => c.1 < d.1)) :
    (m.store i v).Pairwise (fun c d => c.1 < d.1) := by
  induction m with
  | nil => simp [Memory.store]
  | cons d rest ih =>
    obtain ⟨j, u⟩ := d
    obtain ⟨h1, h2⟩ := List.pairwise_cons.1 h
    simp only [Memory.store]
    split
    · rename_i hij
      refine List.pairwise_cons.2 ⟨fun c hc => ?_, h⟩
      rcases List.mem_cons.1 hc with rfl | hc
      · exact hij
      · exact hij.trans (h1 c hc)
    · split
      · rename_i hij
        exact List.pairwise_cons.2 ⟨fun c hc => hij ▸ h1 c hc, h2⟩
      · rename_i hij hne
        refine List.pairwise_cons.2 ⟨fun c hc => ?_, ih h2⟩
        rcases Memory.mem_store rest i v c hc with rfl | hc
        · show j < i
          omega
        · exact h1 c hc

/-- A write inside the buffer keeps the canonical form. -/
theorem Memory.store_wf (size : Nat) (m : Memory w) (i : Nat) (v : BitVec w) (h : m.wf size) (hi : i < size) :
    (m.store i v).wf size := by
  refine ⟨Memory.store_pairwise m i v h.1, fun c hc => ?_⟩
  rcases Memory.mem_store m i v c hc with rfl | hc
  · exact hi
  · exact h.2 c hc

/-- A run of writes inside the buffer keeps the canonical form. -/
theorem Memory.storeAll_wf (size : Nat) (vs : List (BitVec w)) (m : Memory w) (base : Nat) (h : m.wf size)
    (hi : base + vs.length ≤ size) : (m.storeAll base vs).wf size := by
  induction vs generalizing m base with
  | nil => exact h
  | cons v vs ih =>
    simp only [List.length_cons] at hi
    exact ih _ _ (Memory.store_wf size m base v h (by omega)) (by omega)

/-- What a run of writes leaves: the values inside the run, and every other element as it was. -/
theorem Memory.find_storeAll (vs : List (BitVec w)) (m : Memory w) (base i : Nat) :
    (m.storeAll base vs).find i =
      if base ≤ i ∧ i < base + vs.length then vs[i - base]? else m.find i := by
  induction vs generalizing m base with
  | nil =>
    simp only [Memory.storeAll, List.length_nil]
    rw [if_neg (by omega)]
  | cons v vs ih =>
    simp only [Memory.storeAll, ih, List.length_cons]
    by_cases h1 : i = base
    · subst h1
      rw [if_neg (by omega), if_pos (by omega)]
      simp
    · rw [Memory.find_store_other _ _ _ _ h1]
      by_cases h2 : base + 1 ≤ i ∧ i < base + 1 + vs.length
      · rw [if_pos h2, if_pos (by omega)]
        obtain ⟨n, hn⟩ : ∃ n, i - base = n + 1 := ⟨i - base - 1, by omega⟩
        rw [hn, List.getElem?_cons_succ, show i - (base + 1) = n by omega]
      · rw [if_neg h2, if_neg (by omega)]

/-- In canonical form an element is listed at the place its index gives it: writing the value it holds changes nothing. -/
theorem Memory.store_of_find (m : Memory w) (i : Nat) (v : BitVec w) (h : m.Pairwise (fun c d => c.1 < d.1))
    (hf : m.find i = some v) : m.store i v = m := by
  induction m with
  | nil => simp at hf
  | cons c rest ih =>
    obtain ⟨j, u⟩ := c
    obtain ⟨h1, h2⟩ := List.pairwise_cons.1 h
    simp only [Memory.find] at hf
    simp only [Memory.store]
    by_cases hij : i = j
    · subst hij
      simp at hf
      simp [hf]
    · rw [if_neg hij] at hf
      have hmem : ∃ d ∈ rest, d.1 = i := by
        clear ih h h1 h2
        induction rest with
        | nil => simp at hf
        | cons d rest ih =>
          obtain ⟨k, x⟩ := d
          simp only [Memory.find] at hf
          by_cases hk : i = k
          · exact ⟨(k, x), List.mem_cons_self, hk.symm⟩
          · rw [if_neg hk] at hf
            obtain ⟨d, hd, he⟩ := ih hf
            exact ⟨d, List.mem_cons_of_mem _ hd, he⟩
      obtain ⟨d, hd, he⟩ := hmem
      have := h1 d hd
      rw [if_neg (by simp at this; omega), if_neg hij, ih h2 hf]

/-- A run of writes keeps the order of indices. -/
theorem Memory.storeAll_pairwise (vs : List (BitVec w)) (m : Memory w) (base : Nat)
    (h : m.Pairwise (fun c d => c.1 < d.1)) : (m.storeAll base vs).Pairwise (fun c d => c.1 < d.1) := by
  induction vs generalizing m base with
  | nil => exact h
  | cons v vs ih => exact ih _ _ (Memory.store_pairwise m base v h)

/-- Writing again the values the elements hold changes nothing. -/
theorem Memory.storeAll_of_find (vs : List (BitVec w)) (m : Memory w) (base : Nat)
    (h : m.Pairwise (fun c d => c.1 < d.1)) (hf : ∀ i (hi : i < vs.length), m.find (base + i) = some vs[i]) :
    m.storeAll base vs = m := by
  induction vs generalizing base with
  | nil => rfl
  | cons v vs ih =>
    have h0 := hf 0 (by simp)
    simp only [Nat.add_zero, List.getElem_cons_zero] at h0
    simp only [Memory.storeAll, Memory.store_of_find m base v h h0]
    refine ih (base + 1) (fun i hi => ?_)
    have := hf (i + 1) (by simpa using hi)
    simpa [Nat.add_assoc, Nat.add_comm 1 i] using this

/-! ## The buffers of the state -/

/-- `TXBUF` after a run of writes from index 0 on. -/
theorem State.txByte_storeAll (s : State) (bytes : List Byte) (i : Nat) :
    (((s.txbuf.storeAll 0 bytes).find i).getD (Config.drawnTx s.epoch i)) = (bytes[i]?).getD (s.txByte i) := by
  rw [Memory.find_storeAll]
  by_cases h : i < bytes.length
  · simp [h]
  · simp [h, State.txByte]

/-- `RXBUF` after a run of writes from index 0 on. -/
theorem State.rxByte_storeAll (s : State) (bytes : List Byte) (i : Nat) :
    (((s.rxbuf.storeAll 0 bytes).find i).getD (Config.drawnRx s.epoch i)) = (bytes[i]?).getD (s.rxByte i) := by
  rw [Memory.find_storeAll]
  by_cases h : i < bytes.length
  · simp [h]
  · simp [h, State.rxByte]

/-- `PW` after a run of writes from index 0 on. -/
theorem State.pwWord_storeAll (s : State) (words : List Word) (i : Nat) :
    (((s.pw.storeAll 0 words).find i).getD (Config.drawnPw s.epoch i)) = (words[i]?).getD (s.pwWord i) := by
  rw [Memory.find_storeAll]
  by_cases h : i < words.length
  · simp [h]
  · simp [h, State.pwWord]

/-- The received bytes as a later read finds them. -/
theorem State.received_rxByte (s : State) (r : Reception) (i : Nat) :
    (s.received r).rxByte i = (r.bytes[i]?).getD (s.rxByte i) := State.rxByte_storeAll s r.bytes i

/-- The delivered words as a later read finds them. -/
theorem State.deliver_pwWord (s : State) (g i : Nat) :
    (s.deliver g).pwWord i = if i < g - 1 then s.rxGroup (i + 1) else s.pwWord i := by
  refine (State.pwWord_storeAll s _ i).trans ?_
  by_cases h : i < g - 1
  · rw [if_pos h, List.getElem?_eq_getElem (by simpa using h)]
    simp
  · rw [if_neg h, List.getElem?_eq_none (by simpa using Nat.le_of_not_lt h)]
    rfl

end Sys2Proof.Machine
end

