-- ==== Sys2Proof/Laws/Codec.lean ====
section
/-! SUPPORT. The laws of the frame codec: the exclusive or, the bytes of a word, the bytes of a packet and where each of them stands
(spec/41_frame_codec.md rules R90 to R94). -/

namespace Sys2Proof.Machine

/-! ## The exclusive or -/

@[simp] theorem xorBytes_nil : xorBytes [] = 0 := rfl

@[simp] theorem xorBytes_cons (y : Byte) (ys : List Byte) : xorBytes (y :: ys) = y ^^^ xorBytes ys := rfl

theorem xorBytes_append (xs ys : List Byte) : xorBytes (xs ++ ys) = xorBytes xs ^^^ xorBytes ys := by
  induction xs with
  | nil => simp
  | cons x xs ih => rw [List.cons_append, xorBytes_cons, xorBytes_cons, ih, BitVec.xor_assoc]

/-- Bit `b` of the exclusive or counts the bytes with that bit set, modulo 2. -/
theorem xorBytes_getLsbD (ys : List Byte) (b : Nat) :
    (xorBytes ys).getLsbD b = decide ((ys.filter (fun y => y.getLsbD b)).length % 2 = 1) := by
  induction ys with
  | nil => simp
  | cons y ys ih =>
    rw [xorBytes_cons, BitVec.getLsbD_xor, ih, List.filter_cons]
    cases y.getLsbD b with
    | false => simp
    | true =>
      rw [if_pos rfl, List.length_cons]
      rcases Nat.mod_two_eq_zero_or_one (ys.filter (fun y => y.getLsbD b)).length with h | h
      · rw [h, show ((ys.filter (fun y => y.getLsbD b)).length + 1) % 2 = 1 by omega]
        rfl
      · rw [h, show ((ys.filter (fun y => y.getLsbD b)).length + 1) % 2 = 0 by omega]
        rfl

/-- The exclusive or of two lists taken element by element. -/
theorem xorBytes_map_xor (is : List Nat) (f g : Nat → Byte) :
    xorBytes (is.map (fun i => f i ^^^ g i)) = xorBytes (is.map f) ^^^ xorBytes (is.map g) := by
  induction is with
  | nil => simp
  | cons i is ih =>
    simp only [List.map_cons, xorBytes_cons, ih]
    ac_rfl

/-! ## Bytes and words -/

/-- The four bytes of a word put together again (spec/41_frame_codec.md R93). -/
@[simp] theorem bytesWord_wordByte (w : Word) : bytesWord (wordByte w 0) (wordByte w 1) (wordByte w 2) (wordByte w 3) = w := by
  apply BitVec.eq_of_getLsbD_eq
  intro i hi
  simp only [bytesWord, wordByte, BitVec.getLsbD_append, BitVec.getLsbD_extractLsb']
  by_cases h0 : i < 8
  · simp [h0]
  · by_cases h1 : i < 16
    · simp [h0, show i - 8 < 8 by omega, show 8 + (i - 8) = i by omega]
    · by_cases h2 : i < 24
      · simp [h0, show ¬ i - 8 < 8 by omega, show i - 8 - 8 < 8 by omega, show 16 + (i - 8 - 8) = i by omega]
      · simp [h0, show ¬ i - 8 < 8 by omega, show ¬ i - 8 - 8 < 8 by omega, show i - 8 - 8 - 8 < 8 by omega,
          show 24 + (i - 8 - 8 - 8) = i by omega]

theorem wordBytes_getElem? (w : Word) (j : Nat) (h : j < 4) : (wordBytes w)[j]? = some (wordByte w j) := by
  match j, h with
  | 0, _ => rfl
  | 1, _ => rfl
  | 2, _ => rfl
  | 3, _ => rfl

/-! ## Packets -/

theorem flatMap_wordBytes_length (words : List Word) : (words.flatMap wordBytes).length = 4 * words.length := by
  induction words with
  | nil => rfl
  | cons w ws ih =>
    rw [List.flatMap_cons, List.length_append, ih, List.length_cons]
    show 4 + _ = _
    omega

theorem packetBody_length (hdr : Word) (words : List Word) : (packetBody hdr words).length = 4 * words.length + 4 := by
  rw [packetBody, List.length_append, flatMap_wordBytes_length]
  show 4 + _ = _
  omega

/-- A packet's length (spec/41_frame_codec.md R90). -/
theorem packetBytes_length (hdr : Word) (words : List Word) :
    (packetBytes hdr words).length = packetLength words.length := by
  rw [packetBytes, List.length_append, packetBody_length]
  rfl

/-- Byte `j` of group `g` of a packet's body is byte `j` of that word, group 0 being the header
(spec/41_frame_codec.md R91, R93). -/
theorem packetBody_getElem? (hdr : Word) (words : List Word) (g j : Nat) (hg : g ≤ words.length) (hj : j < 4) :
    (packetBody hdr words)[4 * g + j]? = ((hdr :: words)[g]?).map (fun w => wordByte w j) := by
  have key : ∀ (ws : List Word) (g : Nat), g < ws.length →
      (ws.flatMap wordBytes)[4 * g + j]? = (ws[g]?).map (fun w => wordByte w j) := by
    intro ws
    induction ws with
    | nil => intro g h; simp at h
    | cons w ws ih =>
      intro g h
      have h4 : (wordBytes w).length = 4 := rfl
      cases g with
      | zero =>
        rw [List.flatMap_cons, Nat.mul_zero, Nat.zero_add, List.getElem?_append_left (by omega),
          wordBytes_getElem? w j hj]
        rfl
      | succ g =>
        rw [List.flatMap_cons, List.getElem?_append_right (by omega), h4,
          show 4 * (g + 1) + j - 4 = 4 * g + j by omega, ih g (by simpa using h), List.getElem?_cons_succ]
  exact key (hdr :: words) g (by rw [List.length_cons]; omega)

theorem packetBytes_getElem?_body (hdr : Word) (words : List Word) (i : Nat) (h : i < 4 * words.length + 4) :
    (packetBytes hdr words)[i]? = (packetBody hdr words)[i]? := by
  rw [packetBytes, List.getElem?_append_left (by rw [packetBody_length]; omega)]

/-- The last byte of a packet is the exclusive or of the others (spec/41_frame_codec.md R94). -/
theorem packetBytes_getElem?_last (hdr : Word) (words : List Word) :
    (packetBytes hdr words)[4 * words.length + 4]? = some (xorBytes (packetBody hdr words)) := by
  rw [packetBytes, List.getElem?_append_right (by rw [packetBody_length]), packetBody_length]
  simp

/-! ## Reading a run of elements -/

/-- A run of bytes of `RXBUF` seen as a list. -/
theorem State.rxBytes_eq_iff (s : State) (bytes : List Byte) (n : Nat) (hn : bytes.length = n) :
    s.rxBytes n = bytes ↔ ∀ i, i < n → bytes[i]? = some (s.rxByte i) := by
  subst hn
  constructor
  · intro h i hi
    rw [← h]
    simp [State.rxBytes, hi]
  · intro h
    apply List.ext_getElem?
    intro i
    by_cases hi : i < bytes.length
    · rw [h i hi]
      simp [State.rxBytes, hi]
    · rw [List.getElem?_eq_none (by simpa [State.rxBytes] using hi), List.getElem?_eq_none (by simpa using hi)]

/-- The words of `PW` seen as a list. -/
theorem State.pwWords_eq_iff (s : State) (words : List Word) (n : Nat) (hn : words.length = n) :
    s.pwWords n = words ↔ ∀ i, i < n → words[i]? = some (s.pwWord i) := by
  subst hn
  constructor
  · intro h i hi
    rw [← h]
    simp [State.pwWords, hi]
  · intro h
    apply List.ext_getElem?
    intro i
    by_cases hi : i < words.length
    · rw [h i hi]
      simp [State.pwWords, hi]
    · rw [List.getElem?_eq_none (by simpa [State.pwWords] using hi), List.getElem?_eq_none (by simpa using hi)]

/-- Where `RXBUF` holds a packet, its groups are the header and the words. -/
theorem State.rxGroup_of_packet (s : State) (hdr : Word) (words : List Word)
    (h : s.rxBytes (packetLength words.length) = packetBytes hdr words) (g : Nat) (hg : g ≤ words.length) :
    (hdr :: words)[g]? = some (s.rxGroup g) := by
  have hb := (State.rxBytes_eq_iff s _ _ (packetBytes_length hdr words)).1 h
  have byte : ∀ j, j < 4 → ((hdr :: words)[g]?).map (fun w => wordByte w j) = some (s.rxByte (4 * g + j)) := by
    intro j hj
    rw [← hb (4 * g + j) (by simp only [packetLength]; omega),
      packetBytes_getElem?_body hdr words (4 * g + j) (by omega), packetBody_getElem? hdr words g j hg hj]
  have hlt : g < (hdr :: words).length := by rw [List.length_cons]; omega
  rw [List.getElem?_eq_getElem hlt] at byte ⊢
  have b0 := byte 0 (by omega)
  have b1 := byte 1 (by omega)
  have b2 := byte 2 (by omega)
  have b3 := byte 3 (by omega)
  simp only [Option.map_some, Option.some.injEq, Nat.add_zero] at b0 b1 b2 b3
  rw [State.rxGroup, ← b0, ← b1, ← b2, ← b3, bytesWord_wordByte]

/-- Where `RXBUF` holds a packet, its checksum is right. -/
theorem State.checksumOk_of_packet (s : State) (hdr : Word) (words : List Word)
    (h : s.rxBytes (packetLength words.length) = packetBytes hdr words) :
    s.ChecksumOk (packetLength words.length) := by
  have hb := (State.rxBytes_eq_iff s _ _ (packetBytes_length hdr words)).1 h
  have hlast := hb (4 * words.length + 4) (by simp only [packetLength]; omega)
  rw [packetBytes_getElem?_last] at hlast
  have hbody : s.rxBytes (4 * words.length + 4) = packetBody hdr words := by
    refine (State.rxBytes_eq_iff s _ _ (packetBody_length hdr words)).2 (fun i hi => ?_)
    rw [← packetBytes_getElem?_body hdr words i hi]
    exact hb i (by simp only [packetLength]; omega)
  show xorBytes (s.rxBytes (4 * words.length + 4)) = s.rxByte (4 * words.length + 4)
  rw [hbody]
  exact Option.some.inj hlast

end Sys2Proof.Machine
end

