-- ==== Sys2Proof/Laws/Line.lean ====
section
/-! SUPPORT. The laws of the line code: what one bit does to the lines, the shape and length of a transmit trace, and what legal start and
stop sequences give (spec/40_transport.md rules R62 to R68). -/

namespace Sys2Proof

@[simp] theorem fell_self (p : LineState) : fell p p = .none := by
  rcases p with ⟨_ | _, _ | _⟩ <;> rfl

@[simp] theorem LineState.released_wiredAnd (x : LineState) : LineState.wiredAnd ⟨true, true⟩ x = x := by
  rcases x with ⟨_ | _, _ | _⟩ <;> rfl

@[simp] theorem Line.other_other (l : Line) : l.other.other = l := by cases l <;> rfl

theorem Line.other_ne (l : Line) : l.other ≠ l := by cases l <;> simp [Line.other]

/-- The phases alternate (spec/40_transport.md R62). -/
theorem clockLine_succ (n : Nat) : clockLine (n + 1) = (clockLine n).other := by
  unfold clockLine
  rcases Nat.mod_two_eq_zero_or_one n with h | h
  · rw [if_neg (by omega), if_pos h]; rfl
  · rw [if_pos (by omega), if_neg (by omega)]; rfl

theorem clockLine_even (n : Nat) (h : n % 2 = 0) : clockLine n = .A := by simp [clockLine, h]

/-- The line state a bit leaves: the clock line low, the data line at the bit (spec/40_transport.md R63). -/
def bitEnd (clock : Line) (d : Bool) : LineState := (LineState.s00.set clock.other d)

/-- The last step of a bit is `bitEnd`, whatever the state before (spec/95_test_vectors.md V1). -/
@[simp] theorem bitSteps_getLastD (state : LineState) (clock : Line) (d : Bool) :
    (bitSteps state clock d).getLastD state = bitEnd clock d := by
  rcases state with ⟨_ | _, _ | _⟩ <;> cases clock <;> cases d <;> rfl

@[simp] theorem bitSteps_length (state : LineState) (clock : Line) (d : Bool) :
    (bitSteps state clock d).length = 3 := rfl

@[simp] theorem bitEnd_level_clock (clock : Line) (d : Bool) : (bitEnd clock d).level clock = false := by
  cases clock <;> cases d <;> rfl

/-- A bit's data line starts low, and its only fall is the clock's, in the last step. -/
theorem bitSteps_falls (state : LineState) (clock : Line) (d : Bool) (h : state.level clock.other = false) :
    fallsFrom state (bitSteps state clock d) = [.none, .none, .one clock] := by
  rcases state with ⟨_ | _, _ | _⟩ <;> cases clock <;> cases d <;> first | rfl | cases h

theorem fallsFrom_append (p : LineState) (xs ys : List LineState) :
    fallsFrom p (xs ++ ys) = fallsFrom p xs ++ fallsFrom (xs.getLastD p) ys := by
  induction xs generalizing p with
  | nil => rfl
  | cons x xs ih =>
    simp only [List.cons_append, fallsFrom, ih, List.getLastD_cons]

theorem dataTrace_cons (n : Nat) (state : LineState) (d : Bool) (ds : List Bool) :
    dataTrace n state (d :: ds) = bitSteps state (clockLine n) d ++ dataTrace (n + 1) (bitEnd (clockLine n) d) ds := by
  simp only [dataTrace, bitSteps_getLastD]

theorem dataTrace_length (n : Nat) (state : LineState) (bits : List Bool) :
    (dataTrace n state bits).length = 3 * bits.length := by
  induction bits generalizing n state with
  | nil => rfl
  | cons d ds ih =>
    rw [dataTrace_cons, List.length_append, ih, bitSteps_length, List.length_cons]
    omega

/-- The state the lines are left in after some data bits. -/
def dataEnd (n : Nat) (state : LineState) : List Bool → LineState
  | [] => state
  | d :: ds => dataEnd (n + 1) (bitEnd (clockLine n) d) ds

theorem dataTrace_append (n : Nat) (state : LineState) (xs ys : List Bool) :
    dataTrace n state (xs ++ ys) = dataTrace n state xs ++ dataTrace (n + xs.length) (dataEnd n state xs) ys := by
  induction xs generalizing n state with
  | nil => rfl
  | cons d ds ih =>
    rw [List.cons_append, dataTrace_cons, dataTrace_cons, ih, List.append_assoc, List.length_cons,
      show n + 1 + ds.length = n + (ds.length + 1) by omega]
    rfl

/-- The line that clocks the next bit's phase companion ends low: before every bit the data line is low. -/
theorem dataEnd_level (n : Nat) (state : LineState) (bits : List Bool)
    (h : state.level (clockLine n).other = false) :
    (dataEnd n state bits).level (clockLine (n + bits.length)).other = false := by
  induction bits generalizing n state with
  | nil => exact h
  | cons d ds ih =>
    have := ih (n + 1) (bitEnd (clockLine n) d) (by rw [clockLine_succ, Line.other_other]; simp)
    rw [List.length_cons, show n + (ds.length + 1) = n + 1 + ds.length by omega]
    exact this

theorem byteBits_length (y : Byte) : (byteBits y).length = 8 := by simp [byteBits]

theorem flatMap_byteBits_length (bytes : List Byte) : (bytes.flatMap byteBits).length = 8 * bytes.length := by
  induction bytes with
  | nil => rfl
  | cons y ys ih => rw [List.flatMap_cons, List.length_append, ih, byteBits_length, List.length_cons]; omega

/-- The three states of each bit stand at three successive places, and the data line is low before them (spec/40_transport.md R63, R68). -/
theorem dataTrace_bit (n : Nat) (state : LineState) (bits : List Bool) (j : Nat) (d : Bool) (h : bits[j]? = some d)
    (m : Nat) (hm : m < 3) :
    ∃ p : LineState, (dataTrace n state bits)[3 * j + m]? = (bitSteps p (clockLine (n + j)) d)[m]? ∧
      (state.level (clockLine n).other = false → p.level (clockLine (n + j)).other = false) := by
  induction bits generalizing n state j with
  | nil => cases h
  | cons e es ih =>
    rw [dataTrace_cons, List.getElem?_append]
    cases j with
    | zero =>
      simp only [List.getElem?_cons_zero, Option.some.injEq] at h
      subst h
      exact ⟨state, by rw [if_pos (by simp; omega), Nat.mul_zero, Nat.zero_add, Nat.add_zero], id⟩
    | succ j =>
      rw [List.getElem?_cons_succ] at h
      obtain ⟨p, h1, h2⟩ := ih (n + 1) (bitEnd (clockLine n) e) j h
      rw [show n + (j + 1) = n + 1 + j by omega]
      refine ⟨p, ?_, fun _ => h2 ?_⟩
      · rw [if_neg (by simp; omega), bitSteps_length, show 3 * (j + 1) + m - 3 = 3 * j + m by omega, h1]
      · rw [clockLine_succ, Line.other_other]
        simp

/-- Bit `k` in the order sent of byte `i` is bit `7 - k` of the byte (spec/40_transport.md R61). -/
theorem flatMap_byteBits_getElem? (bytes : List Byte) (i k : Nat) (y : Byte) (h : bytes[i]? = some y) (hk : k < 8) :
    (bytes.flatMap byteBits)[8 * i + k]? = some (y.getLsbD (7 - k)) := by
  induction bytes generalizing i with
  | nil => cases h
  | cons z zs ih =>
    rw [List.flatMap_cons, List.getElem?_append, byteBits_length]
    cases i with
    | zero =>
      simp only [List.getElem?_cons_zero, Option.some.injEq] at h
      subst h
      rw [if_pos (by omega)]
      simp [byteBits, hk]
    | succ i =>
      rw [List.getElem?_cons_succ] at h
      rw [if_neg (by omega), show 8 * (i + 1) + k - 8 = 8 * i + k by omega, ih _ h]

/-- The length of a transmit trace (spec/40_transport.md R68). -/
theorem txTrace_length (P : Params) (bytes : List Byte) :
    (txTrace P bytes).length = P.startSeq.length + 24 * bytes.length + P.stopSeq.length := by
  simp only [txTrace, List.length_append, dataTrace_length, flatMap_byteBits_length]
  omega

/-! ## What legal parameters give -/

/-- The sizes of legal parameters (spec/00_scope.md R6). -/
theorem Params.Wf.sizes {P : Params} (h : P.Wf) :
    1 ≤ P.tStep ∧ 1 ≤ P.sampleBufSize ∧ (5 ≤ P.txbufSize ∧ P.txbufSize ≤ 4095) ∧
      (5 ≤ P.rxbufSize ∧ P.rxbufSize ≤ 4095) ∧ (P.pwSize ≤ 1023 ∧ P.rxbufSize / 4 - 1 ≤ P.pwSize) := by
  simp only [Params.Wf, Params.sizesOk, Bool.and_eq_true, decide_eq_true_eq] at h
  tauto

/-- A legal start sequence (spec/40_transport.md R64). -/
theorem Params.Wf.start {P : Params} (h : P.Wf) :
    P.startSeq ≠ [] ∧ P.startSeq.head? ≠ some .idle ∧ P.startSeq.IsChain (· ≠ ·) ∧
      P.startSeq.getLast? = some .s10 ∧ Fall.both ∉ fallsFrom .idle P.startSeq ∧
      (fallingSteps .idle P.startSeq).getLast? = some (.one .B) := by
  simp only [Params.Wf, startSeqOk, Bool.and_eq_true, decide_eq_true_eq] at h
  tauto

/-- A legal stop sequence (spec/40_transport.md R66), from the two states it can begin in. -/
theorem Params.Wf.stop {P : Params} (h : P.Wf) (p : LineState) (hp : p = .s00 ∨ p = .s10) :
    (fallingSteps p P.stopSeq).head? = some (.one .B) ∧ Fall.both ∉ fallsFrom p P.stopSeq := by
  simp only [Params.Wf, stopSeqOk, stopSeqOkFrom, Bool.and_eq_true, decide_eq_true_eq] at h
  rcases hp with rfl | rfl <;> tauto

/-- The data part of a transmit trace starts from `10` (spec/40_transport.md R64 (b)). -/
theorem Params.Wf.txTrace_eq {P : Params} (h : P.Wf) (bytes : List Byte) :
    txTrace P bytes = P.startSeq ++ dataTrace 0 .s10 (bytes.flatMap byteBits) ++ P.stopSeq := by
  have hs := h.start.2.2.2.1
  rw [txTrace, List.getLastD_eq_getLast?, hs]
  rfl

/-- A trace that begins with the start sequence begins with its first state (spec/40_transport.md R64). -/
theorem Params.Wf.head_append {P : Params} (h : P.Wf) (xs : List LineState) : (P.startSeq ++ xs).head? = P.startSeq.head? := by
  have hne := h.start.1
  cases hs : P.startSeq with
  | nil => exact absurd hs hne
  | cons x rest => rfl

/-- So it does not begin with `IDLE`. -/
theorem Params.Wf.head_ne_idle {P : Params} (h : P.Wf) (xs : List LineState) : (P.startSeq ++ xs).head? ≠ some .idle := by
  rw [h.head_append]
  exact h.start.2.1

/-- Each state of the start sequence is a change, the first one from any state but itself (spec/40_transport.md R64, R71). -/
theorem Params.Wf.start_chain {P : Params} (h : P.Wf) {ref : LineState} (href : P.startSeq.head? ≠ some ref) :
    (ref :: P.startSeq).IsChain (· ≠ ·) := by
  obtain ⟨hne, -, hchain, -⟩ := h.start
  cases hs : P.startSeq with
  | nil => exact absurd hs hne
  | cons x xs =>
    rw [hs] at hchain href
    refine List.IsChain.cons_cons ?_ hchain
    rintro rfl
    simp at href

end Sys2Proof
end

