-- ==== Sys2Proof/Laws/Receiver.lean ====
section
/-! SUPPORT. The laws of the receiver: scanning a list of samples, stutter, the start sequence, one bit, whole bytes, the terminator, and what
the two loops of RECV answer on a list of samples (spec/40_transport.md rules R70 to R78). -/

namespace Sys2Proof.Machine

/-! ## Scanning a list -/

/-- Scan a list of samples none of which stops the scan: the scan's state after it and the bytes completed; `none` if one stops it. -/
def scanAll (st : List LineState) (maxb : Nat) : Scan → List LineState → Option (Scan × List Byte)
  | sc, [] => some (sc, [])
  | sc, x :: xs =>
    match scanStep st maxb x sc with
    | .stop _ => none
    | .go sc' byte =>
      match scanAll st maxb sc' xs with
      | none => none
      | some (sc'', bytes) => some (sc'', byte.toList ++ bytes)

variable {st : List LineState} {maxb : Nat}

theorem scanAll_cons {sc sc' : Scan} {x : LineState} {xs : List LineState} {byte : Option Byte}
    (h : scanStep st maxb x sc = .go sc' byte) :
    scanAll st maxb sc (x :: xs) = (scanAll st maxb sc' xs).map (fun r => (r.1, byte.toList ++ r.2)) := by
  simp only [scanAll, h]
  cases scanAll st maxb sc' xs <;> rfl

theorem scanAll_append {sc sc' : Scan} {xs ys : List LineState} {bytes : List Byte}
    (h : scanAll st maxb sc xs = some (sc', bytes)) :
    scanAll st maxb sc (xs ++ ys) = (scanAll st maxb sc' ys).map (fun r => (r.1, bytes ++ r.2)) := by
  induction xs generalizing sc bytes with
  | nil =>
    simp only [scanAll, Option.some.injEq, Prod.mk.injEq] at h
    obtain ⟨rfl, rfl⟩ := h
    rw [List.nil_append]
    cases scanAll st maxb sc ys <;> rfl
  | cons x xs ih =>
    cases hx : scanStep st maxb x sc with
    | stop v => simp [scanAll, hx] at h
    | go sc1 byte =>
      rw [scanAll_cons hx] at h
      cases hr : scanAll st maxb sc1 xs with
      | none => simp [hr] at h
      | some r =>
        obtain ⟨sc2, b2⟩ := r
        simp only [hr, Option.map_some, Option.some.injEq, Prod.mk.injEq] at h
        obtain ⟨rfl, rfl⟩ := h
        rw [List.cons_append, scanAll_cons hx, ih hr]
        cases scanAll st maxb sc2 ys <;> simp

/-- Two successive scans that both run to their end. -/
theorem scanAll_trans {sc sc' sc'' : Scan} {xs ys : List LineState} {bs cs : List Byte}
    (h : scanAll st maxb sc xs = some (sc', bs)) (h' : scanAll st maxb sc' ys = some (sc'', cs)) :
    scanAll st maxb sc (xs ++ ys) = some (sc'', bs ++ cs) := by
  rw [scanAll_append h, h']
  rfl

/-! ## What one scan step can do -/

/-- A repeated sample does nothing (spec/40_transport.md R71, R72). -/
theorem scanStep_prev (sc : Scan) : scanStep st maxb sc.prev sc = .go sc none := by simp [scanStep]

/-- After a step that does not stop, the sample is the previous line state. -/
theorem scanStep_go_prev {sc sc' : Scan} {x : LineState} {byte : Option Byte}
    (h : scanStep st maxb x sc = .go sc' byte) : sc'.prev = x := by
  unfold scanStep at h
  split at h
  · injection h with h1 h2
    subst h1
    simp_all
  · split at h
    · unfold startStep at h
      split at h
      · injection h with h1 h2
        subst h1
        rfl
      · cases h
    · unfold dataStep at h
      split at h
      · cases h
      · injection h with h1 h2
        subst h1
        rfl
      · split at h
        · split at h <;> cases h
        · split at h
          · cases h
          · injection h with h1 h2
            subst h1
            rfl

/-- A data change in which no line falls only records the new state (spec/40_transport.md R72). -/
theorem scanStep_rise {sc : Scan} {x : LineState} (hm : sc.mode = .data) (hf : fell sc.prev x = .none) :
    scanStep st maxb x sc = .go { sc with prev := x } none := by
  unfold scanStep
  split
  · rename_i h
    subst h
    rfl
  · simp [hm, dataStep, hf]

/-- A change in which one line falls is a change. -/
theorem ne_of_fell_one {p x : LineState} {l : Line} (h : fell p x = .one l) : x ≠ p := by
  rintro rfl
  simp at h

theorem ne_of_fell_both {p x : LineState} (h : fell p x = .both) : x ≠ p := by
  rintro rfl
  simp at h

/-! ## Stutter -/

/-- A sample held for any number of ticks scans like one sample (spec/40_transport.md R75). -/
theorem scanAll_replicate {sc sc' : Scan} {x : LineState} {byte : Option Byte} (n : Nat)
    (h : scanStep st maxb x sc = .go sc' byte) :
    scanAll st maxb sc (List.replicate (n + 1) x) = some (sc', byte.toList) := by
  have hrep : ∀ (m : Nat) (c : Scan), c.prev = x → scanAll st maxb c (List.replicate m x) = some (c, []) := by
    intro m
    induction m with
    | zero => intro c _; rfl
    | succ m ih =>
      intro c hc
      subst hc
      rw [List.replicate_succ, scanAll_cons (scanStep_prev c), ih c rfl]
      rfl
  rw [List.replicate_succ, scanAll_cons h, hrep n sc' (scanStep_go_prev h)]
  simp

/-- A trace each of whose states is held for some ticks. -/
def stretch (held : List (LineState × Nat)) : List LineState := held.flatMap (fun h => List.replicate (h.2 + 1) h.1)

@[simp] theorem stretch_nil : stretch [] = [] := rfl

theorem stretch_cons (h : LineState × Nat) (held : List (LineState × Nat)) :
    stretch (h :: held) = List.replicate (h.2 + 1) h.1 ++ stretch held := by simp [stretch]

theorem stretch_append (xs ys : List (LineState × Nat)) : stretch (xs ++ ys) = stretch xs ++ stretch ys := by
  simp [stretch]

/-- A stretched trace scans like the trace (spec/40_transport.md R75). -/
theorem scanAll_stretch {sc sc' : Scan} {bytes : List Byte} (held : List (LineState × Nat))
    (h : scanAll st maxb sc (held.map Prod.fst) = some (sc', bytes)) :
    scanAll st maxb sc (stretch held) = some (sc', bytes) := by
  induction held generalizing sc bytes with
  | nil => exact h
  | cons y ys ih =>
    obtain ⟨x, n⟩ := y
    rw [stretch_cons]
    simp only [List.map_cons] at h
    cases hx : scanStep st maxb x sc with
    | stop v => simp [scanAll, hx] at h
    | go sc1 byte =>
      rw [scanAll_cons hx] at h
      cases hr : scanAll st maxb sc1 (ys.map Prod.fst) with
      | none => simp [hr] at h
      | some r =>
        obtain ⟨sc2, b2⟩ := r
        simp only [hr, Option.map_some, Option.some.injEq, Prod.mk.injEq] at h
        obtain ⟨rfl, rfl⟩ := h
        exact scanAll_trans (scanAll_replicate n hx) (ih hr)

/-! ## The second loop of RECV on a list of samples -/

/-- The second loop seen between two samples: the budget is tested, and then a sample is taken and scanned. -/
def captureNext (st : List LineState) (maxb : Nat) (latches : LineState) (budget : Nat) (sc : Scan) (p : Peer) :
    Reception :=
  if budget = 0 then ⟨.frameError .unterminated, [], p⟩
  else capture st maxb latches budget (p.sample latches).1 sc (p.sample latches).2

/-- One turn of the second loop. -/
theorem capture_succ (latches : LineState) (budget : Nat) (x : LineState) (sc : Scan) (p : Peer) :
    capture st maxb latches (budget + 1) x sc p =
      match scanStep st maxb x sc with
      | .stop v => ⟨v, [], p⟩
      | .go sc' byte =>
        { captureNext st maxb latches budget sc' p with
          bytes := byte.toList ++ (captureNext st maxb latches budget sc' p).bytes } := by
  rw [capture]
  cases scanStep st maxb x sc with
  | stop v => rfl
  | go sc' byte =>
    simp only [captureNext]
    by_cases hb : budget = 0
    · simp [hb]
    · simp [hb]

/-- With both lines released, the sample is what the peer contributes. -/
theorem captureNext_cons (budget : Nat) (sc : Scan) (x : LineState) (q : List LineState) (n : Nat) :
    captureNext st maxb ⟨true, true⟩ (budget + 1) sc ⟨x :: q, n⟩ =
      capture st maxb ⟨true, true⟩ (budget + 1) x sc ⟨q, n + 1⟩ := by
  simp [captureNext, Peer.sample]

/-- Samples that do not stop the scan use up the budget and hand on the bytes they complete. -/
theorem captureNext_append {sc sc' : Scan} {xs : List LineState} {bytes : List Byte} (budget : Nat)
    (q : List LineState) (n : Nat) (h : scanAll st maxb sc xs = some (sc', bytes)) (hb : xs.length ≤ budget) :
    captureNext st maxb ⟨true, true⟩ budget sc ⟨xs ++ q, n⟩ =
      { captureNext st maxb ⟨true, true⟩ (budget - xs.length) sc' ⟨q, n + xs.length⟩ with
        bytes := bytes ++ (captureNext st maxb ⟨true, true⟩ (budget - xs.length) sc' ⟨q, n + xs.length⟩).bytes } := by
  induction xs generalizing sc bytes budget n with
  | nil =>
    simp only [scanAll, Option.some.injEq, Prod.mk.injEq] at h
    obtain ⟨rfl, rfl⟩ := h
    simp
  | cons x xs ih =>
    obtain ⟨budget, rfl⟩ : ∃ b, budget = b + 1 := ⟨budget - 1, by simp at hb; omega⟩
    cases hx : scanStep st maxb x sc with
    | stop v => simp [scanAll, hx] at h
    | go sc1 byte =>
      rw [scanAll_cons hx] at h
      cases hr : scanAll st maxb sc1 xs with
      | none => simp [hr] at h
      | some r =>
        obtain ⟨sc2, b2⟩ := r
        simp only [hr, Option.map_some, Option.some.injEq, Prod.mk.injEq] at h
        obtain ⟨rfl, rfl⟩ := h
        simp only [List.length_cons] at hb
        rw [List.cons_append, captureNext_cons, capture_succ, hx]
        simp only [ih budget (n + 1) hr (by omega)]
        rw [List.length_cons, show budget + 1 - (xs.length + 1) = budget - xs.length by omega,
          show n + 1 + xs.length = n + (xs.length + 1) by omega]
        simp

/-- The sample that stops the scan ends the loop. -/
theorem captureNext_stop {sc : Scan} {x : LineState} {v : Verdict} (budget : Nat) (q : List LineState) (n : Nat)
    (h : scanStep st maxb x sc = .stop v) (hb : 0 < budget) :
    captureNext st maxb ⟨true, true⟩ budget sc ⟨x :: q, n⟩ = ⟨v, [], ⟨q, n + 1⟩⟩ := by
  obtain ⟨budget, rfl⟩ : ∃ b, budget = b + 1 := ⟨budget - 1, by omega⟩
  rw [captureNext_cons, capture_succ, h]

/-! ## The first loop of RECV on a list of samples -/

/-- Samples equal to the reference are passed over; the first that differs is the initial transition. -/
theorem awaitChange_found (ref x : LineState) (k budget n : Nat) (q : List LineState) (hk : k < budget) (hx : x ≠ ref) :
    awaitChange ⟨true, true⟩ ref budget ⟨List.replicate k ref ++ x :: q, n⟩ = (some x, ⟨q, n + k + 1⟩) := by
  induction k generalizing budget n with
  | zero =>
    obtain ⟨budget, rfl⟩ : ∃ b, budget = b + 1 := ⟨budget - 1, by omega⟩
    simp [awaitChange, Peer.sample, hx]
  | succ k ih =>
    obtain ⟨budget, rfl⟩ : ∃ b, budget = b + 1 := ⟨budget - 1, by omega⟩
    simp only [List.replicate_succ, List.cons_append, awaitChange, Peer.sample, LineState.released_wiredAnd, if_true]
    rw [ih budget (n + 1) (by omega)]
    simp [Nat.add_comm, Nat.add_left_comm]

/-- Samples that all equal the reference use the whole budget up. -/
theorem awaitChange_silent (latches x : LineState) (budget n : Nat) (q : List LineState) :
    awaitChange latches (latches.wiredAnd x) budget ⟨List.replicate budget x ++ q, n⟩ = (none, ⟨q, n + budget⟩) := by
  induction budget generalizing n with
  | zero => rfl
  | succ budget ih =>
    simp only [List.replicate_succ, List.cons_append, awaitChange, Peer.sample, if_true]
    rw [ih (n + 1)]
    simp [Nat.add_comm, Nat.add_left_comm]

/-! ## The start sequence -/

theorem Fall.orElse_none (b : Option Line) : Fall.orElse .none b = b := rfl

/-- The type of the most recent fall after a run of changes. -/
def lastFall (before : Option Line) (falls : List Fall) : Option Line := falls.foldl (fun b f => Fall.orElse f b) before

/-- When no change makes both lines fall, the last change that makes a line fall decides. -/
theorem lastFall_of_getLast (before : Option Line) (falls : List Fall) (l : Line) (hb : Fall.both ∉ falls)
    (h : (falls.filter (fun f => decide (f ≠ .none))).getLast? = some (.one l)) : lastFall before falls = some l := by
  induction falls generalizing before with
  | nil => simp at h
  | cons f fs ih =>
    simp only [List.mem_cons, not_or] at hb
    simp only [lastFall, List.foldl_cons]
    by_cases hfs : fs.filter (fun f => decide (f ≠ .none)) = []
    · have hnone : ∀ b, lastFall b fs = b := by
        intro b
        clear ih h
        induction fs generalizing b with
        | nil => rfl
        | cons g gs ihg =>
          simp only [List.mem_cons, not_or] at hb
          by_cases hg : g = .none
          · subst hg
            simp only [lastFall, List.foldl_cons]
            exact ihg ⟨hb.1, hb.2.2⟩ (by simpa using hfs) b
          · simp [hg] at hfs
      have := hnone (Fall.orElse f before)
      simp only [lastFall] at this
      rw [this]
      by_cases hf : f = .none
      · rw [List.filter_cons, if_neg (by simp [hf]), hfs] at h
        cases h
      · rw [List.filter_cons, if_pos (by simpa using hf), hfs] at h
        cases h
        rfl
    · refine ih _ hb.2 ?_
      by_cases hf : f = .none
      · rwa [List.filter_cons, if_neg (by simp [hf])] at h
      · rw [List.filter_cons, if_pos (by simpa using hf), List.getLast?_cons,
          List.getLast?_eq_some_getLast hfs, Option.getD_some] at h
        rw [List.getLast?_eq_some_getLast hfs, h]

/-- The start sequence is matched state by state (spec/40_transport.md R71). -/
theorem scanAll_start (pre suf : List LineState) (prev : LineState) (pf : Option Line) (hst : st = pre ++ suf)
    (hne : suf ≠ []) (hc : (prev :: suf).IsChain (· ≠ ·)) :
    scanAll st maxb ⟨.start, pre.length, prev, pf, 0, 0⟩ suf =
      some (⟨.data, st.length, suf.getLastD prev, lastFall pf (fallsFrom prev suf), 0, 0⟩, []) := by
  induction suf generalizing pre prev pf with
  | nil => exact absurd rfl hne
  | cons x xs ih =>
    have hx : x ≠ prev := by
      cases hc
      exact Ne.symm ‹_›
    have hc' : (x :: xs).IsChain (· ≠ ·) := by
      cases hc
      assumption
    have hk : st[pre.length]? = some x := by simp [hst]
    have hstep : scanStep st maxb x ⟨.start, pre.length, prev, pf, 0, 0⟩ =
        .go ⟨if pre.length + 1 = st.length then .data else .start, pre.length + 1, x,
          Fall.orElse (fell prev x) pf, 0, 0⟩ none := by
      simp [scanStep, hx, startStep, hk]
    rw [scanAll_cons hstep]
    by_cases hxs : xs = []
    · subst hxs
      have : pre.length + 1 = st.length := by simp [hst]
      simp [this, scanAll, lastFall, fallsFrom]
    · have hlen : pre.length + 1 ≠ st.length := by
        have := List.length_pos_iff.2 hxs
        simp [hst]
        omega
      have := ih (pre ++ [x]) x (Fall.orElse (fell prev x) pf) (by simp [hst]) hxs hc'
      rw [if_neg hlen]
      simp only [List.length_append, List.length_cons, List.length_nil, Nat.zero_add] at this
      rw [this, List.getLastD_cons]
      simp [lastFall, fallsFrom]

/-- Some first states of the start sequence, but not all, leave the scan waiting for the next (spec/40_transport.md R71). -/
theorem scanAll_start_part (pre mid suf : List LineState) (prev : LineState) (pf : Option Line)
    (hst : st = pre ++ (mid ++ suf)) (hsuf : suf ≠ []) (hc : (prev :: mid).IsChain (· ≠ ·)) :
    scanAll st maxb ⟨.start, pre.length, prev, pf, 0, 0⟩ mid =
      some (⟨.start, pre.length + mid.length, mid.getLastD prev, lastFall pf (fallsFrom prev mid), 0, 0⟩, []) := by
  induction mid generalizing pre prev pf with
  | nil => rfl
  | cons x xs ih =>
    have hx : x ≠ prev := by
      cases hc
      exact Ne.symm ‹_›
    have hc' : (x :: xs).IsChain (· ≠ ·) := by
      cases hc
      assumption
    have hk : st[pre.length]? = some x := by simp [hst]
    have hlen : pre.length + 1 ≠ st.length := by
      have := List.length_pos_iff.2 hsuf
      rw [hst]
      simp only [List.length_append, List.length_cons]
      omega
    have hstep : scanStep st maxb x ⟨.start, pre.length, prev, pf, 0, 0⟩ =
        .go ⟨.start, pre.length + 1, x, Fall.orElse (fell prev x) pf, 0, 0⟩ none := by
      simp [scanStep, hx, startStep, hk, hlen]
    have := ih (pre ++ [x]) x (Fall.orElse (fell prev x) pf) (by simp [hst]) hc'
    simp only [List.length_append, List.length_cons, List.length_nil, Nat.zero_add] at this
    rw [scanAll_cons hstep, this, List.getLastD_cons]
    simp [lastFall, fallsFrom, Nat.add_comm, Nat.add_left_comm]

/-- The same from the reference sample, for the first states of a legal start sequence. The reference need not be `IDLE`. -/
theorem scanAll_startSeq_part {P : Params} (h : P.Wf) {ref : LineState} (href : P.startSeq.head? ≠ some ref) (n : Nat)
    (hn : n < P.startSeq.length) :
    ∃ pf, scanAll P.startSeq maxb (Scan.init ref) (P.startSeq.take n) =
      some (⟨.start, n, (P.startSeq.take n).getLastD ref, pf, 0, 0⟩, []) := by
  have hc := (h.start_chain href).take (n + 1)
  rw [List.take_succ_cons] at hc
  have := scanAll_start_part (st := P.startSeq) (maxb := maxb) [] (P.startSeq.take n) (P.startSeq.drop n) ref none
    (by simp) (by simpa using hn) hc
  simp only [List.length_nil, Nat.zero_add, List.length_take, Nat.min_eq_left (Nat.le_of_lt hn)] at this
  exact ⟨_, this⟩

/-- The whole start sequence leads to `Data` mode from any reference but its first state (spec/40_transport.md R71, R74). -/
theorem scanAll_startSeq_from {P : Params} (h : P.Wf) {ref : LineState} (href : P.startSeq.head? ≠ some ref) :
    scanAll P.startSeq maxb (Scan.init ref) P.startSeq =
      some (⟨.data, P.startSeq.length, .s10, lastFall none (fallsFrom ref P.startSeq), 0, 0⟩, []) := by
  have := scanAll_start (st := P.startSeq) (maxb := maxb) [] P.startSeq ref none rfl h.start.1 (h.start_chain href)
  rw [List.getLastD_eq_getLast?, h.start.2.2.2.1] at this
  exact this

/-- The scan's state when `START_SEQ` has been matched from `IDLE` (spec/40_transport.md R71). -/
def Scan.ready (startLength : Nat) : Scan := ⟨.data, startLength, .s10, some .B, 0, 0⟩

theorem scanAll_startSeq {P : Params} (h : P.Wf) :
    scanAll P.startSeq maxb (Scan.init .idle) P.startSeq = some (Scan.ready P.startSeq.length, []) := by
  obtain ⟨-, hhead, -, -, hboth, hfall⟩ := h.start
  rw [scanAll_startSeq_from h hhead, lastFall_of_getLast none _ .B hboth hfall]
  rfl

/-- From a reference other than `IDLE` too the last fall of the start sequence is one of line B, unless the sequence is `10` alone and
the reference is `00`: then no line has fallen (spec/40_transport.md R64, R71; assumption 15). -/
theorem lastFall_startSeq {P : Params} (h : P.Wf) {ref : LineState} (href : P.startSeq.head? ≠ some ref) :
    lastFall none (fallsFrom ref P.startSeq) = if P.startSeq = [.s10] ∧ ref = .s00 then none else some .B := by
  obtain ⟨hne, -, hchain, hlast, hboth, hfall⟩ := h.start
  match hs : P.startSeq with
  | [] => exact absurd hs hne
  | [x] =>
    rw [hs] at hlast href
    simp only [List.getLast?_singleton, Option.some.injEq] at hlast
    subst hlast
    simp only [List.head?_cons, ne_eq, Option.some.injEq] at href
    revert href
    rcases ref with ⟨_ | _, _ | _⟩ <;> decide
  | x :: y :: ys =>
    rw [hs] at hchain hlast hboth hfall
    rw [if_neg (by simp)]
    have hb : Fall.both ∉ fallsFrom x (y :: ys) := fun hm => hboth (List.mem_cons_of_mem _ hm)
    have hl : ((fallsFrom x (y :: ys)).filter (fun f => decide (f ≠ .none))).getLast? = some (.one .B) := by
      by_cases hnil : (fallsFrom x (y :: ys)).filter (fun f => decide (f ≠ .none)) = []
      · exfalso
        rw [fallingSteps, fallsFrom, List.filter_cons, hnil] at hfall
        have hx : fell .idle x = .one .B := by
          split at hfall
          · simpa using hfall
          · simp at hfall
        have hxe : x = .s10 := by
          revert hx
          rcases x with ⟨_ | _, _ | _⟩ <;> decide
        subst hxe
        have hnone : ∀ f ∈ fallsFrom .s10 (y :: ys), f = Fall.none := by
          simpa [List.filter_eq_nil_iff] using hnil
        simp only [fallsFrom, List.mem_cons, forall_eq_or_imp] at hnone
        have hy : y = .s11 := by
          have h1 := hnone.1
          have h2 : LineState.s10 ≠ y := by
            cases hchain
            assumption
          revert h1 h2
          rcases y with ⟨_ | _, _ | _⟩ <;> decide
        subst hy
        match ys, hnone.2, hchain, hlast with
        | [], _, _, hlast => exact absurd hlast (by decide)
        | z :: zs, hz, hchain, _ =>
          have h1 := hz _ (List.mem_cons_self ..)
          have h2 : LineState.s11 ≠ z := by
            rcases hchain with _ | _ | ⟨_, hchain⟩
            cases hchain
            assumption
          revert h1 h2
          rcases z with ⟨_ | _, _ | _⟩ <;> decide
      · rw [fallingSteps, fallsFrom, List.filter_cons] at hfall
        split at hfall
        · rwa [List.getLast?_cons, List.getLast?_eq_some_getLast hnil, Option.getD_some,
            ← List.getLast?_eq_some_getLast hnil] at hfall
        · exact hfall
    exact lastFall_of_getLast (Fall.orElse (fell ref x) none) _ .B hb hl

/-! ## Data bits -/

/-- The scan's state in data mode. -/
def Scan.inData (k : Nat) (prev : LineState) (fall : Line) (nbits : Nat) (acc : Byte) : Scan :=
  ⟨.data, k, prev, some fall, nbits, acc⟩

/-- What the shift register and the byte hand-over make of a run of bits (spec/40_transport.md R73). -/
def packBits : Nat → Byte → List Bool → Byte × List Byte
  | _, acc, [] => (acc, [])
  | n, acc, d :: ds =>
    if (n + 1) % 8 = 0 then
      let r := packBits (n + 1) 0 ds
      (r.1, shiftIn acc d :: r.2)
    else packBits (n + 1) (shiftIn acc d) ds

/-- One bit as the sender drives it is one bit taken (spec/40_transport.md R63, R72). -/
theorem scanAll_bitSteps (k n : Nat) (prev : LineState) (acc : Byte) (clock : Line) (d : Bool)
    (hlow : prev.level clock.other = false) (hn : n ≠ 8 * maxb) :
    scanAll st maxb (Scan.inData k prev clock.other n acc) (bitSteps prev clock d) =
      if (n + 1) % 8 = 0 then
        some (Scan.inData k (bitEnd clock d) clock (n + 1) 0, [shiftIn acc d])
      else some (Scan.inData k (bitEnd clock d) clock (n + 1) (shiftIn acc d), []) := by
  have hfalls := bitSteps_falls prev clock d hlow
  have hend := bitSteps_getLastD prev clock d
  have hlev : (bitEnd clock d).level clock.other = d := by cases clock <;> cases d <;> rfl
  generalize hb : bitSteps prev clock d = steps at hfalls hend
  match steps, hfalls, hend with
  | [], hfalls, _ => cases hfalls
  | [_], hfalls, _ => simp [fallsFrom] at hfalls
  | [_, _], hfalls, _ => simp [fallsFrom] at hfalls
  | _ :: _ :: _ :: _ :: _, hfalls, _ => simp [fallsFrom] at hfalls
  | [x1, x2, x3], hfalls, hend =>
    simp only [fallsFrom, List.cons.injEq, and_true] at hfalls
    obtain ⟨h1, h2, h3⟩ := hfalls
    simp only [List.getLastD_cons, List.getLastD_nil] at hend
    subst hend
    rw [scanAll_cons (scanStep_rise rfl h1), scanAll_cons (scanStep_rise rfl h2)]
    have hne : some clock.other ≠ some clock := fun h => Line.other_ne clock (Option.some.inj h)
    have hstep : scanStep st maxb (bitEnd clock d)
        { ({ Scan.inData k prev clock.other n acc with prev := x1 } : Scan) with prev := x2 } =
        if (n + 1) % 8 = 0 then .go (Scan.inData k (bitEnd clock d) clock (n + 1) 0) (some (shiftIn acc d))
        else .go (Scan.inData k (bitEnd clock d) clock (n + 1) (shiftIn acc d)) none := by
      simp only [scanStep, Scan.inData, ne_of_fell_one h3, if_false, dataStep, h3, hne, hn, takeBit, hlev]
      split <;> rfl
    by_cases h8 : (n + 1) % 8 = 0
    · rw [if_pos h8] at hstep ⊢
      rw [scanAll_cons hstep]
      rfl
    · rw [if_neg h8] at hstep ⊢
      rw [scanAll_cons hstep]
      rfl

/-- A run of bits as the sender drives it (spec/40_transport.md R68, R72, R73). -/
theorem scanAll_dataTrace (k n : Nat) (prev : LineState) (acc : Byte) (bits : List Bool)
    (hlow : prev.level (clockLine n).other = false) (hn : n + bits.length ≤ 8 * maxb) :
    scanAll st maxb (Scan.inData k prev (clockLine n).other n acc) (dataTrace n prev bits) =
      some (Scan.inData k (dataEnd n prev bits) (clockLine (n + bits.length)).other (n + bits.length)
        (packBits n acc bits).1, (packBits n acc bits).2) := by
  induction bits generalizing n prev acc with
  | nil => rfl
  | cons d ds ih =>
    simp only [List.length_cons] at hn
    have hbit := scanAll_bitSteps (st := st) (maxb := maxb) k n prev acc (clockLine n) d hlow (by omega)
    have hlow' : (bitEnd (clockLine n) d).level (clockLine (n + 1)).other = false := by
      rw [clockLine_succ, Line.other_other]
      simp
    have hclock : clockLine n = (clockLine (n + 1)).other := by rw [clockLine_succ, Line.other_other]
    rw [dataTrace_cons, List.length_cons, show n + (ds.length + 1) = n + 1 + ds.length by omega]
    by_cases h8 : (n + 1) % 8 = 0
    · rw [if_pos h8] at hbit
      have hrest := ih (n + 1) (bitEnd (clockLine n) d) 0 hlow' (by omega)
      rw [← hclock] at hrest
      rw [scanAll_trans hbit hrest]
      simp [packBits, h8, dataEnd]
    · rw [if_neg h8] at hbit
      have hrest := ih (n + 1) (bitEnd (clockLine n) d) (shiftIn acc d) hlow' (by omega)
      rw [← hclock] at hrest
      rw [scanAll_trans hbit hrest]
      simp [packBits, h8, dataEnd]

/-- A change in which the line falls whose turn it is takes one bit (spec/40_transport.md R72, R73). -/
theorem scanStep_fall (k n : Nat) (prev x : LineState) (acc : Byte) (l : Line) (hf : fell prev x = .one l)
    (hn : n ≠ 8 * maxb) :
    scanStep st maxb x (Scan.inData k prev l.other n acc) =
      if (n + 1) % 8 = 0 then .go (Scan.inData k x l (n + 1) 0) (some (shiftIn acc (x.level l.other)))
      else .go (Scan.inData k x l (n + 1) (shiftIn acc (x.level l.other))) none := by
  have hne : some l.other ≠ some l := fun h => Line.other_ne l (Option.some.inj h)
  simp only [scanStep, Scan.inData, ne_of_fell_one hf, if_false, dataStep, hf, hne, hn, takeBit]
  by_cases h8 : (n + 1) % 8 = 0 <;> simp [h8]

/-- A trace whose falls are those of the two lines in turn is scanned to its end and gives the bits it carries, whatever rises stand
between (spec/40_transport.md R60, R72). -/
theorem scanAll_carried (k n : Nat) (prev : LineState) (acc : Byte) (trace : List LineState) (bits : List Bool)
    (hfalls : fallingSteps prev trace = (List.range bits.length).map (fun i => Fall.one (clockLine (n + i))))
    (hbits : carriedBits prev trace = bits) (hn : n + bits.length ≤ 8 * maxb) :
    scanAll st maxb (Scan.inData k prev (clockLine n).other n acc) trace =
      some (Scan.inData k (trace.getLastD prev) (clockLine (n + bits.length)).other (n + bits.length)
        (packBits n acc bits).1, (packBits n acc bits).2) := by
  induction trace generalizing n prev acc bits with
  | nil =>
    simp only [carriedBits] at hbits
    subst hbits
    rfl
  | cons x xs ih =>
    rw [List.getLastD_cons]
    cases hf : fell prev x with
    | none =>
      rw [scanAll_cons (scanStep_rise rfl hf)]
      have := ih n x acc bits (by simpa [fallingSteps, fallsFrom, hf] using hfalls)
        (by simpa [carriedBits, hf] using hbits) hn
      rw [show ({ Scan.inData k prev (clockLine n).other n acc with prev := x } : Scan) =
        Scan.inData k x (clockLine n).other n acc from rfl, this]
      rfl
    | both =>
      have hmem : Fall.both ∈ fallingSteps prev (x :: xs) := by simp [fallingSteps, fallsFrom, hf]
      rw [hfalls] at hmem
      simp at hmem
    | one l =>
      simp only [carriedBits, hf] at hbits
      subst hbits
      simp only [List.length_cons] at hfalls hn ⊢
      rw [fallingSteps, fallsFrom, hf, List.filter_cons, if_pos (by simp), List.range_succ_eq_map, List.map_cons,
        List.map_map] at hfalls
      injection hfalls with h1 h2
      injection h1 with h1
      rw [Nat.add_zero] at h1
      have hclock : clockLine n = (clockLine (n + 1)).other := by rw [clockLine_succ, Line.other_other]
      have hrest : fallingSteps x xs =
          (List.range (carriedBits x xs).length).map (fun i => Fall.one (clockLine (n + 1 + i))) := by
        rw [fallingSteps, h2]
        refine List.map_congr_left (fun i _ => ?_)
        simp only [Function.comp_apply, Nat.succ_eq_add_one]
        rw [Nat.add_right_comm, Nat.add_assoc]
      have hstep := scanStep_fall (st := st) (maxb := maxb) k n prev x acc l hf (by omega)
      rw [h1] at hstep
      rw [h1, show n + ((carriedBits x xs).length + 1) = n + 1 + (carriedBits x xs).length by omega]
      by_cases h8 : (n + 1) % 8 = 0
      · rw [if_pos h8] at hstep
        have := ih (n + 1) x 0 _ hrest rfl (by omega)
        rw [← hclock] at this
        rw [scanAll_cons hstep, this]
        simp [packBits, h8]
      · rw [if_neg h8] at hstep
        have := ih (n + 1) x (shiftIn acc (x.level (clockLine n).other)) _ hrest rfl (by omega)
        rw [← hclock] at this
        rw [scanAll_cons hstep, this]
        simp [packBits, h8]

/-- The same from the start of `Data` mode, whatever fell before, as long as it was not line A: the first fall is one of line A. -/
theorem scanAll_carried_from (k : Nat) (prev : LineState) (pf : Option Line) (hpf : pf ≠ some .A) (trace : List LineState)
    (bits : List Bool) (hfalls : fallingSteps prev trace = (List.range bits.length).map (fun i => Fall.one (clockLine i)))
    (hbits : carriedBits prev trace = bits) (hn : bits.length ≤ 8 * maxb) :
    scanAll st maxb ⟨.data, k, prev, pf, 0, 0⟩ trace =
      some (⟨.data, k, trace.getLastD prev, if bits = [] then pf else some (clockLine bits.length).other, bits.length,
        (packBits 0 0 bits).1⟩, (packBits 0 0 bits).2) := by
  induction trace generalizing prev with
  | nil =>
    simp only [carriedBits] at hbits
    subst hbits
    rfl
  | cons x xs ih =>
    rw [List.getLastD_cons]
    cases hf : fell prev x with
    | none =>
      rw [scanAll_cons (scanStep_rise rfl hf)]
      have := ih x (by simpa [fallingSteps, fallsFrom, hf] using hfalls) (by simpa [carriedBits, hf] using hbits)
      simp only [this]
      rfl
    | both =>
      have hmem : Fall.both ∈ fallingSteps prev (x :: xs) := by simp [fallingSteps, fallsFrom, hf]
      rw [hfalls] at hmem
      simp at hmem
    | one l =>
      simp only [carriedBits, hf] at hbits
      subst hbits
      have hl : l = .A := by
        rw [fallingSteps, fallsFrom, hf, List.filter_cons, if_pos (by simp), List.length_cons, List.range_succ_eq_map,
          List.map_cons] at hfalls
        injection hfalls with h1 _
        injection h1
      subst hl
      -- the step is the one the scan makes when line B fell last
      have hsame : scanStep st maxb x ⟨.data, k, prev, pf, 0, 0⟩ = scanStep st maxb x (Scan.inData k prev Line.A.other 0 0) := by
        simp [scanStep, Scan.inData, dataStep, ne_of_fell_one hf, hf, hpf, Line.other, takeBit]
      have := scanAll_carried (st := st) (maxb := maxb) k 0 prev 0 (x :: xs)
        (x.level Line.A.other :: carriedBits x xs) (by simpa using hfalls) (by simp only [carriedBits, hf]) (by simpa using hn)
      rw [if_neg (by simp), scanAll, hsame]
      rw [Nat.zero_add, List.getLastD_cons] at this
      exact this

/-- The start sequence, from any reference but its first state, and then a trace that carries some bits. -/
theorem scanAll_startSeq_carried {P : Params} (h : P.Wf) {ref : LineState} (href : P.startSeq.head? ≠ some ref)
    (trace : List LineState) (bits : List Bool)
    (hfalls : fallingSteps .s10 trace = (List.range bits.length).map (fun i => Fall.one (clockLine i)))
    (hbits : carriedBits .s10 trace = bits) (hn : bits.length ≤ 8 * maxb) :
    scanAll P.startSeq maxb (Scan.init ref) (P.startSeq ++ trace) =
      some (⟨.data, P.startSeq.length, trace.getLastD .s10,
        if bits = [] ∧ P.startSeq = [.s10] ∧ ref = .s00 then none else some (clockLine bits.length).other, bits.length,
        (packBits 0 0 bits).1⟩, (packBits 0 0 bits).2) := by
  have h1 := scanAll_startSeq_from (maxb := maxb) h href
  have h2 := scanAll_carried_from (st := P.startSeq) (maxb := maxb) P.startSeq.length .s10
    (lastFall none (fallsFrom ref P.startSeq)) (by rw [lastFall_startSeq h href]; split <;> simp) trace bits hfalls hbits hn
  rw [scanAll_trans h1 h2, List.nil_append]
  by_cases hb : bits = []
  · subst hb
    simp [lastFall_startSeq h href, clockLine, Line.other]
  · simp [hb]

/-! ## Whole bytes -/

/-- Fewer than eight further bits complete no byte. -/
theorem packBits_short (m : Nat) (acc : Byte) (bits : List Bool) (j : Nat) (h : j + bits.length < 8) :
    (packBits (8 * m + j) acc bits).2 = [] := by
  induction bits generalizing acc j with
  | nil => rfl
  | cons d ds ih =>
    simp only [List.length_cons] at h
    rw [packBits, if_neg (by omega), Nat.add_assoc]
    exact ih _ (j + 1) (by omega)

/-- The eight bits of a byte shifted in give the byte. -/
theorem shiftIn_byteBits (y : Byte) : (byteBits y).foldl shiftIn 0 = y := by
  revert y
  decide

theorem packBits_byte (m : Nat) (y : Byte) (bits : List Bool) :
    packBits (8 * m) 0 (byteBits y ++ bits) =
      ((packBits (8 * (m + 1)) 0 bits).1, y :: (packBits (8 * (m + 1)) 0 bits).2) := by
  have hy := shiftIn_byteBits y
  have hrange : byteBits y = [y.getLsbD 7, y.getLsbD 6, y.getLsbD 5, y.getLsbD 4, y.getLsbD 3, y.getLsbD 2,
      y.getLsbD 1, y.getLsbD 0] := rfl
  rw [hrange] at hy ⊢
  simp only [List.foldl_cons, List.foldl_nil] at hy
  simp only [List.cons_append, List.nil_append]
  iterate 7 rw [packBits, if_neg (by omega)]
  rw [packBits, if_pos (by omega)]
  rw [show 8 * m + 1 + 1 + 1 + 1 + 1 + 1 + 1 + 1 = 8 * (m + 1) by omega]
  simp only [hy]

/-- The bits of some bytes are packed into those bytes (spec/40_transport.md R61, R73). -/
theorem packBits_bytes (m : Nat) (bytes : List Byte) (bits : List Bool) :
    packBits (8 * m) 0 (bytes.flatMap byteBits ++ bits) =
      ((packBits (8 * (m + bytes.length)) 0 bits).1, bytes ++ (packBits (8 * (m + bytes.length)) 0 bits).2) := by
  induction bytes generalizing m with
  | nil => rfl
  | cons y ys ih =>
    rw [List.flatMap_cons, List.append_assoc, packBits_byte, ih, List.length_cons,
      show m + 1 + ys.length = m + (ys.length + 1) by omega]
    rfl

/-- The start sequence, from any reference but its first state, and then a trace that carries the bits of some bytes and up to seven bits
more: the scan has handed over those bytes (spec/40_transport.md R60, R73). -/
theorem scanAll_startSeq_bytes {P : Params} (h : P.Wf) {ref : LineState} (href : P.startSeq.head? ≠ some ref)
    (trace : List LineState) (bytes : List Byte) (extra : List Bool)
    (hfalls : fallingSteps .s10 trace =
      (List.range (bytes.flatMap byteBits ++ extra).length).map (fun i => Fall.one (clockLine i)))
    (hbits : carriedBits .s10 trace = bytes.flatMap byteBits ++ extra) (he : extra.length ≤ 7)
    (hn : 8 * bytes.length + extra.length ≤ 8 * maxb) :
    ∃ (pf : Option Line) (acc : Byte),
      scanAll P.startSeq maxb (Scan.init ref) (P.startSeq ++ trace) =
        some (⟨.data, P.startSeq.length, trace.getLastD .s10, pf, 8 * bytes.length + extra.length, acc⟩, bytes) ∧
      (bytes ≠ [] ∨ extra ≠ [] ∨ P.startSeq ≠ [.s10] ∨ ref ≠ .s00 →
        pf = some (clockLine (8 * bytes.length + extra.length)).other) := by
  have hpack := packBits_bytes 0 bytes extra
  have hshort := packBits_short (0 + bytes.length) 0 extra 0 (by omega)
  simp only [Nat.add_zero, Nat.mul_zero] at hshort hpack
  have hlen : (bytes.flatMap byteBits ++ extra).length = 8 * bytes.length + extra.length := by
    rw [List.length_append, flatMap_byteBits_length]
  have hnil : bytes.flatMap byteBits ++ extra = [] ↔ bytes = [] ∧ extra = [] := by
    rw [← List.length_eq_zero_iff, hlen, ← List.length_eq_zero_iff, ← List.length_eq_zero_iff (l := extra)]
    omega
  have := scanAll_startSeq_carried h href trace _ (maxb := maxb) hfalls hbits (by omega)
  rw [hpack, hshort, List.append_nil, hlen] at this
  refine ⟨_, _, this, fun hne => if_neg ?_⟩
  rw [hnil]
  tauto

/-- The start sequence and then some bits, as the sender drives them (spec/40_transport.md R68). -/
theorem scanAll_startSeq_data {P : Params} (h : P.Wf) (bits : List Bool) (hn : bits.length ≤ 8 * maxb) :
    scanAll P.startSeq maxb (Scan.init .idle) (P.startSeq ++ dataTrace 0 .s10 bits) =
      some (Scan.inData P.startSeq.length (dataEnd 0 .s10 bits) (clockLine bits.length).other bits.length
        (packBits 0 0 bits).1, (packBits 0 0 bits).2) := by
  have h1 := scanAll_startSeq (maxb := maxb) h
  have h2 := scanAll_dataTrace (st := P.startSeq) (maxb := maxb) P.startSeq.length 0 .s10 0 bits rfl (by omega)
  simp only [Nat.zero_add] at h2
  have := scanAll_trans h1 h2
  simpa using this

/-- After an even number of bits line B is low: the state is `00` or `10`. -/
theorem dataEnd_even (bits : List Bool) (h : bits.length % 2 = 0) :
    dataEnd 0 .s10 bits = .s00 ∨ dataEnd 0 .s10 bits = .s10 := by
  have := dataEnd_level 0 .s10 bits rfl
  rw [Nat.zero_add, clockLine_even _ h] at this
  generalize dataEnd 0 .s10 bits = p at this
  rcases p with ⟨_ | _, _ | _⟩ <;> simp [LineState.level, Line.other] at this ⊢

/-! ## The terminator -/

/-- Changes that make no line fall take no bit (spec/40_transport.md R72). -/
theorem scanAll_rises (sc : Scan) (hm : sc.mode = .data) (mids : List LineState)
    (h : ∀ f ∈ fallsFrom sc.prev mids, f = Fall.none) :
    scanAll st maxb sc mids = some ({ sc with prev := mids.getLastD sc.prev }, []) := by
  induction mids generalizing sc with
  | nil => rfl
  | cons x xs ih =>
    simp only [fallsFrom, List.mem_cons, forall_eq_or_imp] at h
    rw [scanAll_cons (scanStep_rise hm h.1), ih { sc with prev := x } hm h.2, List.getLastD_cons]
    rfl

/-- A second fall of the same line ends the packet (spec/40_transport.md R72). -/
theorem scanStep_terminator (k n : Nat) (prev y : LineState) (l : Line) (acc : Byte) (h : fell prev y = .one l) :
    scanStep st maxb y (Scan.inData k prev l n acc) =
      .stop (if n % 8 = 0 then .ok else .frameError .bitCount) := by
  simp only [scanStep, Scan.inData, ne_of_fell_one h, if_false, dataStep, h, if_true]
  by_cases hn : n % 8 = 0 <;> simp [hn]

/-- A trace whose first falling step is a fall of line B alone: changes without a fall, and then that step. -/
theorem split_at_first_fall (p : LineState) (xs : List LineState) (l : Line)
    (h : (fallingSteps p xs).head? = some (.one l)) :
    ∃ mids y rest, xs = mids ++ y :: rest ∧ (∀ f ∈ fallsFrom p mids, f = Fall.none) ∧
      fell (mids.getLastD p) y = .one l := by
  induction xs generalizing p with
  | nil => simp [fallingSteps, fallsFrom] at h
  | cons x xs ih =>
    by_cases hx : fell p x = .none
    · simp only [fallingSteps, fallsFrom, List.filter_cons, hx] at h
      obtain ⟨mids, y, rest, h1, h2, h3⟩ := ih x (by simpa [fallingSteps] using h)
      refine ⟨x :: mids, y, rest, by simp [h1], ?_, by rwa [List.getLastD_cons]⟩
      intro f hf
      simp only [fallsFrom, List.mem_cons] at hf
      rcases hf with rfl | hf
      · exact hx
      · exact h2 f hf
    · refine ⟨[], x, xs, rfl, by simp [fallsFrom], ?_⟩
      simp only [fallingSteps, fallsFrom, List.filter_cons] at h
      rw [if_pos (by simpa using hx)] at h
      simpa using h

/-! ## RECV on a trace the peer sends -/

/-- RECV once the first change is known: what the second loop makes of the samples from there on (spec/40_transport.md R74). -/
theorem receivePacket_of_queue (s : State) (maxb tmo k : Nat) (ref x : LineState) (q : List LineState)
    (hfit : s.RecvFits maxb) (hA : s.drvA = true) (hB : s.drvB = true) (hS : 1 ≤ s.params.sampleBufSize)
    (hq : s.peer.queued = List.replicate (k + 1) ref ++ x :: q) (hk : k + 1 ≤ tmo) (hx : x ≠ ref) :
    receivePacket maxb tmo s =
      s.received (captureNext s.params.startSeq maxb ⟨true, true⟩ s.params.sampleBufSize (Scan.init ref)
        ⟨x :: q, s.peer.taken + 1 + k⟩) := by
  have hlat : s.latches = ⟨true, true⟩ := by rw [State.latches, hA, hB]
  have hsample : s.peer.sample s.latches = (ref, ⟨List.replicate k ref ++ x :: q, s.peer.taken + 1⟩) := by
    rw [Peer.sample, hq, List.replicate_succ, hlat, List.cons_append]
    simp
  obtain ⟨b, hb⟩ : ∃ b, s.params.sampleBufSize = b + 1 := ⟨s.params.sampleBufSize - 1, by omega⟩
  simp only [receivePacket, if_pos hfit, hsample]
  rw [hlat, awaitChange_found ref x k tmo (s.peer.taken + 1) q (by omega) hx, hb, captureNext_cons]

/-- The second loop on samples that leave the scan going and use the budget up. -/
theorem captureNext_spent {sc sc' : Scan} {xs : List LineState} {bytes : List Byte} (q : List LineState) (n : Nat)
    (h : scanAll st maxb sc xs = some (sc', bytes)) :
    captureNext st maxb ⟨true, true⟩ xs.length sc ⟨xs ++ q, n⟩ =
      ⟨.frameError .unterminated, bytes, ⟨q, n + xs.length⟩⟩ := by
  rw [captureNext_append _ _ _ h (le_refl _), Nat.sub_self]
  simp [captureNext]

/-- The second loop on samples that leave the scan going, and then one that stops it within the budget. -/
theorem captureNext_stopped {sc sc' : Scan} {xs : List LineState} {bytes : List Byte} {y : LineState} {v : Verdict}
    (budget : Nat) (q : List LineState) (n : Nat) (h : scanAll st maxb sc xs = some (sc', bytes))
    (hy : scanStep st maxb y sc' = .stop v) (hb : xs.length < budget) :
    captureNext st maxb ⟨true, true⟩ budget sc ⟨xs ++ y :: q, n⟩ = ⟨v, bytes, ⟨q, n + xs.length + 1⟩⟩ := by
  rw [captureNext_append _ _ _ h (by omega), captureNext_stop _ _ _ hy (by omega)]
  simp

/-- RECV on a trace that first differs from the reference sample and leaves the scan going, held long enough to use the capture budget up
(spec/40_transport.md R74, R78). -/
theorem receivePacket_spent {ref : LineState} (s : State) (maxb tmo k : Nat) (held : List (LineState × Nat)) (rest : List LineState)
    (x : LineState) (xs : List LineState) (sc : Scan) (bytes : List Byte)
    (hfit : s.RecvFits maxb) (hA : s.drvA = true) (hB : s.drvB = true) (hS : 1 ≤ s.params.sampleBufSize) (hk : k + 1 ≤ tmo)
    (hq : s.peer.queued = List.replicate (k + 1) ref ++ stretch held ++ rest)
    (hlen : (stretch held).length = s.params.sampleBufSize) (hheld : held.map Prod.fst = x :: xs) (hx : x ≠ ref)
    (hscan : scanAll s.params.startSeq maxb (Scan.init ref) (x :: xs) = some (sc, bytes)) :
    receivePacket maxb tmo s =
      s.received ⟨.frameError .unterminated, bytes, ⟨rest, s.peer.taken + 1 + k + s.params.sampleBufSize⟩⟩ := by
  have hspent := captureNext_spent rest (s.peer.taken + 1 + k) (scanAll_stretch held (hheld ▸ hscan))
  obtain ⟨⟨x', n⟩, tail, rfl, rfl, -⟩ := List.map_eq_cons_iff.1 hheld
  have hst : stretch ((x', n) :: tail) = x' :: (List.replicate n x' ++ stretch tail) := by
    rw [stretch_cons, List.replicate_succ]
    rfl
  rw [hlen, hst, List.cons_append] at hspent
  rw [receivePacket_of_queue s maxb tmo k ref x' _ hfit hA hB hS (by rw [hq, hst, List.append_assoc, List.cons_append]) hk hx,
    hspent]

/-- RECV on a trace that first differs from the reference sample, in which the scan runs through `pre` and stops at `y` (spec/40_transport.md R74). The
peer holds each state for one tick or more. -/
theorem receivePacket_of_trace {ref : LineState} (s : State) (maxb tmo k : Nat) (pre post : List LineState) (y : LineState)
    (held : List (LineState × Nat)) (rest : List LineState) (sc : Scan) (bytes : List Byte) (v : Verdict)
    (hfit : s.RecvFits maxb) (hA : s.drvA = true) (hB : s.drvB = true)
    (hheld : held.map Prod.fst = pre ++ y :: post)
    (hq : s.peer.queued = List.replicate (k + 1) ref ++ stretch held ++ rest)
    (hk : k + 1 ≤ tmo) (hb : (stretch held).length ≤ s.params.sampleBufSize)
    (hfirst : (pre ++ y :: post).head? ≠ some ref)
    (hpre : scanAll s.params.startSeq maxb (Scan.init ref) pre = some (sc, bytes))
    (hstop : scanStep s.params.startSeq maxb y sc = .stop v) :
    ∃ p, receivePacket maxb tmo s = s.received ⟨v, bytes, p⟩ := by
  obtain ⟨h1, h2, rfl, e1, e2⟩ := List.map_eq_append_iff.1 hheld
  obtain ⟨⟨y', ny⟩, h3, rfl, e3, e4⟩ := List.map_eq_cons_iff.1 e2
  simp only at e3
  subst e3
  -- the whole stretched trace as one list that begins with a state other than the reference
  have hst : stretch (h1 ++ (y', ny) :: h3) =
      stretch h1 ++ (y' :: (List.replicate ny y' ++ stretch h3)) := by
    rw [stretch_append, stretch_cons, List.replicate_succ]
    rfl
  rw [hst] at hq hb
  have hlen : (stretch h1).length + 1 ≤ s.params.sampleBufSize := by
    simp only [List.length_append, List.length_cons] at hb
    omega
  have hcap : ∀ n, captureNext s.params.startSeq maxb ⟨true, true⟩ s.params.sampleBufSize (Scan.init ref)
      ⟨stretch h1 ++ (y' :: (List.replicate ny y' ++ stretch h3) ++ rest), n⟩ =
      ⟨v, bytes, ⟨List.replicate ny y' ++ stretch h3 ++ rest, n + (stretch h1).length + 1⟩⟩ := fun n =>
    captureNext_stopped _ _ _ (scanAll_stretch h1 (e1 ▸ hpre)) hstop (by omega)
  -- the first sample after the reference
  obtain ⟨x, q, hxq, hx⟩ : ∃ x q, stretch h1 ++ (y' :: (List.replicate ny y' ++ stretch h3) ++ rest) = x :: q ∧
      x ≠ ref := by
    cases h1 with
    | nil =>
      simp only [List.map_nil] at e1
      subst e1
      refine ⟨y', _, by simp [stretch]; rfl, fun h => hfirst (by simp [h])⟩
    | cons a h1 =>
      simp only [List.map_cons] at e1
      subst e1
      refine ⟨a.1, _, by rw [stretch_cons, List.replicate_succ]; simp; rfl, fun h => hfirst (by simp [h])⟩
  rw [receivePacket_of_queue s maxb tmo k ref x q hfit hA hB (by omega) (by rw [hq, ← hxq]; simp) hk hx, ← hxq, hcap]
  exact ⟨_, rfl⟩

end Sys2Proof.Machine
end

