-- ==== Sys2Proof/Laws/Ops.lean ====
section
/-! SUPPORT. What each shared operation can do, said once: the operations of the codec and of the transport, the commands and the step. -/

namespace Sys2Proof.Machine

/-! ## Driving -/

/-- Driving a trace and then ending the operation: the trace is recorded, its ticks are counted, and nothing else changes but what
the end of an operation writes. -/
theorem State.driveAll_finish (s : State) (trace : List LineState) (c : Code) (d : BitVec 4) :
    (s.driveAll trace).finish c d =
      { s with
        status := statusBits c d, drvA := true, drvB := true
        outputs := s.outputs ++ trace.map Output.drove
        driveTicks := s.driveTicks + s.params.tStep * trace.length } := by
  induction trace generalizing s with
  | nil => simp [State.driveAll, State.finish]
  | cons l rest ih =>
    rw [State.driveAll, ih]
    simp only [State.drive, List.append_assoc, List.map_cons, List.singleton_append, List.length_cons,
      Nat.mul_succ, Nat.add_assoc]
    rw [Nat.add_comm s.params.tStep]

/-! ## SEND -/

/-- SEND with a length that fits (spec/40_transport.md R69). -/
theorem sendPacket_fits (s : State) (h : s.SendFits) :
    sendPacket s =
      { s with
        status := statusBits .ok 0, drvA := true, drvB := true
        outputs := s.outputs ++ (txTrace s.params (s.txBytes s.txlen.toNat)).map Output.drove
        driveTicks := s.driveTicks +
          s.params.tStep * (s.params.startSeq.length + 24 * s.txlen.toNat + s.params.stopSeq.length) } := by
  rw [sendPacket, if_pos h, State.driveAll_finish, txTrace_length, State.txBytes_length]

/-- SEND with a length that does not fit. -/
theorem sendPacket_rejects (s : State) (h : ¬ s.SendFits) : sendPacket s = s.finish .operandError 0 := if_neg h

/-! ## ENCF -/

/-- ENCF with a payload that fits (spec/41_frame_codec.md R95). -/
theorem encodeFrame_fits (s : State) (h : s.EncodeFits) :
    encodeFrame s =
      { s with
        txbuf := s.txbuf.storeAll 0 (packetBytes s.hdr (s.pwWords s.payloadCount))
        txlen := BitVec.ofNat 12 (packetLength s.payloadCount) }.finish .ok 0 := if_pos h

/-- ENCF with a payload that does not fit. -/
theorem encodeFrame_rejects (s : State) (h : ¬ s.EncodeFits) : encodeFrame s = s.finish .operandError 0 := if_neg h

theorem State.payloadCount_lt (s : State) : s.payloadCount < 256 := (s.hdr.extractLsb' 0 8).isLt

/-- The length of a packet fits `TXLEN` without wrap (spec/43_operation_laws.md R112). -/
theorem encodeFrame_txlen (s : State) (h : s.EncodeFits) : (encodeFrame s).txlen.toNat = packetLength s.payloadCount := by
  have := s.payloadCount_lt
  rw [encodeFrame_fits s h]
  simp only [State.finish_txlen, BitVec.toNat_ofNat, packetLength]
  omega

/-- What ENCF leaves in `TXBUF`. -/
theorem encodeFrame_txByte (s : State) (h : s.EncodeFits) (i : Nat) :
    (encodeFrame s).txByte i = ((packetBytes s.hdr (s.pwWords s.payloadCount))[i]?).getD (s.txByte i) := by
  rw [encodeFrame_fits s h]
  exact State.txByte_storeAll s _ i

/-- The packet ENCF leaves in `TXBUF`, as a list. -/
theorem encodeFrame_txBytes (s : State) (h : s.EncodeFits) :
    (encodeFrame s).txBytes (packetLength s.payloadCount) = packetBytes s.hdr (s.pwWords s.payloadCount) := by
  apply List.ext_getElem?
  intro i
  have hlen := packetBytes_length s.hdr (s.pwWords s.payloadCount)
  rw [State.pwWords_length] at hlen
  by_cases hi : i < packetLength s.payloadCount
  · simp only [State.txBytes, List.getElem?_map, List.getElem?_range hi, Option.map_some, encodeFrame_txByte s h,
      List.getElem?_eq_getElem (hlen ▸ hi), Option.getD_some]
  · rw [List.getElem?_eq_none (by simpa [State.txBytes] using hi), List.getElem?_eq_none (by omega)]

/-! ## DECF -/

/-- DECF ends in one of these ways (spec/41_frame_codec.md R96, R97): it delivers some whole groups and reports Ok, or it changes nothing but
the status. -/
theorem decodeFrame_cases (s : State) :
    (∃ g, 1 ≤ g ∧ 4 * g ≤ s.rxlen.toNat ∧ s.DecodeFits ∧ decodeFrame s = (s.deliver g).finish .ok 0) ∨
    decodeFrame s = s.finish .lengthError 0 ∨
    (¬ s.Relaxed ∧ decodeFrame s = s.finish .checksumError 0) ∨
    (¬ s.DecodeFits ∧ decodeFrame s = s.finish .operandError 0) := by
  by_cases hfit : s.DecodeFits
  · by_cases hrel : s.Relaxed
    · by_cases hg : relaxedGroups s.rxlen.toNat < 1
      · exact .inr (.inl (by rw [decodeFrame, if_pos hfit, if_pos hrel, decodeRelaxed, if_pos hg]))
      · refine .inl ⟨relaxedGroups s.rxlen.toNat, by omega, by simp only [relaxedGroups]; omega, hfit, ?_⟩
        rw [decodeFrame, if_pos hfit, if_pos hrel, decodeRelaxed, if_neg hg]
    · by_cases hlen : StrictLength s.rxlen.toNat
      · by_cases hsum : s.ChecksumOk s.rxlen.toNat
        · refine .inl ⟨strictGroups s.rxlen.toNat, ?_, ?_, hfit, ?_⟩
          · have := hlen.1
            simp only [strictGroups]
            omega
          · simp only [strictGroups]
            omega
          · rw [decodeFrame, if_pos hfit, if_neg hrel, decodeStrict, if_pos hlen, if_pos hsum]
        · exact .inr (.inr (.inl ⟨hrel, by
            rw [decodeFrame, if_pos hfit, if_neg hrel, decodeStrict, if_pos hlen, if_neg hsum]⟩))
      · exact .inr (.inl (by rw [decodeFrame, if_pos hfit, if_neg hrel, decodeStrict, if_neg hlen]))
  · exact .inr (.inr (.inr ⟨hfit, by rw [decodeFrame, if_neg hfit]⟩))

/-! ## RECV -/

theorem Peer.sample_taken (p : Peer) (l : LineState) : (p.sample l).2.taken = p.taken + 1 := by
  unfold Peer.sample
  split <;> rfl

theorem Peer.sample_queued (p : Peer) (l : LineState) : (p.sample l).2.queued = p.queued.drop 1 := by
  unfold Peer.sample
  split <;> simp_all

/-- A peer reached from another by taking samples. -/
def Peer.Later (p q : Peer) (n : Nat) : Prop := q.taken = p.taken + n ∧ q.queued = p.queued.drop n

theorem Peer.later_sample (p : Peer) (l : LineState) : p.Later (p.sample l).2 1 :=
  ⟨p.sample_taken l, p.sample_queued l⟩

theorem Peer.Later.trans {p q r : Peer} {m n : Nat} (h : p.Later q m) (h' : q.Later r n) : p.Later r (m + n) := by
  refine ⟨by rw [h'.1, h.1, Nat.add_assoc], ?_⟩
  rw [h'.2, h.2, List.drop_drop]

theorem awaitChange_later (l ref : LineState) (budget : Nat) (p : Peer) :
    ∃ n, n ≤ budget ∧ p.Later (awaitChange l ref budget p).2 n ∧
      ((awaitChange l ref budget p).1 ≠ none → 1 ≤ n) := by
  induction budget generalizing p with
  | zero => exact ⟨0, le_refl 0, ⟨rfl, by simp [awaitChange]⟩, fun h => absurd rfl h⟩
  | succ budget ih =>
    simp only [awaitChange]
    split
    · obtain ⟨n, hn, hl, _⟩ := ih (p.sample l).2
      refine ⟨1 + n, by omega, (p.later_sample l).trans hl, fun _ => by omega⟩
    · exact ⟨1, by omega, p.later_sample l, fun _ => le_refl 1⟩

/-- The second loop takes fewer samples than its budget, completes at most the bytes there is room for, and completes exactly that many
when it overflows (spec/40_transport.md R72, R73, R74). -/
theorem capture_bounds (st : List LineState) (maxb : Nat) (l : LineState) (budget : Nat) (x : LineState) (sc : Scan)
    (p : Peer) :
    (∃ n, n ≤ budget - 1 ∧ p.Later (capture st maxb l budget x sc p).peer n) ∧
    (sc.nbits ≤ 8 * maxb →
      sc.nbits / 8 + (capture st maxb l budget x sc p).bytes.length ≤ maxb ∧
      ((capture st maxb l budget x sc p).verdict = .overflow →
        sc.nbits / 8 + (capture st maxb l budget x sc p).bytes.length = maxb)) ∧
    ((capture st maxb l budget x sc p).verdict = .frameError .startMismatch →
      (capture st maxb l budget x sc p).bytes = []) ∧
    (sc.mode = .data → (capture st maxb l budget x sc p).verdict ≠ .frameError .startMismatch) := by
  induction budget generalizing x sc p with
  | zero =>
    refine ⟨⟨0, by omega, rfl, by simp [capture]⟩, fun h => ⟨by simp [capture]; omega, by simp [capture]⟩,
      by simp [capture], by simp [capture]⟩
  | succ budget ih =>
    rw [capture_succ]
    cases hstep : scanStep st maxb x sc with
    | stop v =>
      refine ⟨⟨0, by omega, rfl, by simp⟩, fun h => ⟨by simp; omega, ?_⟩, by simp, ?_⟩
      · rintro rfl
        unfold scanStep at hstep
        split at hstep
        · cases hstep
        · split at hstep
          · unfold startStep at hstep
            split at hstep <;> cases hstep
          · unfold dataStep at hstep
            split at hstep
            · cases hstep
            · cases hstep
            · split at hstep
              · split at hstep <;> cases hstep
              · split at hstep
                · rename_i hn
                  simp [hn]
                · cases hstep
      · rintro hm rfl
        unfold scanStep at hstep
        split at hstep
        · cases hstep
        · rw [hm] at hstep
          simp only [dataStep] at hstep
          split at hstep
          · cases hstep
          · cases hstep
          · split at hstep
            · split at hstep <;> cases hstep
            · split at hstep <;> cases hstep
    | go sc' byte =>
      -- what a step that goes on does to the bit count and the mode
      have hgo : (sc.mode = .data → sc'.mode = .data) ∧ (byte = none ∨ sc'.mode = .data) ∧
          (sc.nbits ≤ 8 * maxb → sc'.nbits ≤ 8 * maxb ∧ sc'.nbits / 8 = sc.nbits / 8 + byte.toList.length) := by
        unfold scanStep at hstep
        split at hstep
        · injection hstep with h1 h2
          subst h1 h2
          exact ⟨id, .inl rfl, fun h => ⟨h, rfl⟩⟩
        · split at hstep
          · rename_i hm
            unfold startStep at hstep
            split at hstep
            · injection hstep with h1 h2
              subst h1 h2
              exact ⟨by simp [hm], .inl rfl, fun h => ⟨h, rfl⟩⟩
            · cases hstep
          · rename_i hm
            unfold dataStep at hstep
            split at hstep
            · cases hstep
            · injection hstep with h1 h2
              subst h1 h2
              exact ⟨fun _ => hm, .inl rfl, fun h => ⟨h, rfl⟩⟩
            · split at hstep
              · split at hstep <;> cases hstep
              · split at hstep
                · cases hstep
                · rename_i hne
                  injection hstep with h1 h2
                  subst h1 h2
                  unfold takeBit
                  by_cases h8 : (sc.nbits + 1) % 8 = 0
                  · simp only [h8, if_true]
                    refine ⟨fun _ => hm, .inr hm, fun h => ⟨by omega, by simp; omega⟩⟩
                  · simp only [h8, if_false]
                    refine ⟨fun _ => hm, .inr hm, fun h => ⟨by omega, by simp; omega⟩⟩
      obtain ⟨hmode, hbyte, hbits⟩ := hgo
      simp only [captureNext]
      by_cases hb : budget = 0
      · subst hb
        refine ⟨⟨0, by omega, rfl, by simp⟩, fun h => ?_, by simp, by simp⟩
        have := hbits h
        refine ⟨?_, by simp⟩
        simp only [if_true, List.append_nil]
        omega
      · rw [if_neg hb]
        obtain ⟨⟨n, hn, hl⟩, i2, i3, i4⟩ := ih (p.sample l).1 sc' (p.sample l).2
        refine ⟨⟨1 + n, by omega, (p.later_sample l).trans hl⟩, fun h => ?_, fun h => ?_, fun h => i4 (hmode h)⟩
        · have hc := hbits h
          have hr := i2 hc.1
          refine ⟨?_, fun hv => ?_⟩
          · simp only [List.length_append]
            omega
          · have := hr.2 hv
            simp only [List.length_append]
            omega
        · rcases hbyte with rfl | hd
          · simpa using i3 h
          · exact absurd h (i4 hd)

/-- RECV ends in one of these ways (spec/40_transport.md R74): OperandError, Timeout, or the end of a capture. -/
theorem receivePacket_cases (s : State) (maxb tmo : Nat) :
    (¬ s.RecvFits maxb ∧ receivePacket maxb tmo s = s.finish .operandError 0) ∨
    (s.RecvFits maxb ∧ ∃ (p : Peer) (n : Nat), n ≤ tmo ∧ s.peer.Later p (1 + n) ∧
      receivePacket maxb tmo s = { s with rxlen := 0, peer := p }.finish .timeout 0) ∨
    (s.RecvFits maxb ∧ ∃ (r : Reception) (n : Nat), n ≤ tmo + (s.params.sampleBufSize - 1) ∧ s.peer.Later r.peer (1 + n) ∧
      r.bytes.length ≤ maxb ∧ (r.verdict = .overflow → r.bytes.length = maxb) ∧
      (r.verdict = .frameError .startMismatch → r.bytes = []) ∧
      receivePacket maxb tmo s = s.received r) := by
  by_cases hfit : s.RecvFits maxb
  · refine .inr ?_
    obtain ⟨n, hn, hl, _⟩ := awaitChange_later s.latches (s.peer.sample s.latches).1 tmo (s.peer.sample s.latches).2
    cases hc : (awaitChange s.latches (s.peer.sample s.latches).1 tmo (s.peer.sample s.latches).2).1 with
    | none =>
      refine .inl ⟨hfit, _, n, hn, (s.peer.later_sample s.latches).trans hl, ?_⟩
      simp only [receivePacket, if_pos hfit, hc]
    | some x =>
      refine .inr ⟨hfit, ?_⟩
      obtain ⟨⟨m, hm, hl'⟩, hbytes, hmis, _⟩ := capture_bounds s.params.startSeq maxb s.latches
        s.params.sampleBufSize x (Scan.init (s.peer.sample s.latches).1)
        (awaitChange s.latches (s.peer.sample s.latches).1 tmo (s.peer.sample s.latches).2).2
      have hb := hbytes (Nat.zero_le _)
      simp only [Scan.init, Nat.zero_div, Nat.zero_add] at hb
      refine ⟨_, n + m, by omega, ?_, hb.1, hb.2, hmis, by simp only [receivePacket, if_pos hfit, hc]; rfl⟩
      have := ((s.peer.later_sample s.latches).trans hl).trans hl'
      rwa [Nat.add_assoc] at this
  · exact .inl ⟨hfit, by rw [receivePacket, if_neg hfit]⟩

/-! ## Operations, commands and steps -/

/-- The state an operation ends in (spec/43_operation_laws.md R116: every operation is total). -/
def result : Instr → State → State
  | .send => sendPacket
  | .recv maxb tmo => receivePacket maxb tmo
  | .encf => encodeFrame
  | .decf => decodeFrame
  | .txf => thenIfOk encodeFrame sendPacket
  | .rxf maxb tmo => thenIfOk (receivePacket maxb tmo) decodeFrame

/-- Every operation ends in a next state. -/
theorem exec_eq (i : Instr) (s : State) : exec i s = .next (result i s) := by cases i <;> rfl

theorem exec_next_iff (i : Instr) (s t : State) : exec i s = .next t ↔ t = result i s := by
  rw [exec_eq]
  constructor
  · intro h
    injection h with h
    exact h.symm
  · rintro rfl
    rfl

/-- A property that every operation's first-half results and second-half results have, the chained operations have too. -/
theorem thenIfOk_cases (f g : State → State) (s : State) :
    ((f s).code = 0x00 ∧ thenIfOk f g s = g (f s)) ∨ ((f s).code ≠ 0x00 ∧ thenIfOk f g s = f s) := by
  by_cases h : (f s).code = 0x00
  · exact .inl ⟨h, if_pos h⟩
  · exact .inr ⟨h, if_neg h⟩

/-- The state a command word leaves. -/
def commandResult (w : Word) (s : State) : State :=
  match decode w with
  | .ok i => result i s
  | .error _ => s.finish .illegalOp 0

theorem runCommand_eq (w : Word) (s : State) : runCommand w s = .next (commandResult w s) := by
  simp only [runCommand, commandResult]
  cases decode w with
  | ok i => exact exec_eq i s
  | error e => rfl

theorem locate_eq_op_iff (P : Params) (a : Nat) : locate P a = .op ↔ a = 0 := by
  unfold locate
  constructor
  · intro h
    split at h
    · split at h <;> first | rfl | cases h
    · split at h
      · split at h <;> cases h
      · split at h <;> split at h <;> cases h
  · rintro rfl
    rfl

theorem State.locationAt_zero (s : State) : s.locationAt 0 = .op := rfl

theorem State.locationAt_ne (s : State) (addr : BitVec 14) (h : addr ≠ 0) : s.locationAt addr ≠ .op := by
  intro hc
  have := (locate_eq_op_iff _ _).1 hc
  refine h (BitVec.eq_of_toNat_eq ?_)
  simpa using this

/-- What one event does, case by case: the inversion of `servePort`. -/
theorem servePort_eq (e : PortEvent) (s : State) :
    servePort e s = .next (match e with
      | .read addr => s.emit (.readData (memRead addr s))
      | .write addr v =>
        if addr = 0 then (commandResult v s).emit .writeAck else (memWrite addr v s).emit .writeAck
      | .reset => s.restart
      | .resetDuring w ticks => abandon s (commandResult w s) ticks) := by
  cases e with
  | read addr => rfl
  | write addr v =>
    by_cases h : addr = 0
    · subst h
      simp only [servePort, State.locationAt_zero, runCommand_eq, onNext, if_true]
    · simp only [servePort, if_neg h]
      have := s.locationAt_ne addr h
      cases hl : s.locationAt addr <;> first | rfl | exact absurd hl this
  | reset => rfl
  | resetDuring w ticks => simp only [servePort, runCommand_eq, onNext]

/-- What a step can do: nothing, or one event with its result (spec/10_state.md R18, spec/43_operation_laws.md R117). -/
theorem step_cases {s t : State} (h : step s = .next t) :
    (s.pending = [] ∧ t = s) ∨
    (∃ addr rest, s.pending = .read addr :: rest ∧
      t = ({ s with pending := rest } : State).emit (.readData (memRead addr { s with pending := rest }))) ∨
    (∃ w rest, s.pending = .write 0 w :: rest ∧ t = (commandResult w { s with pending := rest }).emit .writeAck) ∨
    (∃ addr v rest, addr ≠ 0 ∧ s.pending = .write addr v :: rest ∧
      t = (memWrite addr v { s with pending := rest }).emit .writeAck) ∨
    (∃ rest, s.pending = .reset :: rest ∧ t = ({ s with pending := rest } : State).restart) ∨
    (∃ w ticks rest, s.pending = .resetDuring w ticks :: rest ∧
      t = abandon { s with pending := rest } (commandResult w { s with pending := rest }) ticks) := by
  unfold step stepPort at h
  cases hp : s.pending with
  | nil =>
    rw [hp] at h
    injection h with h
    exact .inl ⟨rfl, h.symm⟩
  | cons e rest =>
    rw [hp] at h
    simp only [servePort_eq] at h
    injection h with h
    subst h
    cases e with
    | read addr => exact .inr (.inl ⟨addr, rest, rfl, rfl⟩)
    | write addr v =>
      by_cases ha : addr = 0
      · subst ha
        exact .inr (.inr (.inl ⟨v, rest, rfl, rfl⟩))
      · exact .inr (.inr (.inr (.inl ⟨addr, v, rest, ha, rfl, if_neg ha⟩)))
    | reset => exact .inr (.inr (.inr (.inr (.inl ⟨rest, rfl, rfl⟩))))
    | resetDuring w ticks => exact .inr (.inr (.inr (.inr (.inr ⟨w, ticks, rest, rfl, rfl⟩))))

/-- A step that has an event to serve. -/
theorem step_event (s : State) (e : PortEvent) (rest : List PortEvent) (h : s.pending = e :: rest) :
    step s = servePort e { s with pending := rest } := by
  unfold step stepPort
  rw [h]

/-- The step of a quiet port. -/
theorem step_quiet (s : State) (h : s.pending = []) : step s = .next s := by
  unfold step stepPort
  rw [h]

/-- The step of a host read (spec/20_memory.md R31). -/
theorem step_read (s : State) (addr : BitVec 14) (rest : List PortEvent) (h : s.pending = .read addr :: rest) :
    step s = .next (({ s with pending := rest } : State).emit (.readData (memRead addr { s with pending := rest }))) := by
  rw [step_event s _ _ h, servePort_eq]

/-- The step of a command word (spec/10_state.md R18). -/
theorem step_command (s : State) (w : Word) (rest : List PortEvent) (h : s.pending = .write 0 w :: rest) :
    step s = .next ((commandResult w { s with pending := rest }).emit .writeAck) := by
  rw [step_event s _ _ h, servePort_eq]
  rfl

/-- The step of a host write that is no command (spec/20_memory.md R31). -/
theorem step_write (s : State) (addr : BitVec 14) (v : Word) (rest : List PortEvent) (h0 : addr ≠ 0)
    (h : s.pending = .write addr v :: rest) :
    step s = .next ((memWrite addr v { s with pending := rest }).emit .writeAck) := by
  rw [step_event s _ _ h, servePort_eq]
  simp only [if_neg h0]

/-- The step of a reset between accesses (spec/70_reset_and_hazards.md R140). -/
theorem step_reset (s : State) (rest : List PortEvent) (h : s.pending = .reset :: rest) :
    step s = .next ({ s with pending := rest } : State).restart := by
  rw [step_event s _ _ h, servePort_eq]

/-- The step of a command that a reset cuts short (spec/70_reset_and_hazards.md R140). -/
theorem step_resetDuring (s : State) (w : Word) (ticks : Nat) (rest : List PortEvent)
    (h : s.pending = .resetDuring w ticks :: rest) :
    step s = .next (abandon { s with pending := rest } (commandResult w { s with pending := rest }) ticks) := by
  rw [step_event s _ _ h, servePort_eq]

end Sys2Proof.Machine
end

