-- ==== Sys2Proof/Laws/Frames.lean ====
section
/-! SUPPORT. The frame of each operation, the status each can leave, and what DECF does with a packet that stands in `RXBUF`: the
lemmas the statements about whole operations are put together from. -/

namespace Sys2Proof.Machine

/-! ## Frames -/

/-- SEND writes `STATUS` and the latches, and drives (spec/40_transport.md R69). -/
theorem sendPacket_frame (s : State) :
    sendPacket s =
      { s with
        status := (sendPacket s).status, drvA := true, drvB := true
        outputs := (sendPacket s).outputs, driveTicks := (sendPacket s).driveTicks } := by
  by_cases h : s.SendFits
  · rw [sendPacket_fits s h]
  · rw [sendPacket_rejects s h]
    rfl

/-- ENCF writes `STATUS`, `TXLEN` and `TXBUF` (spec/41_frame_codec.md R95). -/
theorem encodeFrame_frame (s : State) :
    encodeFrame s =
      { s with
        status := (encodeFrame s).status, drvA := true, drvB := true
        txlen := (encodeFrame s).txlen, txbuf := (encodeFrame s).txbuf } := by
  by_cases h : s.EncodeFits
  · rw [encodeFrame_fits s h]
    rfl
  · rw [encodeFrame_rejects s h]
    rfl

/-- DECF writes `STATUS`, `HDR`, `NWORDS` and `PW` (spec/41_frame_codec.md R96, R97). -/
theorem decodeFrame_frame (s : State) :
    decodeFrame s =
      { s with
        status := (decodeFrame s).status, drvA := true, drvB := true
        hdr := (decodeFrame s).hdr, nwords := (decodeFrame s).nwords, pw := (decodeFrame s).pw } := by
  rcases decodeFrame_cases s with ⟨g, _, _, _, he⟩ | he | ⟨_, he⟩ | ⟨_, he⟩ <;> rw [he] <;> rfl

/-- RECV writes `STATUS`, `RXLEN` and `RXBUF`, and takes samples (spec/40_transport.md R74). -/
theorem receivePacket_frame (s : State) (maxb tmo : Nat) :
    receivePacket maxb tmo s =
      { s with
        status := (receivePacket maxb tmo s).status, drvA := true, drvB := true
        rxlen := (receivePacket maxb tmo s).rxlen, rxbuf := (receivePacket maxb tmo s).rxbuf
        peer := (receivePacket maxb tmo s).peer } := by
  rcases receivePacket_cases s maxb tmo with ⟨_, he⟩ | ⟨_, p, n, _, _, he⟩ | ⟨_, r, n, _, _, _, _, _, he⟩ <;>
    rw [he] <;> rfl

/-! ## Statuses -/

/-- The code field of a status word (spec/10_state.md R13). -/
theorem State.code_of_status (s : State) (c : Code) (d : BitVec 4) (h : s.status = statusBits c d) : s.code = c.bits := by
  rw [State.code, h]
  clear h s
  revert d
  cases c <;> decide

/-- The detail field of a status word (spec/10_state.md R13). -/
theorem State.detail_of_status (s : State) (c : Code) (d : BitVec 4) (h : s.status = statusBits c d) : s.detail = d := by
  rw [State.detail, h]
  clear h s
  revert d
  cases c <;> decide

/-- Distinct results have distinct codes (spec/60_exceptions.md R120). -/
theorem Code.bits_injective (c d : Code) (h : c.bits = d.bits) : c = d := by
  revert h
  cases c <;> cases d <;> decide

/-- The two ways SEND ends. -/
theorem sendPacket_status (s : State) :
    (sendPacket s).status = statusBits .ok 0 ∨ (sendPacket s).status = statusBits .operandError 0 := by
  by_cases h : s.SendFits
  · exact .inl (by rw [sendPacket_fits s h])
  · exact .inr (by rw [sendPacket_rejects s h]; rfl)

/-- The two ways ENCF ends. -/
theorem encodeFrame_status (s : State) :
    (s.EncodeFits ∧ (encodeFrame s).status = statusBits .ok 0) ∨
    (¬ s.EncodeFits ∧ (encodeFrame s).status = statusBits .operandError 0) := by
  by_cases h : s.EncodeFits
  · exact .inl ⟨h, by rw [encodeFrame_fits s h]; rfl⟩
  · exact .inr ⟨h, by rw [encodeFrame_rejects s h]; rfl⟩

/-- The four ways DECF ends. -/
theorem decodeFrame_status (s : State) :
    (decodeFrame s).status = statusBits .ok 0 ∨ (decodeFrame s).status = statusBits .lengthError 0 ∨
    (¬ s.Relaxed ∧ (decodeFrame s).status = statusBits .checksumError 0) ∨
    (¬ s.DecodeFits ∧ (decodeFrame s).status = statusBits .operandError 0) := by
  rcases decodeFrame_cases s with ⟨g, _, _, _, he⟩ | he | ⟨h, he⟩ | ⟨h, he⟩
  · exact .inl (by rw [he]; rfl)
  · exact .inr (.inl (by rw [he]; rfl))
  · exact .inr (.inr (.inl ⟨h, by rw [he]; rfl⟩))
  · exact .inr (.inr (.inr ⟨h, by rw [he]; rfl⟩))

/-- The ways RECV ends. -/
theorem receivePacket_status (s : State) (maxb tmo : Nat) :
    (receivePacket maxb tmo s).status = statusBits .operandError 0 ∨
    (receivePacket maxb tmo s).status = statusBits .timeout 0 ∨
    ∃ v : Verdict, (receivePacket maxb tmo s).status = statusBits v.code v.detail := by
  rcases receivePacket_cases s maxb tmo with ⟨_, he⟩ | ⟨_, p, n, _, _, he⟩ | ⟨_, r, n, _, _, _, _, _, he⟩
  · exact .inl (by rw [he]; rfl)
  · exact .inr (.inl (by rw [he]; rfl))
  · exact .inr (.inr ⟨r.verdict, by rw [he]; rfl⟩)

/-- A reception that is not refused takes at least one sample, and the samples it takes are the next ones (spec/40_transport.md R74). -/
theorem receivePacket_peer (s : State) (maxb tmo : Nat) (h : s.RecvFits maxb) :
    s.peer.taken < (receivePacket maxb tmo s).peer.taken ∧
    (receivePacket maxb tmo s).peer.queued =
      s.peer.queued.drop ((receivePacket maxb tmo s).peer.taken - s.peer.taken) := by
  rcases receivePacket_cases s maxb tmo with ⟨hf, _⟩ | ⟨_, p, n, _, hl, he⟩ | ⟨_, r, n, _, hl, _, _, _, he⟩
  · exact absurd h hf
  all_goals
    rw [he]
    simp [hl.1, hl.2]

/-- After RECV reports Ok, DECF accepts its operand (spec/42_transactions.md R111). -/
theorem receivePacket_ok_decodeFits (s : State) (maxb tmo : Nat) (hwf : s.params.Wf)
    (h : (receivePacket maxb tmo s).code = 0x00) : (receivePacket maxb tmo s).DecodeFits := by
  obtain ⟨_, _, _, ⟨_, hR⟩, _⟩ := hwf.sizes
  rcases receivePacket_cases s maxb tmo with ⟨_, he⟩ | ⟨_, p, n, _, _, he⟩ | ⟨hf, r, n, _, _, hb, _, _, he⟩
  · rw [he, State.code_of_status _ .operandError 0 rfl] at h
    exact absurd h (by decide)
  · rw [he, State.code_of_status _ .timeout 0 rfl] at h
    exact absurd h (by decide)
  · rw [he]
    have hf' : maxb ≤ s.params.rxbufSize := hf
    show (BitVec.ofNat 12 r.bytes.length).toNat ≤ s.params.rxbufSize
    simp only [BitVec.toNat_ofNat]
    omega

/-! ## What an operation drives -/

/-- `t` is what was seen of `s`, and then of the line states `trace` driven one after another, each for `T_STEP` ticks. -/
def State.Drove (s t : State) (trace : List LineState) : Prop :=
  t.outputs = s.outputs ++ trace.map Output.drove ∧ t.driveTicks = s.driveTicks + s.params.tStep * trace.length

theorem sendPacket_drove (s : State) : ∃ trace, s.Drove (sendPacket s) trace := by
  by_cases h : s.SendFits
  · refine ⟨txTrace s.params (s.txBytes s.txlen.toNat), ?_⟩
    rw [sendPacket_fits s h, State.Drove, txTrace_length]
    exact ⟨rfl, by simp [State.txBytes]⟩
  · exact ⟨[], by rw [sendPacket_rejects s h]; simp [State.Drove]⟩

/-- Every operation drives some line states, each for `T_STEP` ticks, and shows nothing else (spec/00_scope.md R9). -/
theorem result_drove (i : Instr) (s : State) : ∃ trace, s.Drove (result i s) trace := by
  cases i with
  | send => exact sendPacket_drove s
  | recv maxb tmo => exact ⟨[], by simp only [result]; rw [receivePacket_frame]; simp [State.Drove]⟩
  | encf => exact ⟨[], by simp only [result]; rw [encodeFrame_frame]; simp [State.Drove]⟩
  | decf => exact ⟨[], by simp only [result]; rw [decodeFrame_frame]; simp [State.Drove]⟩
  | txf =>
    simp only [result]
    rcases thenIfOk_cases encodeFrame sendPacket s with ⟨_, e⟩ | ⟨_, e⟩ <;> rw [e]
    · obtain ⟨trace, h1, h2⟩ := sendPacket_drove (encodeFrame s)
      refine ⟨trace, ?_, ?_⟩
      · rw [h1, encodeFrame_frame s]
      · rw [h2, encodeFrame_frame s]
    · exact ⟨[], by rw [encodeFrame_frame]; simp [State.Drove]⟩
  | rxf maxb tmo =>
    simp only [result]
    rcases thenIfOk_cases (receivePacket maxb tmo) decodeFrame s with ⟨_, e⟩ | ⟨_, e⟩ <;> rw [e]
    · exact ⟨[], by rw [decodeFrame_frame, receivePacket_frame]; simp [State.Drove]⟩
    · exact ⟨[], by rw [receivePacket_frame]; simp [State.Drove]⟩

/-- So does every command word; an illegal one drives nothing (spec/30_encoding.md R53). -/
theorem commandResult_drove (w : Word) (s : State) : ∃ trace, s.Drove (commandResult w s) trace := by
  unfold commandResult
  split
  · exact result_drove _ s
  · exact ⟨[], by simp [State.Drove]⟩

/-! ## Packets -/

/-- The length of `PW[0 .. n-1]` of a packet is a legal number of groups. -/
theorem strictGroups_packetLength (n : Nat) : strictGroups (packetLength n) = n + 1 := by
  simp only [strictGroups, packetLength]
  omega

/-- Strict DECF of a packet that stands in `RXBUF` with its length in `RXLEN` delivers the header and the words
and leaves the rest of `PW` (spec/41_frame_codec.md R96). -/
theorem decodeFrame_of_packet (u : State) (hdr : Word) (words : List Word) (hwf : u.params.Wf) (hf : u.DecodeFits)
    (hr : ¬ u.Relaxed) (hl : u.rxlen.toNat = packetLength words.length)
    (hb : u.rxBytes (packetLength words.length) = packetBytes hdr words) :
    (decodeFrame u).status = statusBits .ok 0 ∧ (decodeFrame u).hdr = hdr ∧
      (decodeFrame u).nwords.toNat = words.length ∧ (decodeFrame u).pwWords words.length = words ∧
      ∀ i, words.length ≤ i → (decodeFrame u).pwWord i = u.pwWord i := by
  obtain ⟨_, _, _, ⟨_, hR⟩, _⟩ := hwf.sizes
  have hg := State.rxGroup_of_packet u hdr words hb
  have hle : u.rxlen.toNat ≤ u.params.rxbufSize := hf
  have hG := strictGroups_packetLength words.length
  have h0 := hg 0 (by omega)
  simp only [List.getElem?_cons_zero, Option.some.injEq] at h0
  rw [decodeFrame, if_pos hf, if_neg hr, decodeStrict, hl, if_pos (by simp [StrictLength, packetLength]),
    if_pos (State.checksumOk_of_packet u hdr words hb)]
  refine ⟨rfl, by simp [h0], ?_, ?_, fun i hi => ?_⟩
  · simp only [State.finish_nwords, State.deliver_nwords, hG, Nat.add_sub_cancel, BitVec.toNat_ofNat]
    simp only [packetLength] at hl
    omega
  · refine (State.pwWords_eq_iff _ _ _ rfl).2 (fun i hi => ?_)
    rw [State.finish_pwWord, State.deliver_pwWord, if_pos (by omega), ← hg (i + 1) (by omega)]
    rfl
  · rw [State.finish_pwWord, State.deliver_pwWord, if_neg (by omega)]

end Sys2Proof.Machine
end

