-- ==== Sys2Proof/Laws/HostPort.lean ====
section
/-! SUPPORT. Where each location of the host address map stands, and which location stands at an address (spec/20_memory.md R32, R33). -/

namespace Sys2Proof.Machine

theorem locate_txbuf (P : Params) (i : Nat) (hP : P.txbufSize ≤ 4095) (hi : i < P.txbufSize) :
    locate P (0x1000 + 4 * i) = .txbuf i := by
  unfold locate
  rw [if_neg (by omega), if_pos (by omega), Nat.add_sub_cancel_left, Nat.mul_div_cancel_left i (by omega), if_pos hi]

theorem locate_rxbuf (P : Params) (i : Nat) (hP : P.rxbufSize ≤ 4095) (hi : i < P.rxbufSize) :
    locate P (0x5000 + 4 * i) = .rxbuf i := by
  unfold locate
  rw [if_neg (by omega), if_neg (by omega), if_pos (by omega), Nat.add_sub_cancel_left,
    Nat.mul_div_cancel_left i (by omega), if_pos hi]

theorem locate_pw (P : Params) (i : Nat) (hi : i < P.pwSize) : locate P (0x9000 + 4 * i) = .pw i := by
  unfold locate
  rw [if_neg (by omega), if_neg (by omega), if_neg (by omega), Nat.add_sub_cancel_left,
    Nat.mul_div_cancel_left i (by omega), if_pos hi]

/-- The address map read backwards: the address and the bounds that each location stands for. -/
theorem locate_inv (P : Params) (a : Nat) (h4 : a % 4 = 0) :
    (locate P a = .op ∧ a = 0x0000) ∨ (locate P a = .status ∧ a = 0x0004) ∨ (locate P a = .ctrl ∧ a = 0x0008) ∨
    (locate P a = .hdr ∧ a = 0x000C) ∨ (locate P a = .nwords ∧ a = 0x0010) ∨ (locate P a = .txlen ∧ a = 0x0014) ∨
    (locate P a = .rxlen ∧ a = 0x0018) ∨
    (∃ i, locate P a = .txbuf i ∧ i < P.txbufSize ∧ i < 0x1000 ∧ a = 0x1000 + 4 * i) ∨
    (∃ i, locate P a = .rxbuf i ∧ i < P.rxbufSize ∧ i < 0x1000 ∧ a = 0x5000 + 4 * i) ∨
    (∃ i, locate P a = .pw i ∧ i < P.pwSize ∧ a = 0x9000 + 4 * i) ∨
    (locate P a = .reserved ∧ 0x0018 < a ∧ (a < 0x1000 ∨ 0x5000 ≤ a ∨ 0x1000 + 4 * P.txbufSize ≤ a) ∧
      (a < 0x5000 ∨ 0x9000 ≤ a ∨ 0x5000 + 4 * P.rxbufSize ≤ a) ∧ (a < 0x9000 ∨ 0x9000 + 4 * P.pwSize ≤ a)) := by
  by_cases h1 : a < 0x1000
  · rcases (by omega : a = 0 ∨ a = 4 ∨ a = 8 ∨ a = 12 ∨ a = 16 ∨ a = 20 ∨ a = 24 ∨ 24 < a) with
      rfl | rfl | rfl | rfl | rfl | rfl | rfl | h
    · exact .inl ⟨rfl, rfl⟩
    · exact .inr (.inl ⟨rfl, rfl⟩)
    · exact .inr (.inr (.inl ⟨rfl, rfl⟩))
    · exact .inr (.inr (.inr (.inl ⟨rfl, rfl⟩)))
    · exact .inr (.inr (.inr (.inr (.inl ⟨rfl, rfl⟩))))
    · exact .inr (.inr (.inr (.inr (.inr (.inl ⟨rfl, rfl⟩)))))
    · exact .inr (.inr (.inr (.inr (.inr (.inr (.inl ⟨rfl, rfl⟩))))))
    · refine .inr (.inr (.inr (.inr (.inr (.inr (.inr (.inr (.inr (.inr ⟨?_, h, by omega, by omega, by omega⟩)))))))))
      unfold locate
      rw [if_pos h1]
      split <;> first | rfl | omega
  · by_cases h2 : a < 0x5000
    · by_cases hs : (a - 0x1000) / 4 < P.txbufSize
      · refine .inr (.inr (.inr (.inr (.inr (.inr (.inr (.inl ⟨(a - 0x1000) / 4, ?_, hs, by omega, by omega⟩)))))))
        unfold locate
        rw [if_neg h1, if_pos h2, if_pos hs]
      · refine .inr (.inr (.inr (.inr (.inr (.inr (.inr (.inr (.inr (.inr
          ⟨?_, by omega, by omega, by omega, by omega⟩)))))))))
        unfold locate
        rw [if_neg h1, if_pos h2, if_neg hs]
    · by_cases h3 : a < 0x9000
      · by_cases hs : (a - 0x5000) / 4 < P.rxbufSize
        · refine .inr (.inr (.inr (.inr (.inr (.inr (.inr (.inr (.inl
            ⟨(a - 0x5000) / 4, ?_, hs, by omega, by omega⟩))))))))
          unfold locate
          rw [if_neg h1, if_neg h2, if_pos h3, if_pos hs]
        · refine .inr (.inr (.inr (.inr (.inr (.inr (.inr (.inr (.inr (.inr
            ⟨?_, by omega, by omega, by omega, by omega⟩)))))))))
          unfold locate
          rw [if_neg h1, if_neg h2, if_pos h3, if_neg hs]
      · by_cases hs : (a - 0x9000) / 4 < P.pwSize
        · refine .inr (.inr (.inr (.inr (.inr (.inr (.inr (.inr (.inr (.inl
            ⟨(a - 0x9000) / 4, ?_, hs, by omega⟩)))))))))
          unfold locate
          rw [if_neg h1, if_neg h2, if_neg h3, if_pos hs]
        · refine .inr (.inr (.inr (.inr (.inr (.inr (.inr (.inr (.inr (.inr
            ⟨?_, by omega, by omega, by omega, by omega⟩)))))))))
          unfold locate
          rw [if_neg h1, if_neg h2, if_neg h3, if_neg hs]

/-- A host write keeps the canonical form of the buffers. -/
theorem State.writeLocation_buffers (s : State) (addr : BitVec 14) (v : Word)
    (h : s.txbuf.wf s.params.txbufSize ∧ s.rxbuf.wf s.params.rxbufSize ∧ s.pw.wf s.params.pwSize) :
    (memWrite addr v s).txbuf.wf s.params.txbufSize ∧ (memWrite addr v s).rxbuf.wf s.params.rxbufSize ∧
      (memWrite addr v s).pw.wf s.params.pwSize := by
  obtain ⟨ht, hr, hp⟩ := h
  unfold memWrite State.locationAt
  rcases locate_inv s.params (4 * addr.toNat) (by omega) with
    ⟨hl, _⟩ | ⟨hl, _⟩ | ⟨hl, _⟩ | ⟨hl, _⟩ | ⟨hl, _⟩ | ⟨hl, _⟩ | ⟨hl, _⟩ | ⟨i, hl, hi, _⟩ | ⟨i, hl, hi, _⟩ |
    ⟨i, hl, hi, _⟩ | ⟨hl, _⟩ <;> rw [hl]
  all_goals first
    | exact ⟨ht, hr, hp⟩
    | exact ⟨Memory.store_wf _ _ _ _ ht hi, hr, hp⟩
    | exact ⟨ht, Memory.store_wf _ _ _ _ hr hi, hp⟩
    | exact ⟨ht, hr, Memory.store_wf _ _ _ _ hp hi⟩

/-! ## One element written -/

theorem State.txByte_store (s : State) (i k : Nat) (v : Byte) :
    ({ s with txbuf := s.txbuf.store i v } : State).txByte k = if k = i then v else s.txByte k := by
  simp only [State.txByte]
  split
  · rename_i h
    simp [h]
  · rename_i h
    rw [Memory.find_store_other _ _ _ _ h]

theorem State.rxByte_store (s : State) (i k : Nat) (v : Byte) :
    ({ s with rxbuf := s.rxbuf.store i v } : State).rxByte k = if k = i then v else s.rxByte k := by
  simp only [State.rxByte]
  split
  · rename_i h
    simp [h]
  · rename_i h
    rw [Memory.find_store_other _ _ _ _ h]

theorem State.pwWord_store (s : State) (i k : Nat) (v : Word) :
    ({ s with pw := s.pw.store i v } : State).pwWord k = if k = i then v else s.pwWord k := by
  simp only [State.pwWord]
  split
  · rename_i h
    simp [h]
  · rename_i h
    rw [Memory.find_store_other _ _ _ _ h]

/-- Writing an element takes no value away from another. -/
theorem Memory.find_store_none {w : Nat} (m : Memory w) (i k : Nat) (v : BitVec w) (h : (m.store i v).find k = none) :
    m.find k = none := by
  by_cases hk : k = i
  · rw [hk, Memory.find_store_same] at h
    cases h
  · rwa [Memory.find_store_other _ _ _ _ hk] at h

theorem Memory.find_storeAll_none {w : Nat} (vs : List (BitVec w)) (m : Memory w) (base k : Nat)
    (h : (m.storeAll base vs).find k = none) : m.find k = none := by
  induction vs generalizing m base with
  | nil => exact h
  | cons v vs ih => exact Memory.find_store_none _ _ _ _ (ih _ _ h)

/-! ## The used bits of a written value -/

theorem usedBit_eq_and (v : Word) : (v.extractLsb' 0 1).zeroExtend 32 = v &&& 0x00000001 := by
  ext i hi
  interval_cases i <;> simp

theorem usedByte_eq_and (v : Word) : (v.extractLsb' 0 8).zeroExtend 32 = v &&& 0x000000FF := by
  ext i hi
  interval_cases i <;> simp

theorem usedLength_eq_and (v : Word) : (v.extractLsb' 0 12).zeroExtend 32 = v &&& 0x00000FFF := by
  ext i hi
  interval_cases i <;> simp

theorem allBits_and (v : Word) : v &&& 0xFFFFFFFF = v := by
  ext i hi
  interval_cases i <;> simp

end Sys2Proof.Machine
end

