-- ==== Sys2Proof/Laws/PerInstr.lean ====
section
/-! SUPPORT. Statements about every operation as syntax, one lemma per constructor (LAWS.json names the family). -/

namespace Sys2Proof.Laws.EncodingRow

/-- The command word of a well-formed operation lies in the operation's row of the opcode table (spec/30_encoding.md R53). -/
def Statement (i : Instr) : Prop := i.WellFormed → encode i &&& i.rowMask = i.rowMatch

theorem send : Statement .send := fun _ => by decide

theorem recv (maxb tmo : Nat) : Statement (.recv maxb tmo) := fun _ => by
  simp only [encode, Instr.opc, Instr.maxbBits, Instr.tmoBits, Instr.rowMask, Instr.rowMatch]
  generalize BitVec.ofNat 12 maxb = m
  generalize BitVec.ofNat 16 tmo = t
  ext i hi
  simp only [BitVec.getElem_and, BitVec.getElem_append]
  interval_cases i <;> simp

theorem encf : Statement .encf := fun _ => by decide

theorem decf : Statement .decf := fun _ => by decide

theorem txf : Statement .txf := fun _ => by decide

theorem rxf (maxb tmo : Nat) : Statement (.rxf maxb tmo) := fun _ => by
  simp only [encode, Instr.opc, Instr.maxbBits, Instr.tmoBits, Instr.rowMask, Instr.rowMatch]
  generalize BitVec.ofNat 12 maxb = m
  generalize BitVec.ofNat 16 tmo = t
  ext i hi
  simp only [BitVec.getElem_and, BitVec.getElem_append]
  interval_cases i <;> simp

end Sys2Proof.Laws.EncodingRow
end

