-- ==== Sys2Proof/Tests/Slice0.lean ====
section
/-! SUPPORT. The model's own tests. Expected values come from the spec: the command words and vectors of spec/95_test_vectors.md (cited by
their names E, V, H) and hand calculation from its rules. The second half gives, for each statement with hypotheses, a named
witness that meets them. -/

set_option maxRecDepth 100000

namespace Sys2Proof.Tests

open Sys2Proof Sys2Proof.Machine Sys2Proof.Claims

/-! ## Helpers -/

/-- The state of a next outcome. -/
def after : Host.Outcome State Fault Refusal → State
  | .next s => s
  | .fault _ => State.reset
  | .refused _ => State.reset

/-- The state right after reset, with the peer about to show the given samples. -/
def onBus (samples : List LineState) : State := { State.reset with peer := ⟨samples, 0⟩ }

/-- The state right after reset, with `RXBUF[0 .. ]`, `RXLEN` and `CTRL` as given. -/
def holding (relaxed : BitVec 1) (bytes : List Byte) : State :=
  { State.reset with
    ctrl := relaxed, rxlen := BitVec.ofNat 12 bytes.length, rxbuf := Memory.storeAll [] 0 bytes }

/-- The state right after reset with an event at the port. -/
def withEvent (e : PortEvent) : State := { State.reset with pending := [e] }

/-- `IDLE` for `n` ticks. -/
def idles (n : Nat) : List LineState := List.replicate n .idle

/-- Parameters of vector V25. -/
def smallParams : Params := { Params.reference with txbufSize := 64, rxbufSize := 64, pwSize := 15 }

/-- The trace of vector V2, as the spec prints it. -/
def traceA5 : List LineState :=
  List.flatten
    [[.s01, .s00, .s01, .s00, .s01, .s00, .s01, .s00, .s01, .s11, .s10],
     [.s10, .s11, .s01], [.s01, .s01, .s00], [.s10, .s11, .s01], [.s01, .s01, .s00],
     [.s10, .s10, .s00], [.s01, .s11, .s10], [.s10, .s10, .s00], [.s01, .s11, .s10],
     [.s10, .s11, .s10, .s00, .s10, .s00, .s10, .s11]]

/-- The trace of vector V16b: the start sequence, twelve bits, the stop sequence. -/
def traceTwelveBits : List LineState :=
  List.flatten
    [[.s01, .s00, .s01, .s00, .s01, .s00, .s01, .s00, .s01, .s11, .s10],
     [.s10, .s11, .s01, .s01, .s11, .s10, .s10, .s10, .s00, .s01, .s01, .s00],
     [.s10, .s10, .s00, .s01, .s01, .s00, .s10, .s11, .s01, .s01, .s11, .s10],
     [.s10, .s10, .s00, .s01, .s11, .s10, .s10, .s10, .s00, .s01, .s11, .s10],
     [.s10, .s11, .s10, .s00, .s10, .s00, .s10, .s11]]

/-- The packet of vectors V21 and V31. -/
def packet9 : List Byte := [0x01, 0x00, 0x20, 0x09, 0x01, 0x00, 0x00, 0x00, 0x29]

/-! ## Well-formedness: each check refuses an ill-formed term -/

theorem test_wf_recv_maxb : ¬ (Instr.recv 4096 0).WellFormed := by decide
theorem test_wf_recv_tmo : ¬ (Instr.recv 0 65536).WellFormed := by decide
theorem test_wf_rxf_maxb : ¬ (Instr.rxf 4096 0).WellFormed := by decide
theorem test_wf_rxf_tmo : ¬ (Instr.rxf 0 65536).WellFormed := by decide
theorem test_wf_largest : (Instr.recv 4095 65535).WellFormed ∧ (Instr.rxf 4095 65535).WellFormed := by decide

/-! ## Command words, written out bit by bit as `opc :: maxb :: tmo` (spec/30_encoding.md R46, R47; vectors E1 to E18) -/

theorem test_decode_send : decode 0b0001_000000000000_0000000000000000 = .ok .send := by decide
theorem test_decode_recv : decode 0b0010_000000001001_0000001111101000 = .ok (.recv 9 1000) := by decide
theorem test_decode_encf : decode 0b0011_000000000000_0000000000000000 = .ok .encf := by decide
theorem test_decode_decf : decode 0b0100_000000000000_0000000000000000 = .ok .decf := by decide
theorem test_decode_txf : decode 0b0101_000000000000_0000000000000000 = .ok .txf := by decide
theorem test_decode_rxf : decode 0b0110_010000000001_0000000111110100 = .ok (.rxf 1025 500) := by decide
theorem test_decode_e4 : decode 0x2FFFFFFF = .ok (.recv 4095 65535) := by decide
theorem test_decode_e12 : decode 0xFFFFFFFF = .error .reservedOpcode := by decide
theorem test_decode_e15 : decode 0x30010000 = .error .reservedField := by decide
theorem test_encode_e8 : encode (.rxf 9 1000) = 0x600903E8 := by decide
theorem test_decodeTableWord : decodeTableWord 32 0x200903E8 = some (.recv 9 1000) ∧
    decodeTableWord 32 0x10000001 = none ∧ decodeTableWord 64 0x100000000 = none := by decide

/-! ## The line code (vectors V1, V2, V3) -/

theorem test_bitSteps_phase1_one : bitSteps .s00 .A true = [.s10, .s11, .s01] := by decide
theorem test_bitSteps_phase2_zero : bitSteps .s01 .B false = [.s01, .s01, .s00] := by decide
theorem test_txTrace_a5 : txTrace Params.reference [0xA5] = traceA5 := by decide
theorem test_txTrace_length : (txTrace Params.reference (List.replicate 9 0x00)).length = 235 := by decide

/-! ## The operations -/

/-- V2. -/
theorem test_send_a5 :
    let t := after (exec .send { State.reset with txlen := 1, txbuf := [(0, 0xA5)] })
    t.outputs = traceA5.map Output.drove ∧ t.driveTicks = 43 ∧ t.status = 0x000 ∧ t.drvA ∧ t.drvB := by decide

/-- V7. -/
theorem test_send_operand :
    let t := after (exec .send { State.reset with txlen := 1026 })
    t.outputs = [] ∧ t.status = 0x0F9 ∧ t.txlen = 1026 := by decide

/-- V10: 43 ticks, the last five states of the peer's stop sequence unsampled. -/
theorem test_recv_a5 :
    let t := after (exec (.recv 4 100) (onBus (idles 5 ++ traceA5)))
    t.status = 0x000 ∧ t.rxlen = 1 ∧ t.rxbuf = [(0, 0xA5)] ∧ t.peer.taken = 43 ∧ t.peer.queued.length = 5 := by decide

/-- V16b: the terminator after 12 bits keeps the whole byte. -/
theorem test_recv_bitCount :
    let t := after (exec (.recv 4 100) (onBus (idles 2 ++ traceTwelveBits)))
    t.status = 0x3FE ∧ t.rxlen = 1 ∧ t.rxbuf = [(0, 0xC3)] ∧ t.peer.taken = 52 := by decide

/-- V21. -/
theorem test_encf_packet :
    let t := after (exec .encf { State.reset with hdr := 0x09200001, pw := [(0, 0x00000001)] })
    t.txBytes 9 = packet9 ∧ t.txlen = 9 ∧ t.status = 0x000 := by decide

/-- V25: 15 payload words fit `PW` and their packet of 65 bytes does not fit `TXBUF`. -/
theorem test_encf_operand :
    let t := after (exec .encf { State.reset with params := smallParams, hdr := 0x0000000F })
    t.status = 0x0F9 ∧ t.txlen = 0 ∧ t.txbuf = [] := by decide

/-- V31. -/
theorem test_decf_packet :
    let t := after (exec .decf (holding 0 packet9))
    t.status = 0x000 ∧ t.hdr = 0x09200001 ∧ t.nwords = 1 ∧ t.pw = [(0, 0x00000001)] ∧ t.rxlen = 9 := by decide

/-- V37d: relaxed mode ignores the three bytes after the last whole group. -/
theorem test_decf_relaxed :
    let t := after (exec .decf (holding 1 (packet9 ++ [0xAA, 0xBB])))
    t.status = 0x000 ∧ t.hdr = 0x09200001 ∧ t.nwords = 1 ∧ t.pw = [(0, 0x00000001)] := by decide

/-- V50: the first states of the last byte's bits, 0 0 1 0, and the 139 states in all. -/
theorem test_txf_packet :
    let t := after (exec .txf { State.reset with hdr := 0x01200000 })
    t.txBytes 5 = [0x00, 0x00, 0x20, 0x01, 0x21] ∧ t.txlen = 5 ∧ t.status = 0x000 ∧ t.outputs.length = 139 ∧
      (t.outputs.drop 107).take 12 =
        [LineState.s10, .s10, .s00, .s01, .s01, .s00, .s10, .s11, .s01, .s01, .s01, .s00].map Output.drove := by decide

/-- V51. -/
theorem test_txf_operand :
    let t := after (exec .txf { State.reset with params := smallParams, hdr := 0x0000000F })
    t.status = 0x0F9 ∧ t.outputs = [] ∧ t.txlen = 0 := by decide

/-- V52. -/
theorem test_rxf_packet :
    let t := after (exec (.rxf 9 1000) (onBus (idles 7 ++ txTrace Params.reference packet9)))
    t.status = 0x000 ∧ t.hdr = 0x09200001 ∧ t.nwords = 1 ∧ t.pw = [(0, 0x00000001)] ∧ t.rxlen = 9 ∧
      t.peer.taken = 237 := by decide

/-- V53: Timeout stands, and DECF is not attempted. -/
theorem test_rxf_timeout :
    let t := after (exec (.rxf 9 10) { onBus (idles 20) with hdr := 0xA1B2C3D4 })
    t.status = 0x0FF ∧ t.rxlen = 0 ∧ t.hdr = 0xA1B2C3D4 ∧ t.peer.taken = 11 := by decide

/-! ## The host port and reset (vectors H1 to H12; spec/20_memory.md R31 to R33, spec/70_reset_and_hazards.md R140) -/

/-- H4, H5, H6, H10, H11, with each address written as the port carries it: the byte address divided by 4. -/
theorem test_host_writes :
    (after (step (withEvent (.write 0x0002 0xFFFFFFFF)))).ctrl = 1 ∧
    (after (step (withEvent (.write 0x0005 0xFFFFFFFF)))).txlen = 0xFFF ∧
    (after (step (withEvent (.write 0x0400 0x12345678)))).txbuf = [(0, 0x78)] ∧
    (after (step (withEvent (.write 0x24FF 5)))).pw = [] ∧
    (after (step (withEvent (.write 0x0004 7)))).nwords = 0 := by decide

/-- H7, H9, H12, and a read of `STATUS` after an illegal word (E13). -/
theorem test_host_reads :
    memRead 0x2403 (after (step (withEvent (.write 0x2403 0xDEADBEEF)))) = 0xDEADBEEF ∧
    memRead 0x0801 State.reset = 0 ∧
    memRead 0x0003 (after (step (withEvent (.write 0x0003 0xA1B2C3D4)))) = 0xA1B2C3D4 ∧
    memRead 0x0001 (after (step (withEvent (.write 0x0000 0x70000000)))) = 0x0FA := by decide

/-- A reset that cuts TXF short after 12 of its 139 ticks: 12 states were driven, nothing is acknowledged, the registers are 0. -/
theorem test_reset_during_txf :
    let t := after (step { State.reset with hdr := 0x01200000, pending := [.resetDuring 0x50000000 12] })
    t.outputs.length = 12 ∧ t.hdr = 0 ∧ t.txlen = 0 ∧ t.txbuf = [] ∧ t.epoch = 1 ∧ t.drvA ∧ t.drvB := by decide

/-- The first command after reset runs as it stands: E3 on a free sample times out at once, whatever the sample is. -/
theorem test_withFetchWord : (after (step (State.reset.withFetchWord 32 0x20000000))).status = 0x0FF := by decide

/-! ## Witnesses: for each statement with hypotheses, operands and a state that meet them all, each clause at the ends of its range -/

/-- A state with both lines released whose peer shows the reference for `k + 1` ticks and then each state of a trace for one. -/
theorem peerSendsFrom_of_queue (s : State) (k tmo : Nat) (ref : LineState) (trace : List LineState) (hr : s.Released)
    (hq : s.peer.queued = List.replicate (k + 1) ref ++ trace) (hk : k + 1 ≤ tmo)
    (hlen : trace.length ≤ s.params.sampleBufSize) : PeerSendsFrom s tmo ref trace := by
  have h : hold (trace.map (fun x => (x, 0))) = trace := by
    clear hq hlen
    induction trace with
    | nil => rfl
    | cons x xs ih =>
      simp only [hold, List.map_cons, List.flatMap_cons] at ih ⊢
      rw [ih]
      rfl
  exact ⟨hr, k, trace.map (fun x => (x, 0)), [], by simp [Function.comp_def], by rw [h, List.append_nil, hq], hk, by rwa [h]⟩

/-- The peer shows each state of a trace for one tick after `k + 1` idle ticks. -/
theorem peerSends_onBus (k tmo : Nat) (trace : List LineState) (hk : k + 1 ≤ tmo)
    (hlen : trace.length ≤ Params.reference.sampleBufSize) : PeerSends (onBus (idles (k + 1) ++ trace)) tmo trace :=
  peerSendsFrom_of_queue _ k tmo .idle trace ⟨rfl, rfl⟩ rfl hk hlen

/-- The latest state of the peer that still counts as in time: the first change at tick `tmo`. -/
theorem witness_PeerSends : PeerSends (onBus (idles 10 ++ txTrace Params.reference [0x3C])) 10
    (txTrace Params.reference [0x3C]) :=
  peerSends_onBus 9 10 _ (by decide) (by rw [txTrace_length]; decide)

theorem witness_DecodeOfEncodeIsIdentity : (Instr.rxf 4095 65535).WellFormed ∧ (Instr.recv 0 0).WellFormed := by decide

theorem witness_EncodeOfDecodeIsIdentity : decode 0x2FFFFFFF = .ok (.recv 4095 65535) := by decide

theorem witness_DecoderGivesTheVerdictOfTheTable :
    (0x0FFFFFFF : Word).toNat / 2 ^ 28 ∉ [1, 2, 3, 4, 5, 6] ∧ (0x70000000 : Word).toNat / 2 ^ 28 ∉ [1, 2, 3, 4, 5, 6] ∧
    ((0x18000000 : Word).toNat / 2 ^ 28 ∈ [1, 3, 4, 5] ∧ (0x18000000 : Word).toNat % 2 ^ 28 ≠ 0) ∧
    ((0x50000001 : Word).toNat / 2 ^ 28 ∈ [1, 3, 4, 5] ∧ (0x50000001 : Word).toNat % 2 ^ 28 ≠ 0) ∧
    (0x6FFFFFFF : Word) &&& Instr.rowMask (.rxf 0 0) = Instr.rowMatch (.rxf 0 0) := by decide

theorem witness_IllegalWordOnlySetsStatus :
    IllegalWord 0x0FFFFFFF ∧ IllegalWord 0x70000000 ∧ IllegalWord 0x10000001 ∧
    (withEvent (.write 0 0x10000001)).Released ∧
    (withEvent (.write 0 0x10000001)).pending = .write 0 0x10000001 :: [] := by
  simp only [IllegalWord]
  decide

theorem witness_StepRunsTheDecodedInstruction :
    decode 0x600903E8 = .ok (.rxf 9 1000) ∧ (withEvent (.write 0 0x600903E8)).pending = .write 0 0x600903E8 :: [] ∧
    (Instr.rxf 4095 65535).WellFormed := by decide

theorem witness_EveryStepHasANextState : State.reset.pending = [] := rfl

theorem witness_StepKeepsTheInvariant :
    (withEvent (.write 0 0x10000000)).Inv ∧ ∃ t, step (withEvent (.write 0 0x10000000)) = .next t :=
  ⟨by decide, _, rfl⟩

/-- A write of `TXBUF[1024]` leaves `TXBUF[0]` unwritten and is no reset. -/
theorem witness_UnwrittenElementsKeepTheirDraw :
    ∃ t, step (withEvent (.write 0x0800 7)) = .next t ∧ t.epoch = (withEvent (.write 0x0800 7)).epoch ∧
      t.txbuf.find 0 = none ∧ t.txbuf.find 1024 ≠ none ∧ t.rxbuf.find 0 = none ∧ t.pw.find 0 = none :=
  ⟨_, rfl, by decide⟩

theorem witness_ResetMeetsTheInvariant : Params.reference.Wf ∧ smallParams.Wf := by decide

/-- A reset between accesses, one at once and one long after the operation's end. -/
theorem witness_ResetRestoresTheResetState :
    (withEvent .reset).pending = .reset :: [] ∧ Params.reference.Wf ∧
    (withEvent (.resetDuring 0x50000000 0)).pending = .resetDuring 0x50000000 0 :: [] ∧
    (withEvent (.resetDuring 0x50000000 9999)).pending = .resetDuring 0x50000000 9999 :: [] ∧
    (∃ t, step (withEvent .reset) = .next t) ∧ ∃ t, step (withEvent (.resetDuring 0x50000000 0)) = .next t :=
  ⟨rfl, by decide, rfl, rfl, ⟨_, rfl⟩, _, rfl⟩

theorem witness_HostReadFollowsTheAddressMap :
    Params.reference.Wf ∧ (withEvent (.read 0)).pending = .read 0 :: [] ∧
    4 * (0x0006 : BitVec 14).toNat = 0x0018 ∧
    (1024 < Params.reference.txbufSize ∧ 4 * (0x0800 : BitVec 14).toNat = 0x1000 + 4 * 1024) ∧
    (1024 < Params.reference.rxbufSize ∧ 4 * (0x1800 : BitVec 14).toNat = 0x5000 + 4 * 1024) ∧
    (254 < Params.reference.pwSize ∧ 4 * (0x24FE : BitVec 14).toNat = 0x9000 + 4 * 254) ∧
    ¬ Mapped Params.reference (4 * (0x0007 : BitVec 14).toNat) ∧
    ¬ Mapped Params.reference (4 * (0x0801 : BitVec 14).toNat) ∧
    ¬ Mapped Params.reference (4 * (0x3FFF : BitVec 14).toNat) := by
  simp only [Mapped]
  decide

theorem witness_HostWriteIsReadBackAtItsAddressOnly :
    Params.reference.Wf ∧ (0x24FE : BitVec 14) ≠ 0 ∧
    (withEvent (.write 0x24FE 5)).pending = .write 0x24FE 5 :: [] ∧
    writableBits Params.reference (4 * (0x24FE : BitVec 14).toNat) = 0xFFFFFFFF ∧
    writableBits Params.reference (4 * (0x24FF : BitVec 14).toNat) = 0 := by decide

theorem witness_ReservedAddressesReadZeroAndIgnoreWrites :
    Params.reference.Wf ∧ ¬ Mapped Params.reference (4 * (0x0007 : BitVec 14).toNat) ∧
    (withEvent (.read 0x0007)).pending = .read 0x0007 :: [] ∧
    (withEvent (.write 0x0007 5)).pending = .write 0x0007 5 :: [] := by
  simp only [Mapped]
  decide

theorem witness_BitStepsFallOnceWithTheBitOnTheDataLine : LineState.level .s10 (Line.other .A) = false := rfl

/-- The last bit of the last byte of V20, with line B the clock line, and its first bit, with line A: the rows of V1 for a bit 1. -/
theorem witness_TransmitTraceHasTwentyFourStatesPerByte :
    [(0xDE : Byte), 0xAD][1]? = some 0xAD ∧ Params.reference.startSeq.getLast? = some .s10 ∧
    ((txTrace Params.reference [0xDE, 0xAD]).drop (11 + 24 * 1 + 3 * 7)).take 3 = [.s01, .s11, .s10] ∧
    ((txTrace Params.reference [0xDE, 0xAD]).drop (11 + 24 * 1)).take 3 = [.s10, .s11, .s01] := by
  decide

theorem witness_SendDrivesTheTransmitTrace :
    ({ State.reset with txlen := 1025 } : State).txlen.toNat ≤ State.reset.params.txbufSize ∧
    State.reset.params.txbufSize < ({ State.reset with txlen := 1026 } : State).txlen.toNat := by decide

theorem witness_RecvAlwaysEndsWithinItsBounds :
    State.reset.params.Wf ∧ State.reset.params.rxbufSize < 1026 ∧ 1025 ≤ State.reset.params.rxbufSize := by decide

/-- The three statuses the statement speaks of: V12, V14 and V17. -/
theorem witness_RecvLeavesRxlenByOutcome :
    State.reset.params.Wf ∧ 4 ≤ State.reset.params.rxbufSize ∧
    (after (exec (.recv 4 10) (onBus (idles 11)))).status = 0x0FF ∧
    (after (exec (.recv 4 100) (onBus [.s11, .s11, .s01, .s11, .s01, .s00]))).status = 0x1FE ∧
    (after (exec (.recv 1 100) (onBus (idles 2 ++ txTrace Params.reference [0x12, 0x34])))).status = 0x0FD := by decide

/-- V12, and V13c with `tmo = 0`. -/
theorem witness_RecvTimesOutOnASilentBus :
    4 ≤ State.reset.params.rxbufSize ∧ (onBus (idles 11)).peer.queued = List.replicate (10 + 1) LineState.s11 ++ ([] : List LineState) ∧
    (onBus [.s10, .s11]).peer.queued = List.replicate (0 + 1) LineState.s10 ++ [LineState.s11] := by decide

/-- V20: two bytes, `maxb` exactly met. -/
theorem witness_RecvReadsBackWhatSendDrives :
    State.reset.params.Wf ∧ 2 ≤ State.reset.params.rxbufSize ∧ [0xDE, 0xAD].length ≤ 2 ∧
    PeerSends (onBus (idles 2 ++ txTrace Params.reference [0xDE, 0xAD])) 100 (txTrace Params.reference [0xDE, 0xAD]) :=
  ⟨by decide, by decide, by decide, peerSends_onBus 1 100 _ (by decide) (by rw [txTrace_length]; decide)⟩

/-- V20c: `maxb = 0` and one rise between the start sequence and the terminator. -/
theorem witness_RecvAcceptsTheEmptyPacket :
    State.reset.params.Wf ∧ 0 ≤ State.reset.params.rxbufSize ∧
    fallsFrom .s10 ([LineState.s11] ++ [LineState.s10]) = List.replicate 1 Fall.none ++ [Fall.one .B] ∧
    PeerSends (onBus (idles 1 ++ (Params.reference.startSeq ++ [LineState.s11] ++ [LineState.s10]))) 100
      (Params.reference.startSeq ++ [LineState.s11] ++ [LineState.s10]) :=
  ⟨by decide, by decide, by decide, peerSends_onBus 0 100 _ (by decide) (by decide)⟩

/-- V17. -/
theorem witness_RecvKeepsTheBytesThatFitOnOverflow :
    State.reset.params.Wf ∧ 1 ≤ State.reset.params.rxbufSize ∧ 1 < [0x12, 0x34].length ∧
    PeerSends (onBus (idles 2 ++ txTrace Params.reference [0x12, 0x34])) 100 (txTrace Params.reference [0x12, 0x34]) :=
  ⟨by decide, by decide, by decide, peerSends_onBus 1 100 _ (by decide) (by rw [txTrace_length]; decide)⟩

/-- V16b: one whole byte and the four further bits 0 1 0 1, and the trace is the one the spec prints. Then V20b with one further bit, the
least there can be, and seven further bits 1, the most. -/
theorem witness_RecvReportsAnIncompleteLastByte :
    State.reset.params.Wf ∧ 2 ≤ State.reset.params.rxbufSize ∧ [0xC3].length < 2 ∧
    ([false, true, false, true].length ∈ [2, 4, 6] ∧
      Params.reference.startSeq ++ dataTrace 0 .s10 ([(0xC3 : Byte)].flatMap byteBits ++ [false, true, false, true]) ++
        Params.reference.stopSeq = traceTwelveBits ∧
      PeerSends (onBus (idles 2 ++ traceTwelveBits)) 100 traceTwelveBits) ∧
    (Carries .s10 [LineState.s01, .s11] (([] : List Byte).flatMap byteBits ++ [true]) ∧
      fell ([LineState.s01, .s11].getLastD .s10) .s01 = .one (clockLine (1 + 1)) ∧
      PeerSends (onBus (idles 2 ++ (Params.reference.startSeq ++ [LineState.s01, .s11] ++ [LineState.s01]))) 100
        (Params.reference.startSeq ++ [LineState.s01, .s11] ++ [LineState.s01])) ∧
    (Carries .s10 [LineState.s01, .s10, .s01, .s10, .s01, .s10, .s01, .s11]
        (([] : List Byte).flatMap byteBits ++ List.replicate 7 true) ∧
      fell ([LineState.s01, .s10, .s01, .s10, .s01, .s10, .s01, .s11].getLastD .s10) .s01 = .one (clockLine (7 + 1))) := by
  refine ⟨by decide, by decide, by decide, ⟨by decide, by decide, peerSends_onBus 1 100 _ (by decide) (by decide)⟩, ⟨?_, by decide, peerSends_onBus 1 100 _ (by decide) (by decide)⟩, ?_, by decide⟩ <;>
    (simp only [Carries]; decide)

/-- V15, with no bit before the fall of both lines; and one whole byte with seven further bits 1, the room of `maxb` all but used up, from
the reference `00`. -/
theorem witness_RecvReportsASimultaneousFall :
    let start := Params.reference.startSeq
    let bits := [(0x55 : Byte)].flatMap byteBits ++ List.replicate 7 true
    let data := dataTrace 0 .s10 bits ++ [LineState.s11]
    (State.reset.params.Wf ∧ 4 ≤ State.reset.params.rxbufSize ∧ start.head? ≠ some .idle ∧ start.head? ≠ some .s00) ∧
    (Carries .s10 [LineState.s11] (([] : List Byte).flatMap byteBits ++ []) ∧ fell ([LineState.s11].getLastD .s10) .s00 = .both ∧
      PeerSendsFrom (onBus (idles 2 ++ (start ++ [LineState.s11] ++ [LineState.s00]))) 100 .idle
        (start ++ [LineState.s11] ++ [LineState.s00])) ∧
    (Carries .s10 data bits ∧ 8 * [(0x55 : Byte)].length + (List.replicate 7 true).length ≤ 8 * 2 ∧
      fell (data.getLastD .s10) .s00 = .both ∧
      PeerSendsFrom (onBus (List.replicate 1 LineState.s00 ++ (start ++ data ++ [LineState.s00]))) 1 .s00
        (start ++ data ++ [LineState.s00])) :=
  ⟨by decide,
    ⟨by simp only [Carries]; decide, by decide,
      peerSendsFrom_of_queue _ 1 100 .idle _ ⟨rfl, rfl⟩ rfl (by decide) (by decide)⟩,
    by simp only [Carries]; decide, by decide, by decide,
    peerSendsFrom_of_queue _ 0 1 .s00 _ ⟨rfl, rfl⟩ rfl (by decide) (by decide)⟩

/-- V14b: the packet had already begun. -/
theorem witness_RecvRejectsAWrongFirstChange :
    State.reset.params.Wf ∧ (onBus [.s01, .s01, .s00]).Released ∧ 4 ≤ State.reset.params.rxbufSize ∧ 1 + 1 ≤ 100 ∧
    LineState.s00 ≠ .s01 ∧ State.reset.params.startSeq.head? ≠ some .s00 ∧
    (onBus [.s01, .s01, .s00]).peer.queued = List.replicate (1 + 1) LineState.s01 ++ LineState.s00 :: [] := by decide

/-- V18, whose budget of 40 samples ends 5 samples into the second byte, of which one bit, 0, has come. And a budget of 12 samples: all of
them on the first state of the start sequence; and all on the whole of it, which leaves one sample and no bit. -/
theorem witness_RecvEndsWhenTheCaptureBudgetIsSpent :
    let s (n : Nat) (samples : List LineState) : State :=
      { onBus (idles 2 ++ samples) with params := { Params.reference with sampleBufSize := n } }
    let start := Params.reference.startSeq
    let trace := txTrace Params.reference [0x12, 0x34]
    let once (xs : List LineState) : List (LineState × Nat) := xs.map (fun x => (x, 0))
    ((s 12 []).params.Wf ∧ (s 40 []).params.Wf ∧ (s 40 []).Released ∧ 4 ≤ (s 40 []).params.rxbufSize ∧ 1 + 1 ≤ 100) ∧
    ((s 40 trace).peer.queued = List.replicate (1 + 1) .idle ++ hold (once (trace.take 40)) ++ trace.drop 40 ∧
      (hold (once (trace.take 40))).length = 40 ∧
      (once (trace.take 40)).map Prod.fst = start ++ (trace.take 40).drop 11 ∧
      Carries .s10 ((trace.take 40).drop 11) ([(0x12 : Byte)].flatMap byteBits ++ [false]) ∧
      [false].length ≤ 7 ∧ 8 * [(0x12 : Byte)].length + [false].length ≤ 8 * 4) ∧
    ((s 12 (List.replicate 12 .s01)).peer.queued = List.replicate (1 + 1) .idle ++ hold [(LineState.s01, 11)] ++ ([] : List LineState) ∧
      (hold [(LineState.s01, 11)]).length = 12 ∧ [(LineState.s01, 11)].map Prod.fst = start.take (0 + 1)) ∧
    ((s 12 (start ++ [.s10])).peer.queued =
        List.replicate (1 + 1) .idle ++ hold (once start.dropLast ++ [(.s10, 1)]) ++ ([] : List LineState) ∧
      (hold (once start.dropLast ++ [(LineState.s10, 1)])).length = 12 ∧
      (once start.dropLast ++ [(LineState.s10, 1)]).map Prod.fst = start.take (10 + 1) ∧
      Carries .s10 [] (([] : List Byte).flatMap byteBits ++ [])) := by
  simp only [Carries]
  decide

/-- V14: the second change leads to `11`, and not to `00`; and a break at the last state of the start sequence, from the reference `10`. -/
theorem witness_RecvRejectsABrokenStartSequence :
    let s := onBus [.s11, .s11, .s01, .s11, .s01, .s00]
    let start := Params.reference.startSeq
    let held := start.dropLast.map (fun x => (x, 0))
    State.reset.params.Wf ∧ State.reset.Released ∧ 4 ≤ State.reset.params.rxbufSize ∧ 1 + 1 ≤ 100 ∧
    start.head? ≠ some .idle ∧ start.head? ≠ some .s10 ∧
    (0 + 1 < start.length ∧ [(LineState.s01, 0)].map Prod.fst = start.take (0 + 1) ∧ start[0]? ≠ some .s11 ∧
      start[0 + 1]? ≠ some .s11 ∧ (hold [(LineState.s01, 0)]).length < State.reset.params.sampleBufSize ∧
      s.peer.queued = List.replicate (1 + 1) .idle ++ hold [(LineState.s01, 0)] ++ .s11 :: [.s01, .s00]) ∧
    (9 + 1 < start.length ∧ held.map Prod.fst = start.take (9 + 1) ∧ start[9]? ≠ some .s01 ∧ start[9 + 1]? ≠ some .s01 ∧
      (hold held).length < State.reset.params.sampleBufSize ∧
      (onBus (List.replicate 2 .s10 ++ start.dropLast ++ [.s01])).peer.queued =
        List.replicate (1 + 1) .s10 ++ hold held ++ .s01 :: []) := by
  decide

/-- V14c, whose reference is `10`. Then a byte 0x55 of which every bit 1 has the data line rise in the change in which the clock line falls,
as in V20b. And an empty packet from the reference `00`. -/
theorem witness_RecvTakesOneBitFromEachFall :
    let start := Params.reference.startSeq
    let sent := dataTrace 0 .s10 (byteBits 0xA5) ++ [LineState.s10, .s11]
    let data : List LineState := [.s00, .s01, .s10, .s00, .s01, .s10, .s00, .s01, .s10, .s00, .s01, .s10, .s11]
    (State.reset.params.Wf ∧ 1 ≤ State.reset.params.rxbufSize ∧ start ≠ [.s10] ∧ start.head? ≠ some .s10 ∧
      start.head? ≠ some .idle ∧ start.head? ≠ some .s00) ∧
    (Carries .s10 sent ([(0xA5 : Byte)].flatMap byteBits) ∧ fell (sent.getLastD .s10) .s10 = .one .B ∧
      PeerSendsFrom (onBus (List.replicate 2 LineState.s10 ++ (start ++ sent ++ [LineState.s10]))) 100 .s10
        (start ++ sent ++ [LineState.s10])) ∧
    (Carries .s10 data ([(0x55 : Byte)].flatMap byteBits) ∧ fell (data.getLastD .s10) .s10 = .one .B ∧
      PeerSendsFrom (onBus (idles 1 ++ (start ++ data ++ [LineState.s10]))) 1 .idle (start ++ data ++ [LineState.s10])) ∧
    (Carries .s10 [LineState.s11] (([] : List Byte).flatMap byteBits) ∧ fell ([LineState.s11].getLastD .s10) .s10 = .one .B ∧
      PeerSendsFrom (onBus (List.replicate 1 LineState.s00 ++ (start ++ [LineState.s11] ++ [LineState.s10]))) 1 .s00
        (start ++ [LineState.s11] ++ [LineState.s10])) :=
  ⟨by decide,
    ⟨by simp only [Carries]; decide, by decide,
      peerSendsFrom_of_queue _ 1 100 .s10 _ ⟨rfl, rfl⟩ rfl (by decide) (by decide)⟩,
    ⟨by simp only [Carries]; decide, by decide,
      peerSendsFrom_of_queue _ 0 1 .idle _ ⟨rfl, rfl⟩ rfl (by decide) (by decide)⟩,
    by simp only [Carries]; decide, by decide,
    peerSendsFrom_of_queue _ 0 1 .s00 _ ⟨rfl, rfl⟩ rfl (by decide) (by decide)⟩

/-- One rise and one fall of line B with `maxb` 0; and two falls of line B with the greatest `maxb`. -/
theorem witness_RecvTakesABitWhereNoLineHasFallen :
    let s (samples : List LineState) : State :=
      { onBus (List.replicate 1 .s00 ++ samples) with params := { Params.reference with startSeq := [.s10] } }
    let sent (data : List LineState) : List LineState := .s10 :: data ++ [.s10]
    let twice : List LineState := [.s11, .s10, .s11]
    ((s []).params.Wf ∧ 1025 ≤ (s []).params.rxbufSize) ∧
    (fallingSteps .s10 [.s11] = [] ∧ fell ([LineState.s11].getLastD .s10) .s10 = .one .B ∧
      PeerSendsFrom (s (sent [.s11])) 1 .s00 (sent [.s11])) ∧
    (fallingSteps .s10 twice = [.one .B] ∧ fell (twice.getLastD .s10) .s10 = .one .B ∧
      PeerSendsFrom (s (sent twice)) 1 .s00 (sent twice)) :=
  ⟨by decide, ⟨by decide, by decide, peerSendsFrom_of_queue _ 0 1 .s00 _ ⟨rfl, rfl⟩ rfl (by decide) (by decide)⟩,
    by decide, by decide, peerSendsFrom_of_queue _ 0 1 .s00 _ ⟨rfl, rfl⟩ rfl (by decide) (by decide)⟩

/-- V11 against the same packet with every state held for two ticks (V19 does so for three). -/
theorem witness_RecvDependsOnlyOnTheTransitionTrace :
    let s := onBus (idles 3 ++ txTrace Params.reference [])
    let s' := onBus ((idles 3 ++ txTrace Params.reference []).flatMap (List.replicate 2))
    s.params.Wf ∧ s'.params.startSeq = s.params.startSeq ∧ s.Released ∧ s'.Released ∧ 4 ≤ s.params.rxbufSize ∧
    4 ≤ s'.params.rxbufSize ∧ s'.params.rxbufSize ≤ 4095 ∧ SameTransitions s.peer.queued s'.peer.queued ∧
    ∃ t t', exec (.recv 4 100) s = .next t ∧ exec (.recv 4 50) s' = .next t' ∧
      t.peer.taken - s.peer.taken ≤ s.peer.queued.length ∧ t'.peer.taken - s'.peer.taken ≤ s'.peer.queued.length ∧
      t.status ∉ [0x0FF, 0x4FE] ∧ t'.status ∉ [0x0FF, 0x4FE] := by
  refine ⟨by decide, by decide, by decide, by decide, by decide, by decide, by decide, ?_, _, _, rfl, rfl, by decide⟩
  simp only [SameTransitions]
  decide

/-- V25: the greatest payload of the reference sizes fits; 15 and 16 words of the small sizes do not. -/
theorem witness_EncfBuildsThePacket :
    255 = (({ State.reset with hdr := 0x000000FF } : State).hdr.extractLsb' 0 8).toNat ∧
    (255 ≤ State.reset.params.pwSize ∧ 4 * 255 + 5 ≤ State.reset.params.txbufSize) ∧
    smallParams.txbufSize < 4 * 15 + 5 ∧ smallParams.pwSize < 16 := by decide

theorem witness_EncfIsIdempotent : State.reset.BuffersWf ∧ ∃ t, exec .encf State.reset = .next t :=
  ⟨by decide, _, rfl⟩

/-- V31, V34, V36 at `RXLEN` 4 and 6, V41. -/
theorem witness_DecfValidatesAndDelivers :
    State.reset.params.Wf ∧ ¬ (holding 0 packet9).Relaxed ∧
    (5 ≤ (holding 0 packet9).rxlen.toNat ∧ ((holding 0 packet9).rxlen.toNat - 1) % 4 = 0 ∧
      xorBytes ((holding 0 packet9).rxBytes 8) = (holding 0 packet9).rxByte 8) ∧
    xorBytes ((holding 0 [0x01, 0x00, 0x20, 0x09, 0x01, 0x00, 0x00, 0x00, 0xFF]).rxBytes 8) ≠
      (holding 0 [0x01, 0x00, 0x20, 0x09, 0x01, 0x00, 0x00, 0x00, 0xFF]).rxByte 8 ∧
    ((holding 0 (List.replicate 4 0)).rxlen.toNat < 5 ∧ ((holding 0 (List.replicate 6 0)).rxlen.toNat - 1) % 4 ≠ 0) ∧
    State.reset.params.rxbufSize < ({ State.reset with rxlen := 1026 } : State).rxlen.toNat := by decide

/-- V37b and V37c: four and three bytes; V41. -/
theorem witness_DecfRelaxedDeliversWholeGroups :
    State.reset.params.Wf ∧ (holding 1 [0x01, 0x00, 0x20, 0x09]).Relaxed ∧
    4 ≤ (holding 1 [0x01, 0x00, 0x20, 0x09]).rxlen.toNat ∧ (holding 1 [0x01, 0x00, 0x20]).rxlen.toNat < 4 ∧
    State.reset.params.rxbufSize < ({ State.reset with ctrl := 1, rxlen := 1026 } : State).rxlen.toNat := by decide

/-- V36 at `RXLEN` 0, 1 and 4. -/
theorem witness_DecfRejectsEveryBadLength :
    (holding 0 []).DecodeFits ∧ ¬ (holding 0 []).Relaxed ∧ (((holding 0 []).rxlen.toNat : Int) - 1) % 4 ≠ 0 ∧
    (holding 0 [0]).DecodeFits ∧ (holding 0 [0]).rxlen.toNat < 5 ∧
    (((holding 0 (List.replicate 4 0)).rxlen.toNat : Int) - 1) % 4 ≠ 0 := by decide

/-- Beyond the bytes placed, `RXBUF` holds its draws. -/
theorem holding_beyond (relaxed : BitVec 1) (bytes : List Byte) (i : Nat) (h : bytes.length ≤ i) :
    (holding relaxed bytes).rxByte i = Config.drawnRx 0 i := by
  simp only [State.rxByte, holding]
  rw [Memory.find_storeAll, if_neg (by omega)]
  rfl

/-- V39: bit 0 of the checksum byte inverted; V40: bit 4 of two bytes inverted. -/
theorem witness_DecfDetectsEverySingleBitError :
    HoldsValidPacket (holding 0 packet9) ∧ 8 < (holding 0 packet9).rxlen.toNat ∧
    (∀ i, (holding 0 [0x01, 0x00, 0x20, 0x09, 0x01, 0x00, 0x00, 0x00, 0x28]).rxByte i =
      if i = 8 then (holding 0 packet9).rxByte i ^^^ BitVec.twoPow 8 0 else (holding 0 packet9).rxByte i) ∧
    (∀ i, (holding 0 [0x01, 0x00, 0x20, 0x09, 0x11, 0x00, 0x00, 0x10, 0x29]).rxByte i =
      (holding 0 packet9).rxByte i ^^^ (if i = 4 ∨ i = 7 then 0x10 else 0x00)) := by
  refine ⟨?_, by decide, fun i => ?_, fun i => ?_⟩
  · simp only [HoldsValidPacket]
    decide
  · by_cases h : i < 9
    · interval_cases i <;> decide
    · rw [if_neg (by omega), holding_beyond _ _ i (by simp; omega), holding_beyond _ _ i (by simp [packet9]; omega)]
  · by_cases h : i < 9
    · interval_cases i <;> decide
    · rw [if_neg (by omega), holding_beyond _ _ i (by simp; omega), holding_beyond _ _ i (by simp [packet9]; omega)]
      simp

/-- V22 and V32, the copy made by the host. -/
theorem witness_DecfUndoesEncf :
    let s : State := { State.reset with hdr := 0x01200000 }
    let u : State := holding 0 [0x00, 0x00, 0x20, 0x01, 0x21]
    s.EncodeFits ∧ u.params.Wf ∧ u.DecodeFits ∧ ¬ u.Relaxed ∧
    ∃ t, exec .encf s = .next t ∧ u.rxlen = t.txlen ∧ u.rxBytes t.txlen.toNat = t.txBytes t.txlen.toNat :=
  ⟨by decide, by decide, by decide, by decide, _, rfl, by decide⟩

theorem witness_TxfEncodesThenSends :
    ({ State.reset with hdr := 0x000000FF } : State).EncodeFits ∧
    ¬ ({ State.reset with params := smallParams, hdr := 0x0000000F } : State).EncodeFits := by decide

/-- V55 (the reception of an empty packet is Ok) and V53 (it is not). -/
theorem witness_RxfReceivesThenDecodes :
    State.reset.params.Wf ∧
    (∃ u, exec (.recv 4 100) (onBus (idles 3 ++ txTrace Params.reference [])) = .next u ∧ u.code = 0x00 ∧ u.rxlen = 0) ∧
    (∃ u, exec (.recv 9 10) (onBus (idles 11)) = .next u ∧ u.code ≠ 0x00) :=
  ⟨by decide, ⟨_, rfl, by decide⟩, _, rfl, by decide⟩

/-- V52, whose packet is that of V21. -/
theorem witness_RxfDeliversTheFrameThePeerSends :
    State.reset.params.Wf ∧ 9 ≤ State.reset.params.rxbufSize ∧ ¬ State.reset.Relaxed ∧
    4 * [(0x00000001 : Word)].length + 5 ≤ 9 ∧ packetBytes 0x09200001 [0x00000001] = packet9 ∧
    PeerSends (onBus (idles 7 ++ txTrace Params.reference (packetBytes 0x09200001 [0x00000001]))) 1000
      (txTrace Params.reference (packetBytes 0x09200001 [0x00000001])) :=
  ⟨by decide, by decide, by decide, by decide, by decide, peerSends_onBus 6 1000 _ (by decide) (by rw [txTrace_length]; decide)⟩

/-- V50 on one block and its trace on the other. -/
theorem witness_FrameCrossesTheBusUnchanged :
    let s : State := { State.reset with hdr := 0x01200000 }
    let trace := txTrace Params.reference [0x00, 0x00, 0x20, 0x01, 0x21]
    let r := onBus (idles 7 ++ trace)
    s.EncodeFits ∧ (∃ t, exec .txf s = .next t ∧ t.outputs = s.outputs ++ trace.map Output.drove) ∧
    r.params.Wf ∧ r.params.startSeq = s.params.startSeq ∧ r.params.stopSeq = s.params.stopSeq ∧
    5 ≤ r.params.rxbufSize ∧ 4 * s.payloadCount + 5 ≤ 5 ∧ ¬ r.Relaxed ∧ PeerSends r 1000 trace :=
  ⟨by decide, ⟨_, rfl, by decide⟩, by decide, by decide, by decide, by decide, by decide, by decide,
    peerSends_onBus 6 1000 _ (by decide) (by rw [txTrace_length]; decide)⟩

theorem witness_OperationsReportExactlyTheirCodes :
    (∃ t, exec .decf (holding 0 packet9) = .next t) ∧ mayReport (.rxf 0 0) .overflow = true ∧
    IllegalWord 0x00000000 ∧ ∃ t, step (State.reset.withCommand 0x00000000) = .next t :=
  ⟨⟨_, rfl⟩, by decide, by simp only [IllegalWord]; decide, _, rfl⟩

/-- Of `EveryOperationLeavesALegalStatus` and of `EachOperationWritesOnlyItsOwnState`: every operation ends. -/
theorem witness_EveryOperationLeavesALegalStatus :
    ∃ t, exec (.rxf 4 10) (onBus (idles 11)) = .next t ∧ t.status = 0x0FF := ⟨_, rfl, by decide⟩

theorem witness_EachOperationWritesOnlyItsOwnState :
    (∃ t, exec .send State.reset = .next t) ∧ Instr.opc .send ≠ 0x2 ∧ Instr.opc .send ≠ 0x6 ∧ Instr.opc .send ≠ 0x3 ∧
    Instr.opc .encf ≠ 0x1 ∧ Instr.opc .encf ≠ 0x5 ∧ Instr.opc .encf ≠ 0x4 := ⟨⟨_, rfl⟩, by decide⟩

/-- V37c: a relaxed decode that fails; V25: an encode that fails. -/
theorem witness_FailedCodecOperationChangesOnlyStatus :
    (Instr.decf ∈ [Instr.encf, .decf] ∧ ∃ t, exec .decf (holding 1 [0x01, 0x00, 0x20]) = .next t ∧ t.code ≠ 0) ∧
    ∃ t, exec .encf { State.reset with params := smallParams, hdr := 0x0000000F } = .next t ∧ t.code ≠ 0 :=
  ⟨⟨by decide, _, rfl, by decide⟩, _, rfl, by decide⟩

/-- Two states that differ in everything but the inputs of DECF, and likewise of the others. -/
theorem witness_OperationsDependOnlyOnTheirInputs :
    let s := holding 0 packet9
    let s' : State := { holding 0 packet9 with hdr := 0xA1B2C3D4, status := 0x0FF, nwords := 3 }
    s'.params = s.params ∧ s.params.Wf ∧ s'.txlen = s.txlen ∧ s'.txBytes s.txlen.toNat = s.txBytes s.txlen.toNat ∧
    9 ≤ s.params.rxbufSize ∧ s'.peer = s.peer ∧ s'.latches = s.latches ∧ s.DecodeFits ∧ s'.ctrl = s.ctrl ∧
    s'.rxlen = s.rxlen ∧ s'.rxBytes s.rxlen.toNat = s.rxBytes s.rxlen.toNat ∧
    (State.reset.EncodeFits ∧ (onBus []).hdr = State.reset.hdr ∧
      (onBus []).pwWords State.reset.payloadCount = State.reset.pwWords State.reset.payloadCount) := by decide

end Sys2Proof.Tests
end

section
/-! The machine's invariant `State.Inv`: it holds at reset under legal parameters, and each event at the port keeps it. An operation is
an update of registers and buffers followed by `finish`, so the invariant is carried through the two separately. -/

namespace Sys2Proof.Machine

/-! ## Legal statuses -/

/-- Every code but FrameError is legal with detail 0 (spec/60_exceptions.md R120, R121). -/
theorem statusBits_zero_mem_legalStatuses (c : Code) (hc : c ≠ .frameError) : statusBits c 0 ∈ legalStatuses := by
  revert hc
  cases c <;> decide

/-- The status of every verdict of a reception is legal (spec/40_transport.md R74). -/
theorem Verdict.status_mem_legalStatuses (v : Verdict) : statusBits v.code v.detail ∈ legalStatuses := by
  cases v with
  | ok => decide
  | overflow => decide
  | frameError d => cases d <;> decide

/-! ## Reset -/

/-- Right after reset the invariant says only that the parameters are legal (spec/10_state.md R25). -/
theorem State.reset_inv_iff (P : Params) : ({ State.reset with params := P } : State).Inv ↔ P.Wf := by
  constructor
  · intro ⟨hP, _⟩
    exact hP
  · intro hP
    refine ⟨hP, ⟨rfl, rfl⟩, statusBits_zero_mem_legalStatuses .ok (by decide), Nat.zero_le _, ?_⟩
    simp [State.BuffersWf, State.reset, Memory.wf]

/-- The reference parameters are legal (spec/40_transport.md R65, R67). -/
theorem reference_params_wf : Params.reference.Wf := by decide

/-! ## Updates that keep the invariant -/

section
variable {s : State} (h : s.Inv)
include h

/-- A reset, whenever it comes, leaves the reset state with the machine's own parameters (spec/70_reset_and_hazards.md R140). -/
theorem State.Inv.restart : s.restart.Inv := (State.reset_inv_iff s.params).2 h.1

theorem State.Inv.abandon (s' : State) (ticks : Nat) : (abandon s s' ticks).Inv := h.restart

theorem State.Inv.emit (o : Output) : (s.emit o).Inv := h

theorem State.Inv.withPending (rest : List PortEvent) : ({ s with pending := rest } : State).Inv := h

/-- The end of an operation keeps the invariant when it writes a legal status (spec/60_exceptions.md R125). -/
theorem State.Inv.finish {c : Code} {d : BitVec 4} (hst : statusBits c d ∈ legalStatuses) : (s.finish c d).Inv := by
  obtain ⟨hP, -, -, hN, hB⟩ := h
  exact ⟨hP, ⟨rfl, rfl⟩, hst, hN, hB⟩

theorem State.Inv.finish_zero (c : Code) (hc : c ≠ .frameError) : (s.finish c 0).Inv :=
  h.finish (statusBits_zero_mem_legalStatuses c hc)

/-- Groups taken from bytes that fit `RXBUF` fit `PW`, because a legal `PW` is large enough (spec/00_scope.md R6), and their number
fits `NWORDS`. -/
theorem State.Inv.deliver (g : Nat) (hg : 4 * g ≤ s.params.rxbufSize) : (s.deliver g).Inv := by
  obtain ⟨hP, hR, hS, -, ht, hr, hp⟩ := h
  obtain ⟨-, -, -, -, hmax, hmin⟩ := hP.sizes
  have hfit : g - 1 ≤ s.params.pwSize := by omega
  refine ⟨hP, hR, hS, ?_, ht, hr, Memory.storeAll_wf _ _ _ _ hp (by simpa using hfit)⟩
  exact (Nat.mod_le _ _).trans hfit

/-! ## Operations -/

theorem sendPacket_inv : (sendPacket s).Inv := by
  by_cases hf : s.SendFits
  · rw [sendPacket_fits s hf]
    exact h.finish_zero .ok (by decide)
  · rw [sendPacket_rejects s hf]
    exact h.finish_zero .operandError (by decide)

theorem encodeFrame_inv : (encodeFrame s).Inv := by
  by_cases hf : s.EncodeFits
  · rw [encodeFrame_fits s hf]
    refine State.Inv.finish_zero ?_ .ok (by decide)
    obtain ⟨hP, hR, hS, hN, ht, hr, hp⟩ := h
    refine ⟨hP, hR, hS, hN, Memory.storeAll_wf _ _ _ _ ht ?_, hr, hp⟩
    rw [packetBytes_length, State.pwWords_length, Nat.zero_add]
    exact hf.2
  · rw [encodeFrame_rejects s hf]
    exact h.finish_zero .operandError (by decide)

theorem decodeFrame_inv : (decodeFrame s).Inv := by
  rcases decodeFrame_cases s with ⟨g, -, hg, hf, he⟩ | he | ⟨-, he⟩ | ⟨-, he⟩ <;> rw [he]
  · exact (h.deliver g (hg.trans hf)).finish_zero .ok (by decide)
  · exact h.finish_zero .lengthError (by decide)
  · exact h.finish_zero .checksumError (by decide)
  · exact h.finish_zero .operandError (by decide)

/-- The bytes of a reception are at most `maxb`, which fits `RXBUF` when RECV accepts it (spec/40_transport.md R74). -/
theorem receivePacket_inv (maxb tmo : Nat) : (receivePacket maxb tmo s).Inv := by
  rcases receivePacket_cases s maxb tmo with ⟨-, he⟩ | ⟨-, p, -, -, -, he⟩ | ⟨hf, r, -, -, -, hb, -, -, he⟩ <;> rw [he]
  · exact h.finish_zero .operandError (by decide)
  · refine State.Inv.finish_zero ?_ .timeout (by decide)
    exact h
  · refine State.Inv.finish ?_ r.verdict.status_mem_legalStatuses
    obtain ⟨hP, hR, hS, hN, ht, hr, hp⟩ := h
    exact ⟨hP, hR, hS, hN, ht, Memory.storeAll_wf _ _ _ _ hr (by rw [Nat.zero_add]; exact hb.trans hf), hp⟩

/-- A chained operation keeps the invariant when both its halves do. -/
theorem thenIfOk_inv {f g : State → State} (hf : ∀ {u : State}, u.Inv → (f u).Inv)
    (hg : ∀ {u : State}, u.Inv → (g u).Inv) :
    (thenIfOk f g s).Inv := by
  rcases thenIfOk_cases f g s with ⟨-, he⟩ | ⟨-, he⟩ <;> rw [he]
  · exact hg (hf h)
  · exact hf h

theorem result_inv (i : Instr) : (result i s).Inv := by
  cases i with
  | send => exact sendPacket_inv h
  | recv maxb tmo => exact receivePacket_inv h maxb tmo
  | encf => exact encodeFrame_inv h
  | decf => exact decodeFrame_inv h
  | txf => exact thenIfOk_inv h encodeFrame_inv sendPacket_inv
  | rxf maxb tmo => exact thenIfOk_inv h (fun hu => receivePacket_inv hu maxb tmo) decodeFrame_inv

/-- So does every command word: an illegal one only ends with IllegalOp (spec/30_encoding.md R51). -/
theorem commandResult_inv (w : Word) : (commandResult w s).Inv := by
  unfold commandResult
  cases decode w with
  | ok i => exact result_inv h i
  | error _ => exact h.finish_zero .illegalOp (by decide)

end

/-! ## Host writes -/

/-- No host write reaches the parameters, the latches, `STATUS` or `NWORDS` (spec/20_memory.md R32). -/
theorem memWrite_keeps (addr : BitVec 14) (v : Word) (s : State) :
    (memWrite addr v s).params = s.params ∧ (memWrite addr v s).drvA = s.drvA ∧ (memWrite addr v s).drvB = s.drvB ∧
      (memWrite addr v s).status = s.status ∧ (memWrite addr v s).nwords = s.nwords := by
  unfold memWrite
  cases s.locationAt addr <;> exact ⟨rfl, rfl, rfl, rfl, rfl⟩

theorem memWrite_inv {s : State} (h : s.Inv) (addr : BitVec 14) (v : Word) : (memWrite addr v s).Inv := by
  obtain ⟨hP, hR, hS, hN, hB⟩ := h
  have hbuf := State.writeLocation_buffers s addr v hB
  obtain ⟨eP, eA, eB, eS, eN⟩ := memWrite_keeps addr v s
  simpa only [State.Inv, State.Released, State.BuffersWf, eP, eA, eB, eS, eN] using And.intro hP ⟨hR, hS, hN, hbuf⟩

/-! ## Steps -/

/-- Settles O8: the case split is that of `step_cases`, one case for each kind of event. -/
theorem stepKeepsTheInvariant : Obligations.StepKeepsTheInvariant := by
  intro s t h hstep
  rcases step_cases hstep with ⟨-, rfl⟩ | ⟨addr, rest, -, rfl⟩ | ⟨w, rest, -, rfl⟩ | ⟨addr, v, rest, -, -, rfl⟩ |
    ⟨rest, -, rfl⟩ | ⟨w, ticks, rest, -, rfl⟩
  · exact h
  · exact (h.withPending rest).emit _
  · exact (commandResult_inv (h.withPending rest) w).emit _
  · exact (memWrite_inv (h.withPending rest) addr v).emit _
  · exact (h.withPending rest).restart
  · exact (h.withPending rest).abandon _ ticks

/-- Settles O9: after reset the invariant is the legality of the parameters, which the reference ones have. -/
theorem resetMeetsTheInvariant : Obligations.ResetMeetsTheInvariant :=
  ⟨fun P => (State.reset_inv_iff P).2, reference_params_wf, (State.reset_inv_iff Params.reference).2 reference_params_wf⟩

end Sys2Proof.Machine
end

section
/-! What every operation leaves unchanged and how it ends: a chained operation from its two halves, the frames of TXF and RXF, and the
legal `STATUS` with both lines released. -/

namespace Sys2Proof.Machine

/-! ## Chained operations -/

/-- What the first half establishes and the second half keeps, the chained operation establishes (spec/43_operation_laws.md R113). -/
theorem thenIfOk_induction {P : State → Prop} {f g : State → State} {s : State} (hf : P (f s))
    (hg : ∀ u, P u → P (g u)) : P (thenIfOk f g s) := by
  rcases thenIfOk_cases f g s with ⟨-, he⟩ | ⟨-, he⟩ <;> rw [he]
  · exact hg _ hf
  · exact hf

/-- A chained operation depends on its first half's result only. -/
theorem thenIfOk_congr {f : State → State} {s s' : State} (g : State → State) (h : f s = f s') :
    thenIfOk f g s = thenIfOk f g s' := by
  rw [thenIfOk, thenIfOk, h]

/-- TXF writes what ENCF and SEND write (spec/42_transactions.md R110). -/
theorem txf_frame (s : State) :
    result .txf s =
      { s with
        status := (result .txf s).status, drvA := true, drvB := true
        txlen := (result .txf s).txlen, txbuf := (result .txf s).txbuf
        outputs := (result .txf s).outputs, driveTicks := (result .txf s).driveTicks } := by
  simp only [result]
  rcases thenIfOk_cases encodeFrame sendPacket s with ⟨-, he⟩ | ⟨-, he⟩ <;> rw [he]
  · rw [sendPacket_frame, encodeFrame_frame]
  · rw [encodeFrame_frame]

/-- RXF writes what RECV and DECF write (spec/42_transactions.md R111). -/
theorem rxf_frame (maxb tmo : Nat) (s : State) :
    result (.rxf maxb tmo) s =
      { s with
        status := (result (.rxf maxb tmo) s).status, drvA := true, drvB := true
        rxlen := (result (.rxf maxb tmo) s).rxlen, rxbuf := (result (.rxf maxb tmo) s).rxbuf
        peer := (result (.rxf maxb tmo) s).peer, hdr := (result (.rxf maxb tmo) s).hdr
        nwords := (result (.rxf maxb tmo) s).nwords, pw := (result (.rxf maxb tmo) s).pw } := by
  simp only [result]
  rcases thenIfOk_cases (receivePacket maxb tmo) decodeFrame s with ⟨-, he⟩ | ⟨-, he⟩ <;> rw [he]
  · rw [decodeFrame_frame, receivePacket_frame]
  · rw [receivePacket_frame]

/-! ## The end of an operation -/

/-- The state an operation leaves behind: a legal `STATUS` and both lines released (spec/60_exceptions.md R125). -/
def State.Ended (t : State) : Prop := t.status ∈ legalStatuses ∧ t.Released

theorem State.finish_ended (s : State) (c : Code) (hc : c ≠ .frameError) : (s.finish c 0).Ended :=
  ⟨statusBits_zero_mem_legalStatuses c hc, rfl, rfl⟩

theorem State.received_ended (s : State) (r : Reception) : (s.received r).Ended :=
  ⟨r.verdict.status_mem_legalStatuses, rfl, rfl⟩

theorem sendPacket_ended (s : State) : (sendPacket s).Ended := by
  by_cases h : s.SendFits
  · rw [sendPacket, if_pos h]
    exact State.finish_ended _ .ok (by decide)
  · rw [sendPacket_rejects s h]
    exact State.finish_ended _ .operandError (by decide)

theorem encodeFrame_ended (s : State) : (encodeFrame s).Ended := by
  by_cases h : s.EncodeFits
  · rw [encodeFrame_fits s h]
    exact State.finish_ended _ .ok (by decide)
  · rw [encodeFrame_rejects s h]
    exact State.finish_ended _ .operandError (by decide)

theorem decodeFrame_ended (s : State) : (decodeFrame s).Ended := by
  rcases decodeFrame_cases s with ⟨g, -, -, -, he⟩ | he | ⟨-, he⟩ | ⟨-, he⟩ <;> rw [he]
  · exact State.finish_ended _ .ok (by decide)
  · exact State.finish_ended _ .lengthError (by decide)
  · exact State.finish_ended _ .checksumError (by decide)
  · exact State.finish_ended _ .operandError (by decide)

theorem receivePacket_ended (maxb tmo : Nat) (s : State) : (receivePacket maxb tmo s).Ended := by
  rcases receivePacket_cases s maxb tmo with ⟨-, he⟩ | ⟨-, p, -, -, -, he⟩ | ⟨-, r, -, -, -, -, -, -, he⟩ <;> rw [he]
  · exact State.finish_ended _ .operandError (by decide)
  · exact State.finish_ended _ .timeout (by decide)
  · exact s.received_ended r

theorem result_ended (i : Instr) (s : State) : (result i s).Ended := by
  cases i with
  | send => exact sendPacket_ended s
  | recv maxb tmo => exact receivePacket_ended maxb tmo s
  | encf => exact encodeFrame_ended s
  | decf => exact decodeFrame_ended s
  | txf => exact thenIfOk_induction (encodeFrame_ended s) (fun u _ => sendPacket_ended u)
  | rxf maxb tmo => exact thenIfOk_induction (receivePacket_ended maxb tmo s) (fun u _ => decodeFrame_ended u)

/-- The legal statuses in hexadecimal, and what their two fields can hold (spec/60_exceptions.md R120, R121). -/
theorem legalStatuses_fields :
    ∀ x ∈ legalStatuses,
      x ∈ [0x000, 0x0FF, 0x1FE, 0x2FE, 0x3FE, 0x4FE, 0x0FD, 0x0FC, 0x0FB, 0x0FA, 0x0F9] ∧
      (x.extractLsb' 8 4 ≠ 0 ↔ x.extractLsb' 0 8 = 0xFE) ∧
      (x.extractLsb' 0 8 = 0 ∨ (x.extractLsb' 0 8).toInt < 0) := by decide

/-- Settles O43: every operation ends in `finish` with a status of the list, whose fields are then looked up. -/
theorem everyOperationLeavesALegalStatus : Obligations.EveryOperationLeavesALegalStatus := by
  intro i s t h
  obtain rfl := (exec_next_iff i s t).1 h
  obtain ⟨hstatus, hA, hB⟩ := result_ended i s
  obtain ⟨hlist, hdetail, hcode⟩ := legalStatuses_fields _ hstatus
  exact ⟨hlist, hdetail, hcode, hA, hB⟩

/-- Settles O44: the frame of each operation, read clause by clause; `own` marks the clauses that exempt it. -/
theorem eachOperationWritesOnlyItsOwnState : Obligations.EachOperationWritesOnlyItsOwnState := by
  intro i s t h
  obtain rfl := (exec_next_iff i s t).1 h
  cases i with
  | send =>
    rw [show result .send s = sendPacket s from rfl, sendPacket_frame]
    exact ⟨rfl, rfl, rfl, rfl, fun own => absurd rfl own, fun _ _ => ⟨rfl, rfl, fun _ => rfl⟩,
      fun _ _ => ⟨rfl, fun _ => rfl⟩, fun _ _ => ⟨rfl, rfl, fun _ => rfl⟩⟩
  | recv maxb tmo =>
    rw [show result (.recv maxb tmo) s = receivePacket maxb tmo s from rfl, receivePacket_frame]
    exact ⟨rfl, rfl, rfl, rfl, fun _ _ => ⟨rfl, rfl⟩, fun own => absurd rfl own,
      fun _ _ => ⟨rfl, fun _ => rfl⟩, fun _ _ => ⟨rfl, rfl, fun _ => rfl⟩⟩
  | encf =>
    rw [show result .encf s = encodeFrame s from rfl, encodeFrame_frame]
    exact ⟨rfl, rfl, rfl, rfl, fun _ _ => ⟨rfl, rfl⟩, fun _ _ => ⟨rfl, rfl, fun _ => rfl⟩,
      fun own => absurd rfl own, fun _ _ => ⟨rfl, rfl, fun _ => rfl⟩⟩
  | decf =>
    rw [show result .decf s = decodeFrame s from rfl, decodeFrame_frame]
    exact ⟨rfl, rfl, rfl, rfl, fun _ _ => ⟨rfl, rfl⟩, fun _ _ => ⟨rfl, rfl, fun _ => rfl⟩,
      fun _ _ => ⟨rfl, fun _ => rfl⟩, fun own => absurd rfl own⟩
  | txf =>
    rw [txf_frame]
    exact ⟨rfl, rfl, rfl, rfl, fun _ own => absurd rfl own, fun _ _ => ⟨rfl, rfl, fun _ => rfl⟩,
      fun _ own => absurd rfl own, fun _ _ => ⟨rfl, rfl, fun _ => rfl⟩⟩
  | rxf maxb tmo =>
    rw [rxf_frame]
    exact ⟨rfl, rfl, rfl, rfl, fun _ _ => ⟨rfl, rfl⟩, fun _ own => absurd rfl own,
      fun _ _ => ⟨rfl, fun _ => rfl⟩, fun _ own => absurd rfl own⟩

end Sys2Proof.Machine
end

section
/-! No operation reads the `STATUS` it finds: `finish` overwrites it, and nothing before `finish` looks at it. -/

namespace Sys2Proof.Machine

theorem sendPacket_withStatus (s : State) (x : BitVec 12) : sendPacket { s with status := x } = sendPacket s := by
  by_cases h : s.SendFits
  · rw [sendPacket_fits s h]
    exact sendPacket_fits _ h
  · rw [sendPacket_rejects s h]
    exact sendPacket_rejects _ h

theorem encodeFrame_withStatus (s : State) (x : BitVec 12) : encodeFrame { s with status := x } = encodeFrame s := rfl

theorem decodeFrame_withStatus (s : State) (x : BitVec 12) : decodeFrame { s with status := x } = decodeFrame s := rfl

theorem receivePacket_withStatus (maxb tmo : Nat) (s : State) (x : BitVec 12) :
    receivePacket maxb tmo { s with status := x } = receivePacket maxb tmo s := rfl

theorem result_withStatus (i : Instr) (s : State) (x : BitVec 12) : result i { s with status := x } = result i s := by
  cases i with
  | send => exact sendPacket_withStatus s x
  | recv maxb tmo => exact receivePacket_withStatus maxb tmo s x
  | encf => exact encodeFrame_withStatus s x
  | decf => exact decodeFrame_withStatus s x
  | txf => exact thenIfOk_congr sendPacket (encodeFrame_withStatus s x)
  | rxf maxb tmo => exact thenIfOk_congr decodeFrame (receivePacket_withStatus maxb tmo s x)

/-- Settles O46: a chained operation hands on what its first half leaves, and no first half reads the old status. -/
theorem operationsDoNotReadOldStatus : Obligations.OperationsDoNotReadOldStatus := by
  intro i s x
  rw [exec_eq, exec_eq, result_withStatus]

end Sys2Proof.Machine
end

section
/-! Buffer elements once written keep a value of their own until a reset: the relation `State.KeepsWritten` between the states before
and after, which every event at the port but a reset establishes. -/

namespace Sys2Proof.Machine

/-- Every element with a value of its own in the first buffer has one in the second. -/
def Memory.CoveredBy {w : Nat} (m m' : Memory w) : Prop := ∀ i, m'.find i = none → m.find i = none

theorem Memory.CoveredBy.rfl {w : Nat} {m : Memory w} : m.CoveredBy m := fun _ h => h

theorem Memory.coveredBy_store {w : Nat} (m : Memory w) (i : Nat) (v : BitVec w) : m.CoveredBy (m.store i v) :=
  fun k => m.find_store_none i k v

theorem Memory.coveredBy_storeAll {w : Nat} (m : Memory w) (base : Nat) (vs : List (BitVec w)) :
    m.CoveredBy (m.storeAll base vs) := fun k => Memory.find_storeAll_none vs m base k

/-- No reset lies between the two states, and no buffer element loses the value it was given. -/
structure State.KeepsWritten (s t : State) : Prop where
  epoch : t.epoch = s.epoch
  txbuf : s.txbuf.CoveredBy t.txbuf
  rxbuf : s.rxbuf.CoveredBy t.rxbuf
  pw : s.pw.CoveredBy t.pw

theorem State.KeepsWritten.trans {s t u : State} (h : s.KeepsWritten t) (h' : t.KeepsWritten u) : s.KeepsWritten u where
  epoch := h'.epoch.trans h.epoch
  txbuf i hi := h.txbuf i (h'.txbuf i hi)
  rxbuf i hi := h.rxbuf i (h'.rxbuf i hi)
  pw i hi := h.pw i (h'.pw i hi)

/-- Registers, latches, inputs and outputs do not matter. -/
theorem State.KeepsWritten.of_eq {s t : State} (he : t.epoch = s.epoch) (ht : t.txbuf = s.txbuf) (hr : t.rxbuf = s.rxbuf)
    (hp : t.pw = s.pw) : s.KeepsWritten t :=
  ⟨he, ht ▸ .rfl, hr ▸ .rfl, hp ▸ .rfl⟩

theorem State.KeepsWritten.emit {s t : State} (h : s.KeepsWritten t) (o : Output) : s.KeepsWritten (t.emit o) :=
  h.trans (.of_eq rfl rfl rfl rfl)

/-- Taking the events from the port writes no buffer. -/
theorem State.KeepsWritten.of_withPending {s t : State} {rest : List PortEvent}
    (h : ({ s with pending := rest } : State).KeepsWritten t) : s.KeepsWritten t := ⟨h.epoch, h.txbuf, h.rxbuf, h.pw⟩

theorem State.finish_keepsWritten (s : State) (c : Code) (d : BitVec 4) : s.KeepsWritten (s.finish c d) :=
  .of_eq rfl rfl rfl rfl

theorem sendPacket_keepsWritten (s : State) : s.KeepsWritten (sendPacket s) := by
  rw [sendPacket_frame]
  exact .of_eq rfl rfl rfl rfl

theorem encodeFrame_keepsWritten (s : State) : s.KeepsWritten (encodeFrame s) := by
  by_cases h : s.EncodeFits
  · rw [encodeFrame_fits s h]
    exact ⟨rfl, s.txbuf.coveredBy_storeAll 0 _, .rfl, .rfl⟩
  · rw [encodeFrame_rejects s h]
    exact s.finish_keepsWritten _ _

theorem State.deliver_keepsWritten (s : State) (g : Nat) : s.KeepsWritten (s.deliver g) :=
  ⟨rfl, .rfl, .rfl, s.pw.coveredBy_storeAll 0 _⟩

theorem decodeFrame_keepsWritten (s : State) : s.KeepsWritten (decodeFrame s) := by
  rcases decodeFrame_cases s with ⟨g, -, -, -, he⟩ | he | ⟨-, he⟩ | ⟨-, he⟩ <;> rw [he]
  · exact (s.deliver_keepsWritten g).trans (State.finish_keepsWritten _ _ _)
  all_goals exact s.finish_keepsWritten _ _

theorem receivePacket_keepsWritten (maxb tmo : Nat) (s : State) : s.KeepsWritten (receivePacket maxb tmo s) := by
  rcases receivePacket_cases s maxb tmo with ⟨-, he⟩ | ⟨-, p, -, -, -, he⟩ | ⟨-, r, -, -, -, -, -, -, he⟩ <;> rw [he]
  · exact s.finish_keepsWritten _ _
  · exact .of_eq rfl rfl rfl rfl
  · exact ⟨rfl, .rfl, s.rxbuf.coveredBy_storeAll 0 _, .rfl⟩

theorem result_keepsWritten (i : Instr) (s : State) : s.KeepsWritten (result i s) := by
  cases i with
  | send => exact sendPacket_keepsWritten s
  | recv maxb tmo => exact receivePacket_keepsWritten maxb tmo s
  | encf => exact encodeFrame_keepsWritten s
  | decf => exact decodeFrame_keepsWritten s
  | txf => exact thenIfOk_induction (encodeFrame_keepsWritten s) (fun u hu => hu.trans (sendPacket_keepsWritten u))
  | rxf maxb tmo =>
    exact thenIfOk_induction (receivePacket_keepsWritten maxb tmo s) (fun u hu => hu.trans (decodeFrame_keepsWritten u))

theorem commandResult_keepsWritten (w : Word) (s : State) : s.KeepsWritten (commandResult w s) := by
  unfold commandResult
  cases decode w with
  | ok i => exact result_keepsWritten i s
  | error _ => exact s.finish_keepsWritten _ _

theorem memWrite_keepsWritten (addr : BitVec 14) (v : Word) (s : State) : s.KeepsWritten (memWrite addr v s) := by
  unfold memWrite
  cases s.locationAt addr with
  | txbuf i => exact ⟨rfl, s.txbuf.coveredBy_store i _, .rfl, .rfl⟩
  | rxbuf i => exact ⟨rfl, .rfl, s.rxbuf.coveredBy_store i _, .rfl⟩
  | pw i => exact ⟨rfl, .rfl, .rfl, s.pw.coveredBy_store i _⟩
  | _ => exact .of_eq rfl rfl rfl rfl

/-- A step that is no reset keeps what has been written. -/
theorem step_keepsWritten {s t : State} (h : step s = .next t) (he : t.epoch = s.epoch) : s.KeepsWritten t := by
  rcases step_cases h with ⟨-, rfl⟩ | ⟨addr, rest, -, rfl⟩ | ⟨w, rest, -, rfl⟩ | ⟨addr, v, rest, -, -, rfl⟩ |
    ⟨rest, -, rfl⟩ | ⟨w, ticks, rest, -, rfl⟩
  · exact .of_eq rfl rfl rfl rfl
  · exact .of_eq rfl rfl rfl rfl
  · exact ((commandResult_keepsWritten w _).emit _).of_withPending
  · exact ((memWrite_keepsWritten addr v _).emit _).of_withPending
  · exact absurd he (Nat.succ_ne_self _)
  · exact absurd he (Nat.succ_ne_self _)

/-- Settles O10: an element without a value reads as its draw, which is fixed by the number of resets. -/
theorem unwrittenElementsKeepTheirDraw : Obligations.UnwrittenElementsKeepTheirDraw := by
  intro s t h he
  obtain ⟨-, htx, hrx, hpw⟩ := step_keepsWritten h he
  refine ⟨fun i hi => ⟨htx i hi, ?_⟩, fun i hi => ⟨hrx i hi, ?_⟩, fun i hi => ⟨hpw i hi, ?_⟩⟩
  · rw [State.txByte, State.txByte, hi, htx i hi, he]
  · rw [State.rxByte, State.rxByte, hi, hrx i hi, he]
  · rw [State.pwWord, State.pwWord, hi, hpw i hi, he]

end Sys2Proof.Machine
end

section
/-! The command word of a well-formed operation read back field by field, and the step that runs it; what reset leaves. -/

namespace Sys2Proof.Machine

section
variable (o : BitVec 4) (m : BitVec 12) (t : BitVec 16)

theorem opcField_append : opcField (o ++ m ++ t) = o := by
  rw [opcField, BitVec.extractLsb'_append_eq_of_le (by decide)]
  exact BitVec.extractLsb'_append_eq_left

theorem maxbField_append : maxbField (o ++ m ++ t) = m := by
  rw [maxbField, BitVec.extractLsb'_append_eq_of_le (by decide)]
  exact BitVec.extractLsb'_append_eq_right

theorem tmoField_append : tmoField (o ++ m ++ t) = t := BitVec.extractLsb'_append_eq_right

end

/-- The operands of a command word that fit their fields are read back as they stand (spec/30_encoding.md R48, R49). -/
theorem operands_read_back (o : BitVec 4) {maxb tmo : Nat} (h : OperandsFit maxb tmo) :
    (maxbField (o ++ BitVec.ofNat 12 maxb ++ BitVec.ofNat 16 tmo)).toNat = maxb ∧
      (tmoField (o ++ BitVec.ofNat 12 maxb ++ BitVec.ofNat 16 tmo)).toNat = tmo := by
  obtain ⟨hm, ht⟩ := h
  rw [maxbField_append, tmoField_append, BitVec.toNat_ofNat, BitVec.toNat_ofNat]
  exact ⟨Nat.mod_eq_of_lt (by omega), Nat.mod_eq_of_lt (by omega)⟩

/-- The command word of a well-formed operation decodes to it (spec/30_encoding.md R46, R53). -/
theorem decode_encode (i : Instr) (h : i.WellFormed) : decode (encode i) = .ok i := by
  cases i with
  | send => rfl
  | recv maxb tmo =>
    obtain ⟨hm, ht⟩ := operands_read_back 2 (of_decide_eq_true h)
    simp only [decode, encode, Instr.opc, Instr.maxbBits, Instr.tmoBits, opcField_append, hm, ht]
    rfl
  | encf => rfl
  | decf => rfl
  | txf => rfl
  | rxf maxb tmo =>
    obtain ⟨hm, ht⟩ := operands_read_back 6 (of_decide_eq_true h)
    simp only [decode, encode, Instr.opc, Instr.maxbBits, Instr.tmoBits, opcField_append, hm, ht]
    rfl

/-- The step of a command word that is legal (spec/10_state.md R18, spec/30_encoding.md R53). -/
theorem step_instr (s : State) (w : Word) (i : Instr) (rest : List PortEvent) (hw : decode w = .ok i)
    (hp : s.pending = .write 0 w :: rest) :
    step s = .next ((result i { s with pending := rest }).emit .writeAck) := by
  rw [step_command s w rest hp, commandResult, hw]

theorem commandWord_toNat (w : Word) : commandWord 32 w.toNat = w := by
  rw [commandWord, Nat.mod_eq_of_lt w.isLt, BitVec.ofNat_toNat, BitVec.setWidth_eq]

/-- Settles O6: the step of a legal command word, and the word `withFetchWord` places is one. -/
theorem stepRunsTheDecodedInstruction : Obligations.StepRunsTheDecodedInstruction := by
  refine ⟨fun s w i rest hw hp => ⟨_, exec_eq i _, step_instr s w i rest hw hp⟩, fun s i hi => ⟨_, exec_eq i s, ?_⟩⟩
  rw [State.withFetchWord, commandWord_toNat]
  exact step_instr _ _ i s.pending (decode_encode i hi) rfl

/-- Settles O11: reset lists no element of any buffer, so each reads as its draw. -/
theorem resetLeavesRegistersZero : Obligations.ResetLeavesRegistersZero :=
  ⟨rfl, rfl, rfl, rfl, rfl, rfl, rfl, rfl, fun _ => ⟨rfl, rfl, rfl⟩⟩

end Sys2Proof.Machine
end

section
/-! Host writes: the used bits and the address of each location, a read after a write to the same and to another location, and the
write-read law at addresses. -/

namespace Sys2Proof.Machine

/-- The bits of a location that a host write stores (spec/20_memory.md R32, column "Bits used"). -/
def Location.usedBits : Location → Word
  | .op | .status | .nwords | .reserved => 0
  | .ctrl => 0x00000001
  | .hdr | .pw _ => 0xFFFFFFFF
  | .txlen | .rxlen => 0x00000FFF
  | .txbuf _ | .rxbuf _ => 0x000000FF

/-- The byte address of a location; of a reserved one any number would do (spec/20_memory.md R32). -/
def Location.address : Location → Nat
  | .op | .reserved => 0x0000
  | .status => 0x0004
  | .ctrl => 0x0008
  | .hdr => 0x000C
  | .nwords => 0x0010
  | .txlen => 0x0014
  | .rxlen => 0x0018
  | .txbuf i => 0x1000 + 4 * i
  | .rxbuf i => 0x5000 + 4 * i
  | .pw i => 0x9000 + 4 * i

/-- The table of the statements gives an address the used bits of the location that stands there. -/
theorem writableBits_eq_usedBits (P : Params) (hP : P.Wf) (a : Nat) (h4 : a % 4 = 0) :
    Claims.writableBits P a = (locate P a).usedBits := by
  obtain ⟨-, -, ⟨-, ht⟩, ⟨-, hr⟩, -⟩ := hP.sizes
  unfold Claims.writableBits
  rcases locate_inv P a h4 with
    ⟨hl, ha⟩ | ⟨hl, ha⟩ | ⟨hl, ha⟩ | ⟨hl, ha⟩ | ⟨hl, ha⟩ | ⟨hl, ha⟩ | ⟨hl, ha⟩ | ⟨i, hl, hi, hi', ha⟩ |
    ⟨i, hl, hi, hi', ha⟩ | ⟨i, hl, hi, ha⟩ | ⟨hl, h1, h2, h3, h5⟩
  -- each branch of the table agrees with the location or contradicts its address
  all_goals
    rw [hl]
    dsimp only [Location.usedBits]
    split_ifs <;> first | rfl | omega

/-- Each location but the reserved one stands at one address only. -/
theorem address_locate (P : Params) (a : Nat) (h4 : a % 4 = 0) (h : locate P a ≠ .reserved) : (locate P a).address = a := by
  rcases locate_inv P a h4 with
    ⟨hl, ha⟩ | ⟨hl, ha⟩ | ⟨hl, ha⟩ | ⟨hl, ha⟩ | ⟨hl, ha⟩ | ⟨hl, ha⟩ | ⟨hl, ha⟩ | ⟨i, hl, -, -, ha⟩ |
    ⟨i, hl, -, -, ha⟩ | ⟨i, hl, -, ha⟩ | ⟨hl, -⟩
  all_goals first | exact absurd hl h | rw [hl, ha]; rfl

theorem State.address_locationAt (s : State) (addr : BitVec 14) (h : s.locationAt addr ≠ .reserved) :
    (s.locationAt addr).address = 4 * addr.toNat := address_locate _ _ (by omega) h

theorem State.locationAt_injective (s : State) {a b : BitVec 14} (ha : s.locationAt a ≠ .reserved)
    (h : s.locationAt b = s.locationAt a) : b = a := by
  have hb := s.address_locationAt b (h ▸ ha)
  rw [h, s.address_locationAt a ha] at hb
  exact BitVec.eq_of_toNat_eq (by omega)

section
variable (s : State) (v : Word)

/-- A location none of whose bits is used ignores writes (spec/20_memory.md R33). -/
theorem State.writeLocation_unused (l : Location) (h : l.usedBits = 0) : s.writeLocation v l = s := by
  cases l with
  | op | status | nwords | reserved => rfl
  | ctrl | hdr | txlen | rxlen | txbuf _ | rxbuf _ | pw _ => exact absurd h (by simp [Location.usedBits])

/-- A read of the location written gives the used bits of the value (spec/10_state.md R26). -/
theorem State.readLocation_writeLocation_same (l : Location) (h : l.usedBits ≠ 0) :
    (s.writeLocation v l).readLocation l = v &&& l.usedBits := by
  cases l with
  | op | status | nwords | reserved => exact absurd rfl h
  | ctrl => exact usedBit_eq_and v
  | hdr => exact (allBits_and v).symm
  | txlen | rxlen => exact usedLength_eq_and v
  | txbuf i =>
    simp only [State.writeLocation, State.readLocation, State.txByte_store, if_true]
    exact usedByte_eq_and v
  | rxbuf i =>
    simp only [State.writeLocation, State.readLocation, State.rxByte_store, if_true]
    exact usedByte_eq_and v
  | pw i =>
    simp only [State.writeLocation, State.readLocation, State.pwWord_store, if_true]
    exact (allBits_and v).symm

/-- A read of any other location gives what it gave before. -/
theorem State.readLocation_writeLocation_other (l k : Location) (h : k ≠ l) :
    (s.writeLocation v l).readLocation k = s.readLocation k := by
  cases l with
  | txbuf i =>
    cases k with
    | txbuf j =>
      have hji : j ≠ i := fun e => h (e ▸ rfl)
      simp only [State.writeLocation, State.readLocation, State.txByte_store, if_neg hji]
    | _ => rfl
  | rxbuf i =>
    cases k with
    | rxbuf j =>
      have hji : j ≠ i := fun e => h (e ▸ rfl)
      simp only [State.writeLocation, State.readLocation, State.rxByte_store, if_neg hji]
    | _ => rfl
  | pw i =>
    cases k with
    | pw j =>
      have hji : j ≠ i := fun e => h (e ▸ rfl)
      simp only [State.writeLocation, State.readLocation, State.pwWord_store, if_neg hji]
    | _ => rfl
  | _ => cases k <;> first | rfl | exact absurd rfl h

/-- A host write reaches the registers and buffers the host may write, and nothing else (spec/20_memory.md R32). -/
theorem memWrite_frame (addr : BitVec 14) :
    memWrite addr v s =
      { s with
        ctrl := (memWrite addr v s).ctrl, hdr := (memWrite addr v s).hdr
        txlen := (memWrite addr v s).txlen, rxlen := (memWrite addr v s).rxlen
        txbuf := (memWrite addr v s).txbuf, rxbuf := (memWrite addr v s).rxbuf, pw := (memWrite addr v s).pw } := by
  unfold memWrite
  cases s.locationAt addr <;> rfl

/-- The parameters, and so the address map, are the same after a host write. -/
theorem memRead_memWrite (addr b : BitVec 14) :
    memRead b (memWrite addr v s) = (s.writeLocation v (s.locationAt addr)).readLocation (s.locationAt b) := by
  obtain ⟨hP, -⟩ := memWrite_keeps addr v s
  rw [memRead, State.locationAt, hP]
  rfl

/-- What a read finds after a host write: at an address with used bits those of the value, elsewhere what was there. -/
theorem memRead_memWrite_eq (addr b : BitVec 14) :
    memRead b (memWrite addr v s) =
      if b = addr ∧ (s.locationAt addr).usedBits ≠ 0 then v &&& (s.locationAt addr).usedBits else memRead b s := by
  rw [memRead_memWrite]
  by_cases hu : (s.locationAt addr).usedBits = 0
  · rw [if_neg (fun hc => hc.2 hu), State.writeLocation_unused s v _ hu]
    rfl
  · by_cases hb : b = addr
    · rw [if_pos ⟨hb, hu⟩, hb, State.readLocation_writeLocation_same s v _ hu]
    · have hres : s.locationAt addr ≠ .reserved := fun e => hu (e ▸ rfl)
      have hne : s.locationAt b ≠ s.locationAt addr := fun e => hb (s.locationAt_injective hres e)
      rw [if_neg (fun hc => hb hc.1), State.readLocation_writeLocation_other s v _ _ hne]
      rfl

end

/-- Settles O14: the write-read law of the host port; neither the event taken nor the acknowledgement is read by a host access. -/
theorem hostWriteIsReadBackAtItsAddressOnly : Obligations.HostWriteIsReadBackAtItsAddressOnly := by
  intro s addr v rest hP h0 hp
  refine ⟨_, step_write s addr v rest h0 hp, fun b => ?_, ?_⟩
  · rw [writableBits_eq_usedBits s.params hP _ (by omega)]
    exact memRead_memWrite_eq { s with pending := rest } v addr b
  · rw [memWrite_frame]
    rfl

end Sys2Proof.Machine
end

section
/-! Host reads by address, and reserved addresses: what the address map gives at an address is what a read returns, and an address
outside the map is reserved (spec/20_memory.md R31 to R33). -/

namespace Sys2Proof.Machine

/-- An address at which the map has nothing is reserved (spec/20_memory.md R33). -/
theorem locate_unmapped (P : Params) (a : Nat) (h4 : a % 4 = 0) (h : ¬ Claims.Mapped P a) : locate P a = .reserved := by
  unfold Claims.Mapped at h
  rcases locate_inv P a h4 with
    ⟨-, ha⟩ | ⟨-, ha⟩ | ⟨-, ha⟩ | ⟨-, ha⟩ | ⟨-, ha⟩ | ⟨-, ha⟩ | ⟨-, ha⟩ | ⟨i, -, hi, -, ha⟩ | ⟨i, -, hi, -, ha⟩ |
    ⟨i, -, hi, ha⟩ | ⟨hl, -⟩
  on_goal 11 => exact hl
  -- at every other location the map has a register or an element
  all_goals omega

section
variable {s : State} {addr : BitVec 14}

theorem State.locationAt_unmapped (h : ¬ Claims.Mapped s.params (4 * addr.toNat)) : s.locationAt addr = .reserved :=
  locate_unmapped _ _ (by omega) h

/-- A reserved address reads 0 (spec/20_memory.md R33). -/
theorem memRead_unmapped (h : ¬ Claims.Mapped s.params (4 * addr.toNat)) : memRead addr s = 0 := by
  rw [memRead, State.locationAt_unmapped h]
  rfl

/-- A reserved address ignores writes (spec/20_memory.md R33). -/
theorem memWrite_unmapped (v : Word) (h : ¬ Claims.Mapped s.params (4 * addr.toNat)) : memWrite addr v s = s := by
  rw [memWrite, State.locationAt_unmapped h]
  rfl

/-- A read gives the value of the location that stands at the byte address (spec/20_memory.md R31). -/
theorem memRead_of_locate {a : Nat} {l : Location} (ha : 4 * addr.toNat = a) (hl : locate s.params a = l) :
    memRead addr s = s.readLocation l := by
  rw [memRead, State.locationAt, ha, hl]

/-- A location narrower than the port's word reads with its unused bits 0 (spec/20_memory.md R32). -/
theorem memRead_toNat_of_locate {a w : Nat} {l : Location} {x : BitVec w} (ha : 4 * addr.toNat = a)
    (hl : locate s.params a = l) (hx : s.readLocation l = x.zeroExtend 32) (hw : w ≤ 32) :
    (memRead addr s).toNat = x.toNat := by
  rw [memRead_of_locate ha hl, hx]
  exact BitVec.toNat_setWidth_of_le hw

end

/-- Settles O13: the value read is that of the location at the address, and the map is evaluated there for each clause. -/
theorem hostReadFollowsTheAddressMap : Obligations.HostReadFollowsTheAddressMap := by
  intro s addr rest hP hp
  obtain ⟨-, -, ⟨-, ht⟩, ⟨-, hr⟩, -⟩ := hP.sizes
  refine ⟨memRead addr s, step_read s addr rest hp, ?op, ?status, ?ctrl, ?hdr, ?nwords, ?txlen, ?rxlen, ?txbuf, ?rxbuf, ?pw,
    memRead_unmapped⟩
  case op => exact fun ha => memRead_of_locate (l := .op) ha rfl
  case hdr => exact fun ha => memRead_of_locate (l := .hdr) ha rfl
  case status => exact fun ha => memRead_toNat_of_locate (l := .status) ha rfl rfl (by decide)
  case ctrl => exact fun ha => memRead_toNat_of_locate (l := .ctrl) ha rfl rfl (by decide)
  case nwords => exact fun ha => memRead_toNat_of_locate (l := .nwords) ha rfl rfl (by decide)
  case txlen => exact fun ha => memRead_toNat_of_locate (l := .txlen) ha rfl rfl (by decide)
  case rxlen => exact fun ha => memRead_toNat_of_locate (l := .rxlen) ha rfl rfl (by decide)
  case txbuf => exact fun i hi ha => memRead_toNat_of_locate ha (locate_txbuf s.params i ht hi) rfl (by decide)
  case rxbuf => exact fun i hi ha => memRead_toNat_of_locate ha (locate_rxbuf s.params i hr hi) rfl (by decide)
  case pw => exact fun i hi ha => memRead_of_locate ha (locate_pw s.params i hi)

/-- Settles O15: a reserved address is not `OP`, which is mapped, so a write there is no command. -/
theorem reservedAddressesReadZeroAndIgnoreWrites : Obligations.ReservedAddressesReadZeroAndIgnoreWrites := by
  intro s addr v rest _ hmap
  have h0 : addr ≠ 0 := by
    rintro rfl
    exact hmap (.inl (by decide))
  refine ⟨fun hp => ?_, fun hp => ?_⟩
  · rw [step_read s addr rest hp, memRead_unmapped (s := { s with pending := rest }) hmap]
    rfl
  · rw [step_write s addr v rest h0 hp, memWrite_unmapped (s := { s with pending := rest }) v hmap]
    rfl

end Sys2Proof.Machine
end

section
/-! The transmit trace bit by bit: where the three states of each bit stand in it, and what they are (spec/40_transport.md R61 to R63,
R68). -/

namespace Sys2Proof

/-- Every byte begins with line A as the clock line (spec/40_transport.md R62). -/
theorem clockLine_byte_add (i k : Nat) : clockLine (8 * i + k) = clockLine k := by
  unfold clockLine
  rw [show (8 * i + k) % 2 = k % 2 by omega]

/-- State `m` of bit `k` of byte `i` stands in the transmit trace behind the start sequence and the bits before it; after a start sequence
that ends in `10` the data line is low before each bit (spec/40_transport.md R61 to R64, R68). -/
theorem txTrace_bit (P : Params) (bytes : List Byte) {i k m : Nat} {y : Byte} (hy : bytes[i]? = some y) (hk : k < 8)
    (hm : m < 3) :
    ∃ p : LineState,
      (txTrace P bytes)[P.startSeq.length + 24 * i + 3 * k + m]? =
        (bitSteps p (clockLine k) (y.getLsbD (7 - k)))[m]? ∧
      (P.startSeq.getLast? = some .s10 → p.level (clockLine k).other = false) := by
  obtain ⟨hi, -⟩ := List.getElem?_eq_some_iff.1 hy
  obtain ⟨p, hp, hlow⟩ := dataTrace_bit 0 (P.startSeq.getLastD .idle) (bytes.flatMap byteBits) (8 * i + k) _
    (flatMap_byteBits_getElem? bytes i k y hy hk) m hm
  rw [Nat.zero_add, clockLine_byte_add] at hp hlow
  have hlen : 3 * (8 * i + k) + m < (dataTrace 0 (P.startSeq.getLastD .idle) (bytes.flatMap byteBits)).length := by
    rw [dataTrace_length, flatMap_byteBits_length]
    omega
  refine ⟨p, ?_, fun hs => hlow ?_⟩
  · rw [show P.startSeq.length + 24 * i + 3 * k + m = P.startSeq.length + (3 * (8 * i + k) + m) by omega, txTrace,
      List.append_assoc, List.getElem?_append_right (Nat.le_add_right _ _), Nat.add_sub_cancel_left,
      List.getElem?_append_left hlen, hp]
  · rw [List.getLastD_eq_getLast?, hs]
    rfl

section
variable (P : Params) (bytes : List Byte) {i k : Nat} {y : Byte} (hy : bytes[i]? = some y) (hk : k < 8)
include hy hk

/-- The data line is staged low before the clock line rises (spec/40_transport.md R63, R64). -/
theorem txTrace_bit_clockRises (hs : P.startSeq.getLast? = some .s10) :
    (txTrace P bytes)[P.startSeq.length + 24 * i + 3 * k]? = some (if k % 2 = 0 then .s10 else .s01) := by
  obtain ⟨⟨a, b⟩, hp, hlow⟩ := txTrace_bit P bytes hy hk (m := 0) (by decide)
  replace hlow := hlow hs
  rw [← Nat.add_zero (_ + 3 * k), hp]
  unfold clockLine at hlow ⊢
  split_ifs at hlow ⊢ <;> cases hlow <;> rfl

theorem txTrace_bit_dataIsSet :
    (txTrace P bytes)[P.startSeq.length + 24 * i + 3 * k + 1]? =
      some (if k % 2 = 0 then ⟨true, y.getLsbD (7 - k)⟩ else ⟨y.getLsbD (7 - k), true⟩) := by
  obtain ⟨p, hp, -⟩ := txTrace_bit P bytes hy hk (m := 1) (by decide)
  rw [hp]
  unfold clockLine
  split_ifs <;> rfl

theorem txTrace_bit_clockFalls :
    (txTrace P bytes)[P.startSeq.length + 24 * i + 3 * k + 2]? =
      some (if k % 2 = 0 then ⟨false, y.getLsbD (7 - k)⟩ else ⟨y.getLsbD (7 - k), false⟩) := by
  obtain ⟨p, hp, -⟩ := txTrace_bit P bytes hy hk (m := 2) (by decide)
  rw [hp]
  unfold clockLine
  split_ifs <;> rfl

end

/-- Settles O18: the two sequences are the ends of the trace by its definition, and the three states of a bit are found one by one. -/
theorem transmitTraceHasTwentyFourStatesPerByte : Obligations.TransmitTraceHasTwentyFourStatesPerByte := fun P bytes =>
  ⟨txTrace_length P bytes, ⟨_, (List.append_assoc _ _ _).symm⟩, ⟨_, rfl⟩, fun _ _ _ hy hk =>
    ⟨txTrace_bit_clockRises P bytes hy hk, txTrace_bit_dataIsSet P bytes hy hk, txTrace_bit_clockFalls P bytes hy hk⟩⟩

end Sys2Proof
end

section
/-! The decoder and the opcode table: a word is its fields put together, a row's mask keeps the operation code, and one statement says
which answer the decoder gives to which word (spec/30_encoding.md R46 to R53). -/

namespace Sys2Proof.Machine

section
variable (w : Word)

theorem opcField_toNat : (opcField w).toNat = w.toNat / 2 ^ 28 := by
  rw [opcField, BitVec.extractLsb'_toNat, Nat.shiftRight_eq_div_pow]
  exact Nat.mod_eq_of_lt (by omega)

theorem operandFields_toNat : (operandFields w).toNat = w.toNat % 2 ^ 28 := BitVec.extractLsb'_toNat 0 28 w

theorem maxbField_toNat : (maxbField w).toNat = w.toNat / 2 ^ 16 % 2 ^ 12 := by
  rw [maxbField, BitVec.extractLsb'_toNat, Nat.shiftRight_eq_div_pow]

theorem tmoField_toNat : (tmoField w).toNat = w.toNat % 2 ^ 16 := BitVec.extractLsb'_toNat 0 16 w

theorem opcField_append_operandFields : opcField w ++ operandFields w = w :=
  (BitVec.extractLsb'_append_extractLsb'_eq_extractLsb' rfl).trans BitVec.extractLsb'_eq_self

theorem maxbField_append_tmoField : maxbField w ++ tmoField w = operandFields w :=
  BitVec.extractLsb'_append_extractLsb'_eq_extractLsb' rfl

theorem opcField_and (m : Word) : opcField (w &&& m) = opcField w &&& opcField m := BitVec.extractLsb'_and

end

/-- Bits 27:0 of an operation's command word (spec/30_encoding.md R46, R50). -/
def operandBits (i : Instr) : BitVec 28 := i.maxbBits ++ i.tmoBits

/-- An operation's command word is told by its operation code and its bits 27:0 (spec/30_encoding.md R46). -/
theorem encode_eq_iff (i : Instr) (w : Word) : encode i = w ↔ opcField w = i.opc ∧ operandFields w = operandBits i := by
  have happ : encode i = i.opc ++ operandBits i := BitVec.append_assoc
  constructor
  · rintro rfl
    exact ⟨opcField_append .., by rw [happ]; exact BitVec.extractLsb'_append_eq_right⟩
  · rintro ⟨ho, hf⟩
    rw [happ, ← ho, ← hf, opcField_append_operandFields]

/-- Format C takes its operands from the fields as they stand (spec/30_encoding.md R48, R49). -/
theorem ofNat_fields (w : Word) :
    BitVec.ofNat 12 (maxbField w).toNat ++ BitVec.ofNat 16 (tmoField w).toNat = operandFields w := by
  rw [BitVec.ofNat_toNat, BitVec.ofNat_toNat, BitVec.setWidth_eq, BitVec.setWidth_eq, maxbField_append_tmoField]

theorem fields_operandsFit (w : Word) : OperandsFit (maxbField w).toNat (tmoField w).toNat := by
  have hm := (maxbField w).isLt
  have ht := (tmoField w).isLt
  constructor <;> omega

/-! ## The decoder's answers -/

/-- Which answer the decoding procedure owes a word, in terms of the encoder and of arithmetic on the word (spec/30_encoding.md R47,
R50, R53); `decode_eq_iff` ties it to `decode`. -/
def Answers (w : Word) : Except DecodeError Instr → Prop
  | .ok i => i.WellFormed ∧ encode i = w
  | .error .reservedOpcode => w.toNat / 2 ^ 28 ∉ [1, 2, 3, 4, 5, 6]
  | .error .reservedField => w.toNat / 2 ^ 28 ∈ [1, 3, 4, 5] ∧ w.toNat % 2 ^ 28 ≠ 0

theorem answers_ok {w : Word} {i : Instr} (hwf : i.WellFormed) (hopc : opcField w = i.opc)
    (hbits : operandFields w = operandBits i) : Answers w (.ok i) := ⟨hwf, (encode_eq_iff i w).2 ⟨hopc, hbits⟩⟩

/-- The check of the reserved fields answers rightly for an operation without operands (spec/30_encoding.md R50). -/
theorem answers_withoutOperands {w : Word} {i : Instr} (hwf : i.WellFormed) (hbits : operandBits i = 0)
    (hopc : opcField w = i.opc) (hmem : i.opc.toNat ∈ [1, 3, 4, 5]) : Answers w (withoutOperands w i) := by
  unfold withoutOperands
  split_ifs with h
  · exact answers_ok hwf hopc (h.trans hbits.symm)
  · refine ⟨by rwa [← opcField_toNat, hopc], fun hz => h (BitVec.eq_of_toNat_eq ?_)⟩
    rw [operandFields_toNat, hz]
    rfl

/-- The decoder's answer to every word, one case for each arm of the procedure (spec/30_encoding.md R53). -/
theorem answers_decode (w : Word) : Answers w (decode w) := by
  unfold decode
  split
  next h => exact answers_withoutOperands rfl rfl (BitVec.eq_of_toNat_eq h) (by decide)
  next h => exact answers_ok (decide_eq_true (fields_operandsFit w)) (BitVec.eq_of_toNat_eq h) (ofNat_fields w).symm
  next h => exact answers_withoutOperands rfl rfl (BitVec.eq_of_toNat_eq h) (by decide)
  next h => exact answers_withoutOperands rfl rfl (BitVec.eq_of_toNat_eq h) (by decide)
  next h => exact answers_withoutOperands rfl rfl (BitVec.eq_of_toNat_eq h) (by decide)
  next h => exact answers_ok (decide_eq_true (fields_operandsFit w)) (BitVec.eq_of_toNat_eq h) (ofNat_fields w).symm
  next h1 h2 h3 h4 h5 h6 =>
    rw [opcField_toNat] at h1 h2 h3 h4 h5 h6
    simp only [Answers, List.mem_cons, List.not_mem_nil, or_false, not_or]
    exact ⟨h1, h2, h3, h4, h5, h6⟩

/-- No command word is illegal (spec/30_encoding.md R47, R50). -/
theorem not_answers_error_encode (i : Instr) (e : DecodeError) : ¬ Answers (encode i) (.error e) := by
  obtain ⟨hopc, hbits⟩ := (encode_eq_iff i _).1 rfl
  have hcode : (encode i).toNat / 2 ^ 28 = i.opc.toNat := by rw [← opcField_toNat, hopc]
  have hlow : (encode i).toNat % 2 ^ 28 = (operandBits i).toNat := by rw [← operandFields_toNat, hbits]
  cases e with
  | reservedOpcode =>
    rw [Answers, hcode]
    cases i <;> simp [Instr.opc]
  | reservedField =>
    rw [Answers, hcode, hlow]
    cases i with
    | send | encf | decf | txf => exact fun ⟨_, h⟩ => h rfl
    | recv | rxf => simp [Instr.opc]

/-- A word is illegal for one reason only (spec/30_encoding.md R53). -/
theorem answers_error_unique {w : Word} {e e' : DecodeError} (h : Answers w (.error e)) (h' : Answers w (.error e')) :
    e = e' := by
  have hsub : [1, 3, 4, 5] ⊆ [1, 2, 3, 4, 5, 6] := by decide
  match e, e', h, h' with
  | .reservedOpcode, .reservedOpcode, _, _ => rfl
  | .reservedField, .reservedField, _, _ => rfl
  | .reservedOpcode, .reservedField, hn, ⟨hm, _⟩ => exact absurd (hsub hm) hn
  | .reservedField, .reservedOpcode, ⟨hm, _⟩, hn => exact absurd (hsub hm) hn

/-- No word has two answers, so the decoder's is the only one (spec/30_encoding.md R53). -/
theorem decode_eq_iff (w : Word) (v : Except DecodeError Instr) : decode w = v ↔ Answers w v := by
  refine ⟨fun h => h ▸ answers_decode w, fun hv => ?_⟩
  cases v with
  | ok i =>
    obtain ⟨hwf, rfl⟩ := hv
    exact decode_encode i hwf
  | error e =>
    have hd := answers_decode w
    cases hw : decode w with
    | ok i =>
      rw [hw] at hd
      obtain ⟨-, rfl⟩ := hd
      exact absurd hv (not_answers_error_encode i e)
    | error e' =>
      rw [hw] at hd
      rw [answers_error_unique hd hv]

/-- The illegal words are those the decoder refuses (spec/30_encoding.md R51). -/
theorem illegalWord_iff (w : Word) : Claims.IllegalWord w ↔ ∃ e, decode w = .error e := by
  simp only [decode_eq_iff]
  constructor
  · rintro (h | h)
    · exact ⟨.reservedOpcode, h⟩
    · exact ⟨.reservedField, h⟩
  · rintro ⟨e, h⟩
    cases e with
    | reservedOpcode => exact .inl h
    | reservedField => exact .inr h

/-! ## The rows of the opcode table -/

/-- A row's mask keeps the operation code whole, so its words have the row's code (spec/30_encoding.md R53). -/
theorem opcField_of_row {w : Word} {i : Instr} (h : w &&& i.rowMask = i.rowMatch) : opcField w = i.opc := by
  have hmask : opcField i.rowMask = BitVec.allOnes 4 := by cases i <;> simp only [Instr.rowMask] <;> decide
  have hmatch : opcField i.rowMatch = i.opc := by cases i <;> simp only [Instr.rowMatch, Instr.opc] <;> decide
  rw [← hmatch, ← h, opcField_and, hmask, BitVec.and_allOnes]

/-- The command word of a well-formed operation lies in its row (spec/30_encoding.md R53). -/
theorem encode_row (i : Instr) : Laws.EncodingRow.Statement i := by
  cases i with
  | send => exact Laws.EncodingRow.send
  | recv maxb tmo => exact Laws.EncodingRow.recv maxb tmo
  | encf => exact Laws.EncodingRow.encf
  | decf => exact Laws.EncodingRow.decf
  | txf => exact Laws.EncodingRow.txf
  | rxf maxb tmo => exact Laws.EncodingRow.rxf maxb tmo

/-- The words of a row decode to its operation, whose bits 27:0 they have; no other word does (spec/30_encoding.md R53). -/
theorem row_iff_decode {w : Word} {i : Instr} (hwf : i.WellFormed)
    (hbits : w &&& i.rowMask = i.rowMatch → operandFields w = operandBits i) :
    w &&& i.rowMask = i.rowMatch ↔ decode w = .ok i := by
  rw [decode_eq_iff]
  constructor
  · exact fun h => answers_ok hwf (opcField_of_row h) (hbits h)
  · rintro ⟨-, rfl⟩
    exact encode_row i hwf

/-- The row of an operation without operands holds one word, whose bits 27:0 are 0 (spec/30_encoding.md R50, R53). -/
theorem exactRow_iff_decode {w : Word} {i : Instr} (hwf : i.WellFormed) (hmask : i.rowMask = BitVec.allOnes 32)
    (hmatch : operandFields i.rowMatch = operandBits i) : w &&& i.rowMask = i.rowMatch ↔ decode w = .ok i :=
  row_iff_decode hwf fun h => by rw [← hmatch, ← h, hmask, BitVec.and_allOnes]

/-- The row of an operation of format C holds every word with its code; the operands are the word's fields (spec/30_encoding.md R48,
R49, R53). -/
theorem operandRow_iff_decode (w : Word) (op : Nat → Nat → Instr)
    (hwf : ∀ maxb tmo, OperandsFit maxb tmo → (op maxb tmo).WellFormed)
    (hbits : ∀ maxb tmo, operandBits (op maxb tmo) = BitVec.ofNat 12 maxb ++ BitVec.ofNat 16 tmo) :
    w &&& (op (w.toNat / 2 ^ 16 % 2 ^ 12) (w.toNat % 2 ^ 16)).rowMask =
        (op (w.toNat / 2 ^ 16 % 2 ^ 12) (w.toNat % 2 ^ 16)).rowMatch ↔
      decode w = .ok (op (w.toNat / 2 ^ 16 % 2 ^ 12) (w.toNat % 2 ^ 16)) := by
  rw [← maxbField_toNat, ← tmoField_toNat]
  exact row_iff_decode (hwf _ _ (fields_operandsFit w)) fun _ => by rw [hbits, ofNat_fields]

/-! ## What a command word does -/

theorem commandResult_of_error {w : Word} {e : DecodeError} (h : decode w = .error e) (s : State) :
    commandResult w s = s.finish .illegalOp 0 := by rw [commandResult, h]

/-- A legal word runs its operation, an illegal one ends with IllegalOp (spec/30_encoding.md R51, R53). -/
theorem runCommand_cases (w : Word) (s : State) :
    (∃ i, decode w = .ok i ∧ runCommand w s = exec i s) ∨
      (∃ e, decode w = .error e ∧ runCommand w s = .next { s with status := 0x0FA, drvA := true, drvB := true }) := by
  cases h : decode w with
  | ok i => exact .inl ⟨i, rfl, by rw [runCommand, h]⟩
  | error e =>
    refine .inr ⟨e, rfl, ?_⟩
    rw [runCommand_eq, commandResult_of_error h]
    rfl

theorem State.finish_of_released {s : State} (h : s.Released) (c : Code) (d : BitVec 4) :
    s.finish c d = { s with status := statusBits c d } := by
  obtain ⟨ha, hb⟩ := h
  simp only [State.finish, ha, hb]

/-! ## The statements -/

/-- Settles O1: the fields of the command word are read back one by one. -/
theorem decodeOfEncodeIsIdentity : Obligations.DecodeOfEncodeIsIdentity := decode_encode

/-- Settles O2: an operation the decoder answers has the operation code and the bits 27:0 of the word. -/
theorem encodeOfDecodeIsIdentity : Obligations.EncodeOfDecodeIsIdentity := fun w i => (decode_eq_iff w (.ok i)).1

/-- Settles O3: the two errors are the decoder's answers, each row is told by its operation code and bits 27:0, and two rows that match
one word have its operation code. -/
theorem decoderGivesTheVerdictOfTheTable : Obligations.DecoderGivesTheVerdictOfTheTable := fun w =>
  ⟨(decode_eq_iff w (.error .reservedOpcode)).2, (decode_eq_iff w (.error .reservedField)).2,
    exactRow_iff_decode (i := .send) rfl rfl rfl,
    operandRow_iff_decode w .recv (fun _ _ => decide_eq_true) (fun _ _ => rfl),
    exactRow_iff_decode (i := .encf) rfl rfl rfl,
    exactRow_iff_decode (i := .decf) rfl rfl rfl,
    exactRow_iff_decode (i := .txf) rfl rfl rfl,
    operandRow_iff_decode w .rxf (fun _ _ => decide_eq_true) (fun _ _ => rfl),
    fun _ _ hi hj => (opcField_of_row hi).symm.trans (opcField_of_row hj),
    runCommand_cases w⟩

/-- Settles O5: the decoder refuses the word, and ending the command releases lines that are released already. -/
theorem illegalWordOnlySetsStatus : Obligations.IllegalWordOnlySetsStatus := by
  refine ⟨.inl (by decide), .inl (by decide), fun s w rest hw hr hp => ?_⟩
  obtain ⟨e, he⟩ := (illegalWord_iff w).1 hw
  rw [step_command s w rest hp, commandResult_of_error he, State.finish_of_released (s := { s with pending := rest }) hr]
  rfl

end Sys2Proof.Machine
end

section
/-! The line code: the three states of one bit, what the falls and the bits of a trace in two parts are, and what the data part of a
transmit trace carries (spec/40_transport.md R60 to R63). -/

namespace Sys2Proof

/-! ## One bit -/

theorem LineState.level_set_same (s : LineState) (l : Line) (v : Bool) : (s.set l v).level l = v := by cases l <;> rfl

theorem LineState.level_set_other (s : LineState) (l : Line) (v : Bool) : (s.set l v).level l.other = s.level l.other := by
  cases l <;> rfl

/-- Settles O16: the falls are those of `bitSteps_falls`, and dropping the clock line leaves the data line as it was set. -/
theorem bitStepsFallOnceWithTheBitOnTheDataLine : Obligations.BitStepsFallOnceWithTheBitOnTheDataLine :=
  fun state clock d => ⟨rfl, fun hlow =>
    ⟨bitSteps_falls state clock d hlow, by rw [LineState.level_set_other, LineState.level_set_same]⟩⟩

theorem carriedBits_bitSteps (state : LineState) (clock : Line) (d : Bool) (h : state.level clock.other = false) :
    carriedBits state (bitSteps state clock d) = [d] := by
  revert h
  rcases state with ⟨_ | _, _ | _⟩ <;> cases clock <;> cases d <;> decide

/-! ## A trace in two parts -/

theorem fallingSteps_append (p : LineState) (xs ys : List LineState) :
    fallingSteps p (xs ++ ys) = fallingSteps p xs ++ fallingSteps (xs.getLastD p) ys := by
  simp only [fallingSteps, fallsFrom_append, List.filter_append]

theorem carriedBits_append (p : LineState) (xs ys : List LineState) :
    carriedBits p (xs ++ ys) = carriedBits p xs ++ carriedBits (xs.getLastD p) ys := by
  induction xs generalizing p with
  | nil => rfl
  | cons x xs ih =>
    rw [List.cons_append, List.getLastD_cons, carriedBits, carriedBits, ih]
    cases fell p x <;> rfl

theorem fallingSteps_eq_nil_iff (p : LineState) (xs : List LineState) :
    fallingSteps p xs = [] ↔ ∀ f ∈ fallsFrom p xs, f = Fall.none := by
  simp [fallingSteps, List.filter_eq_nil_iff]

theorem carriedBits_of_no_fall {p : LineState} {xs : List LineState} (h : fallingSteps p xs = []) : carriedBits p xs = [] := by
  rw [fallingSteps_eq_nil_iff] at h
  induction xs generalizing p with
  | nil => rfl
  | cons x xs ih =>
    rw [fallsFrom, List.forall_mem_cons] at h
    rw [carriedBits, h.1]
    exact ih h.2

/-! ## The data part of a transmit trace -/

/-- The data line of the bit after a bit is that bit's clock line, and so low (spec/40_transport.md R62, R63). -/
theorem bitEnd_level_next (n : Nat) (d : Bool) : (bitEnd (clockLine n) d).level (clockLine (n + 1)).other = false := by
  rw [clockLine_succ, Line.other_other, bitEnd_level_clock]

theorem fallingSteps_dataTrace (n : Nat) (p : LineState) (bits : List Bool) (h : p.level (clockLine n).other = false) :
    fallingSteps p (dataTrace n p bits) = (List.range bits.length).map (fun i => Fall.one (clockLine (n + i))) := by
  induction bits generalizing n p with
  | nil => rfl
  | cons d ds ih =>
    have hbit : fallingSteps p (bitSteps p (clockLine n) d) = [.one (clockLine n)] := by
      rw [fallingSteps, bitSteps_falls p _ d h]
      rfl
    rw [dataTrace_cons, fallingSteps_append, bitSteps_getLastD, ih _ _ (bitEnd_level_next n d), hbit, List.length_cons,
      List.range_succ_eq_map, List.map_cons, List.map_map]
    simp [Function.comp_def, Nat.add_comm, Nat.add_left_comm]

theorem carriedBits_dataTrace (n : Nat) (p : LineState) (bits : List Bool) (h : p.level (clockLine n).other = false) :
    carriedBits p (dataTrace n p bits) = bits := by
  induction bits generalizing n p with
  | nil => rfl
  | cons d ds ih =>
    rw [dataTrace_cons, carriedBits_append, bitSteps_getLastD, ih _ _ (bitEnd_level_next n d), carriedBits_bitSteps p _ d h]
    rfl

/-- Settles O17, which is `fallingSteps_dataTrace` from the last state of a start sequence, by induction on the bits. -/
theorem dataFallsAlternateBetweenTheLines : Obligations.DataFallsAlternateBetweenTheLines := fun bits => by
  rw [fallingSteps_dataTrace 0 .s10 bits rfl]
  simp only [Nat.zero_add]

/-! ## What a trace carries -/

theorem carries_dataTrace (bits : List Bool) : Claims.Carries .s10 (dataTrace 0 .s10 bits) bits :=
  ⟨dataFallsAlternateBetweenTheLines bits, carriedBits_dataTrace 0 .s10 bits rfl⟩

theorem carries_nil {p : LineState} {xs : List LineState} (h : fallingSteps p xs = []) : Claims.Carries p xs [] :=
  ⟨h, carriedBits_of_no_fall h⟩

/-- Changes that make no line fall carry no bit. -/
theorem Claims.Carries.append_rises {p : LineState} {xs ys : List LineState} {bits : List Bool}
    (h : Claims.Carries p xs bits) (hy : fallingSteps (xs.getLastD p) ys = []) : Claims.Carries p (xs ++ ys) bits := by
  obtain ⟨hfalls, hbits⟩ := h
  exact ⟨by rw [fallingSteps_append, hfalls, hy, List.append_nil],
    by rw [carriedBits_append, hbits, carriedBits_of_no_fall hy, List.append_nil]⟩

end Sys2Proof
end

section
/-! How SEND and RECV end, whatever the samples are: the trace SEND drives, and what RECV leaves for each way it can end
(spec/40_transport.md R69, R74, R78). -/

namespace Sys2Proof

theorem Params.Wf.sampleBufSize_pos {P : Params} (h : P.Wf) : 1 ≤ P.sampleBufSize := by
  obtain ⟨-, hS, -⟩ := h.sizes
  exact hS

theorem Params.Wf.rxbufSize_le {P : Params} (h : P.Wf) : P.rxbufSize ≤ 4095 := by
  obtain ⟨-, -, -, ⟨-, hR⟩, -⟩ := h.sizes
  exact hR

/-- `IDLE` is a reference from which the start sequence can begin (spec/40_transport.md R64, R71). -/
theorem Params.Wf.start_ne_idle {P : Params} (h : P.Wf) : P.startSeq.head? ≠ some .idle := by
  obtain ⟨-, hidle, -⟩ := h.start
  exact hidle

end Sys2Proof

namespace Sys2Proof.Machine

/-- Settles O19: the two cases of SEND's operand test. -/
theorem sendDrivesTheTransmitTrace : Obligations.SendDrivesTheTransmitTrace := by
  intro s
  simp only [exec_eq, result]
  exact ⟨fun h => congrArg _ (sendPacket_fits s h), fun h => congrArg _ (sendPacket_rejects s (Nat.not_le.2 h))⟩

/-! ## RECV on any samples -/

/-- What a reception leaves in `t` when it began in `s`: its status, and the received bytes as the host finds them, their number, each of
them, and nothing beyond them (spec/40_transport.md R73, R74, R78). -/
structure RecvLeaves (s t : State) (v : Verdict) (bytes : List Byte) : Prop where
  status : t.status = statusBits v.code v.detail
  rxlen : t.rxlen.toNat = bytes.length
  rxBytes : t.rxBytes bytes.length = bytes
  beyond : ∀ i, bytes.length ≤ i → t.rxByte i = s.rxByte i

theorem State.received_leaves (s : State) (r : Reception) (h : r.bytes.length ≤ 4095) :
    RecvLeaves s (s.received r) r.verdict r.bytes where
  status := rfl
  rxlen := by rw [State.received_rxlen, BitVec.toNat_ofNat, Nat.mod_eq_of_lt (by omega)]
  rxBytes := (State.rxBytes_eq_iff _ _ _ rfl).2 fun i hi => by
    rw [State.received_rxByte, List.getElem?_eq_getElem hi, Option.getD_some]
  beyond i hi := by rw [State.received_rxByte, List.getElem?_eq_none hi, Option.getD_none]

/-- Each of the two ways RECV ends with an operand that fits keeps within the room and the samples it has (spec/40_transport.md R74, R78). -/
theorem receivePacket_bounds {s : State} {maxb : Nat} (tmo : Nat) (hwf : s.params.Wf) (hfit : s.RecvFits maxb) :
    (receivePacket maxb tmo s).rxlen.toNat ≤ maxb ∧
      (∀ i, (receivePacket maxb tmo s).rxlen.toNat ≤ i → (receivePacket maxb tmo s).rxByte i = s.rxByte i) ∧
      (receivePacket maxb tmo s).peer.taken ≤ s.peer.taken + (1 + tmo + s.params.sampleBufSize) := by
  have hS := hwf.sampleBufSize_pos
  have hR := hwf.rxbufSize_le
  rcases receivePacket_cases s maxb tmo with ⟨hf, -⟩ | ⟨-, p, n, hn, ⟨htaken, -⟩, he⟩ | ⟨-, r, n, hn, ⟨htaken, -⟩, hlen, -, -, he⟩
  · exact absurd hfit hf
  · rw [he]
    exact ⟨Nat.zero_le _, fun i _ => rfl, htaken.trans_le (by omega)⟩
  · have hr := s.received_leaves r (by omega)
    rw [he, hr.rxlen]
    exact ⟨hlen, hr.beyond, htaken.trans_le (by omega)⟩

/-- Settles O20: the bounds of a reception, and OperandError before it. -/
theorem recvAlwaysEndsWithinItsBounds : Obligations.RecvAlwaysEndsWithinItsBounds := by
  intro s maxb tmo hwf
  refine ⟨fun h => ?_, fun h => ⟨_, exec_eq _ s, ?_⟩⟩
  · rw [exec_eq, result, receivePacket, if_neg (Nat.not_le.2 h)]
    rfl
  · obtain ⟨hrxlen, hbeyond, htaken⟩ := receivePacket_bounds tmo hwf h
    obtain ⟨hlt, hqueued⟩ := receivePacket_peer s maxb tmo h
    exact ⟨hrxlen, hbeyond, hlt, htaken, hqueued, receivePacket_frame s maxb tmo⟩

/-- The status of a reception tells its verdict (spec/60_exceptions.md R120, R121). -/
theorem Verdict.statusBits_injective {v w : Verdict} (h : statusBits v.code v.detail = statusBits w.code w.detail) : v = w := by
  revert h
  rcases v with _ | _ | _ | _ | _ | _ <;> rcases w with _ | _ | _ | _ | _ | _ <;> decide

theorem Verdict.status_ne_timeout (v : Verdict) : statusBits v.code v.detail ≠ statusBits .timeout 0 := by
  rcases v with _ | _ | _ | _ | _ | _ <;> decide

/-- Settles O21: of the ways RECV ends, the status leaves Timeout, or a capture with the verdict it names. -/
theorem recvLeavesRxlenByOutcome : Obligations.RecvLeavesRxlenByOutcome := by
  intro s t maxb tmo hwf h ht
  have hR := hwf.rxbufSize_le
  obtain rfl := (exec_next_iff _ s t).1 ht
  simp only [result]
  rcases receivePacket_cases s maxb tmo with ⟨hf, -⟩ | ⟨-, p, n, -, -, he⟩ | ⟨-, r, n, -, -, hlen, hover, hmiss, he⟩
  · exact absurd h hf
  · rw [he]
    exact ⟨fun _ => ⟨rfl, fun i => rfl⟩, fun hv => absurd hv (show statusBits .timeout 0 ≠ 0x0FD by decide)⟩
  · have hr := s.received_leaves r (by omega)
    rw [he]
    refine ⟨fun hv => ?_, fun hv => ?_⟩
    · have hv := hv.resolve_left r.verdict.status_ne_timeout
      have hnil := hmiss (Verdict.statusBits_injective (w := .frameError .startMismatch) hv)
      exact ⟨by rw [State.received_rxlen, hnil]; rfl, fun i => hr.beyond i (by rw [hnil]; exact Nat.zero_le i)⟩
    · rw [hr.rxlen, hover (Verdict.statusBits_injective (w := .overflow) hv)]

/-- Settles O22: the reference sample is the first contribution combined with the latches, and so is each of the `tmo` samples after it. -/
theorem recvTimesOutOnASilentBus : Obligations.RecvTimesOutOnASilentBus := by
  intro s maxb tmo x rest h hq
  have href : s.peer.sample s.latches = (s.latches.wiredAnd x, ⟨List.replicate tmo x ++ rest, s.peer.taken + 1⟩) := by
    rw [Peer.sample, hq]
    rfl
  rw [exec_eq, result, receivePacket, if_pos h]
  simp only [href, awaitChange_silent, Nat.add_assoc, Nat.add_comm 1 tmo]
  rfl

end Sys2Proof.Machine
end

section
/-! RECV on a trace the peer sends after the start sequence: the change that stops the scan decides the status, and the bits carried
before it decide the bytes (spec/40_transport.md R71 to R78). -/

namespace Sys2Proof

/-! ## Where a trace is cut -/

theorem fallsFrom_length (p : LineState) (xs : List LineState) : (fallsFrom p xs).length = xs.length := by
  induction xs generalizing p with
  | nil => rfl
  | cons x xs ih => rw [fallsFrom, List.length_cons, ih, List.length_cons]

theorem fallingSteps_eq_nil_iff_replicate (p : LineState) (xs : List LineState) :
    fallingSteps p xs = [] ↔ fallsFrom p xs = List.replicate xs.length Fall.none := by
  rw [fallingSteps_eq_nil_iff, List.eq_replicate_iff, fallsFrom_length]
  exact (and_iff_right rfl).symm

theorem getLastD_append {α : Type} (p : α) (xs ys : List α) : (xs ++ ys).getLastD p = ys.getLastD (xs.getLastD p) := by
  simp only [List.getLastD_eq_getLast?, List.getLast?_append, Option.getD_or]

/-- A trace that carries some bits and goes on with a fall is cut at that fall: the changes before it make no line fall. -/
theorem Claims.Carries.cut_at_fall {p : LineState} {xs ys : List LineState} {bits : List Bool} {l : Line}
    (h : Claims.Carries p xs bits) (hl : (fallingSteps (xs.getLastD p) ys).head? = some (.one l)) :
    ∃ data y rest, xs ++ ys = data ++ [y] ++ rest ∧ Claims.Carries p data bits ∧ fell (data.getLastD p) y = .one l := by
  obtain ⟨mids, y, rest, rfl, hmids, hy⟩ := Machine.split_at_first_fall _ ys l hl
  refine ⟨xs ++ mids, y, rest, by simp, h.append_rises ((fallingSteps_eq_nil_iff _ _).2 hmids), ?_⟩
  rwa [getLastD_append]

theorem dataTrace_getLastD (n : Nat) (p : LineState) (bits : List Bool) : (dataTrace n p bits).getLastD p = dataEnd n p bits := by
  induction bits generalizing n p with
  | nil => rfl
  | cons d ds ih => rw [dataTrace_cons, getLastD_append, bitSteps_getLastD, ih, dataEnd]

/-- The stop sequence after an even number of bits begins with a fall of line B (spec/40_transport.md R66). -/
theorem Params.Wf.dataTrace_stopSeq {P : Params} (h : P.Wf) (bits : List Bool) (heven : bits.length % 2 = 0) :
    ∃ data y rest, dataTrace 0 .s10 bits ++ P.stopSeq = data ++ [y] ++ rest ∧ Claims.Carries .s10 data bits ∧
      fell (data.getLastD .s10) y = .one .B :=
  (carries_dataTrace bits).cut_at_fall (by
    rw [dataTrace_getLastD]
    exact (h.stop _ (Machine.dataEnd_even bits heven)).1)

/-- The bit after some bits begins with a fall of its clock line (spec/40_transport.md R63). -/
theorem dataTrace_next_bit (bits : List Bool) (d : Bool) (ds : List Bool) :
    ∃ data y rest, dataTrace 0 .s10 (bits ++ d :: ds) = data ++ [y] ++ rest ∧ Claims.Carries .s10 data bits ∧
      fell (data.getLastD .s10) y = .one (clockLine bits.length) := by
  have hlow := dataEnd_level 0 .s10 bits rfl
  rw [dataTrace_append]
  refine (carries_dataTrace bits).cut_at_fall ?_
  rw [dataTrace_getLastD, fallingSteps_dataTrace _ _ _ hlow, List.length_cons, List.range_succ_eq_map]
  simp

/-- A peer that sends a trace sends every trace it begins with. -/
theorem Claims.PeerSendsFrom.of_append {s : Machine.State} {tmo : Nat} {ref : LineState} {xs ys : List LineState}
    (h : Claims.PeerSendsFrom s tmo ref (xs ++ ys)) : Claims.PeerSendsFrom s tmo ref xs := by
  obtain ⟨hr, k, held, rest, hheld, hq, hk, hlen⟩ := h
  obtain ⟨h1, h2, rfl, rfl, -⟩ := List.map_eq_append_iff.1 hheld
  have hsplit : Claims.hold (h1 ++ h2) = Claims.hold h1 ++ Claims.hold h2 := List.flatMap_append
  rw [hsplit] at hq hlen
  refine ⟨hr, k, h1, Claims.hold h2 ++ rest, rfl, by simp only [hq, List.append_assoc], hk, ?_⟩
  rw [List.length_append] at hlen
  omega

end Sys2Proof

namespace Sys2Proof.Machine

/-! ## The change that stops the scan -/

section
variable {st : List LineState} {maxb : Nat} {sc : Scan} {y : LineState}

/-- Both lines falling at once are an error whatever fell before (spec/40_transport.md R72). -/
theorem scanStep_simultaneousFall (hm : sc.mode = .data) (hf : fell sc.prev y = .both) :
    scanStep st maxb y sc = .stop (.frameError .simultaneousFall) := by
  simp only [scanStep, ne_of_fell_both hf, if_false, hm, dataStep, hf]

/-- A bit for which there is no room stops the scan (spec/40_transport.md R72). -/
theorem scanStep_overflow {l : Line} (hm : sc.mode = .data) (hf : fell sc.prev y = .one l) (hpf : sc.prevFall ≠ some l)
    (hn : sc.nbits = 8 * maxb) : scanStep st maxb y sc = .stop .overflow := by
  simp only [scanStep, ne_of_fell_one hf, if_false, hm, dataStep, hf, hpf, hn, if_true]

/-- The first fall of the data takes a bit whichever line it is of, unless that line fell last (spec/40_transport.md R72). -/
theorem scanStep_first_bit {k : Nat} {prev : LineState} {pf : Option Line} {l : Line} (hf : fell prev y = .one l)
    (hpf : pf ≠ some l) (hm : 0 < maxb) :
    scanStep st maxb y ⟨.data, k, prev, pf, 0, 0⟩ = .go (Scan.inData k y l 1 (shiftIn 0 (y.level l.other))) none := by
  have hroom : 0 ≠ 8 * maxb := by omega
  simp only [scanStep, ne_of_fell_one hf, if_false, dataStep, hf, hpf, hroom, takeBit]
  rfl

end

/-! ## From the start sequence to the stop -/

section
variable {s : State} {maxb tmo : Nat} {ref y : LineState} {data : List LineState} {bytes : List Byte} {extra : List Bool}
  {v : Verdict}
variable (hwf : s.params.Wf) (hfit : maxb ≤ s.params.rxbufSize) (href : s.params.startSeq.head? ≠ some ref)
  (hsend : Claims.PeerSendsFrom s tmo ref (s.params.startSeq ++ data ++ [y]))
include hwf hfit href hsend

/-- The scan runs through the start sequence and `data` and stops at `y`; each state may be held (spec/40_transport.md R74, R75). -/
theorem receivePacket_leaves {sc : Scan}
    (hscan : scanAll s.params.startSeq maxb (Scan.init ref) (s.params.startSeq ++ data) = some (sc, bytes))
    (hstop : scanStep s.params.startSeq maxb y sc = .stop v) (hlen : bytes.length ≤ maxb) :
    RecvLeaves s (receivePacket maxb tmo s) v bytes := by
  obtain ⟨⟨hA, hB⟩, k, held, rest, hheld, hq, hk, hb⟩ := hsend
  have hR := hwf.rxbufSize_le
  obtain ⟨p, he⟩ := receivePacket_of_trace s maxb tmo k _ [] y held rest sc bytes v hfit hA hB hheld hq hk hb
    (by rwa [List.append_assoc, hwf.head_append]) hscan hstop
  rw [he]
  exact s.received_leaves _ (by show bytes.length ≤ _; omega)

/-- The bits carried before the stop are `bytes` and up to seven bits more; `pf` is the line that fell last and `acc` holds the further bits,
so that what stops the scan need not look into either (spec/40_transport.md R60, R73). -/
theorem receivePacket_of_carries (hc : Claims.Carries .s10 data (bytes.flatMap byteBits ++ extra)) (he : extra.length ≤ 7)
    (hn : 8 * bytes.length + extra.length ≤ 8 * maxb)
    (hstop : ∀ (pf : Option Line) (acc : Byte),
      (bytes ≠ [] ∨ extra ≠ [] ∨ s.params.startSeq ≠ [.s10] ∨ ref ≠ .s00 → pf = some (clockLine (extra.length + 1))) →
      scanStep s.params.startSeq maxb y
        ⟨.data, s.params.startSeq.length, data.getLastD .s10, pf, 8 * bytes.length + extra.length, acc⟩ = .stop v) :
    RecvLeaves s (receivePacket maxb tmo s) v bytes := by
  obtain ⟨hfalls, hbits⟩ := hc
  obtain ⟨pf, acc, hscan, hpf⟩ := scanAll_startSeq_bytes hwf href data bytes extra hfalls hbits he hn
  rw [clockLine_byte_add, ← clockLine_succ] at hpf
  exact receivePacket_leaves hwf hfit href hsend hscan (hstop pf acc hpf) (by omega)

/-- A second fall of the line that fell last ends the packet, with Ok after whole bytes and with BitCount after further bits
(spec/40_transport.md R72). -/
theorem receivePacket_terminated (hc : Claims.Carries .s10 data (bytes.flatMap byteBits ++ extra)) (he : extra.length ≤ 7)
    (hn : 8 * bytes.length + extra.length ≤ 8 * maxb)
    (hne : bytes ≠ [] ∨ extra ≠ [] ∨ s.params.startSeq ≠ [.s10] ∨ ref ≠ .s00)
    (hy : fell (data.getLastD .s10) y = .one (clockLine (extra.length + 1))) :
    RecvLeaves s (receivePacket maxb tmo s) (if extra.length = 0 then .ok else .frameError .bitCount) bytes := by
  refine receivePacket_of_carries hwf hfit href hsend hc he hn fun pf acc hpf => ?_
  rw [hpf hne]
  refine (scanStep_terminator _ _ _ _ _ _ hy).trans ?_
  rw [show (8 * bytes.length + extra.length) % 8 = extra.length by omega]

/-- After whole bytes a second fall of line B ends the packet with Ok (spec/40_transport.md R72). -/
theorem receivePacket_ok (hc : Claims.Carries .s10 data (bytes.flatMap byteBits)) (hn : bytes.length ≤ maxb)
    (hne : bytes ≠ [] ∨ s.params.startSeq ≠ [.s10] ∨ ref ≠ .s00) (hy : fell (data.getLastD .s10) y = .one .B) :
    RecvLeaves s (receivePacket maxb tmo s) .ok bytes :=
  receivePacket_terminated (extra := []) hwf hfit href hsend (by rwa [List.append_nil]) (Nat.zero_le 7)
    (Nat.mul_le_mul_left 8 hn) (hne.imp_right .inr) hy

/-- After further bits it ends the packet with BitCount (spec/40_transport.md R72). -/
theorem receivePacket_bitCount (hc : Claims.Carries .s10 data (bytes.flatMap byteBits ++ extra)) (h1 : 1 ≤ extra.length)
    (h7 : extra.length ≤ 7) (hn : bytes.length < maxb) (hy : fell (data.getLastD .s10) y = .one (clockLine (extra.length + 1))) :
    RecvLeaves s (receivePacket maxb tmo s) (.frameError .bitCount) bytes := by
  have h := receivePacket_terminated hwf hfit href hsend hc h7 (by omega) (.inr (.inl (List.ne_nil_of_length_pos h1))) hy
  rwa [if_neg (by omega)] at h

end

/-- The transmit trace of some bytes is received as those bytes (spec/40_transport.md R66, R76). -/
theorem receivePacket_txTrace {s : State} {maxb tmo : Nat} {bytes : List Byte} (hwf : s.params.Wf)
    (hfit : maxb ≤ s.params.rxbufSize) (hn : bytes.length ≤ maxb) (hsend : Claims.PeerSends s tmo (txTrace s.params bytes)) :
    RecvLeaves s (receivePacket maxb tmo s) .ok bytes := by
  obtain ⟨data, y, rest, hcut, hc, hy⟩ := hwf.dataTrace_stopSeq (bytes.flatMap byteBits)
    (by rw [flatMap_byteBits_length]; omega)
  rw [hwf.txTrace_eq, List.append_assoc, hcut, ← List.append_assoc, ← List.append_assoc] at hsend
  exact receivePacket_ok hwf hfit hwf.start_ne_idle hsend.of_append hc hn (.inr (.inr (by decide))) hy

/-! ## The statements -/

/-- Settles O49: whole bytes and then a second fall of line B. -/
theorem recvTakesOneBitFromEachFall : Obligations.RecvTakesOneBitFromEachFall := by
  intro s maxb tmo ref bytes data y hwf hfit hn href hne hc hy hsend
  have h := receivePacket_ok hwf hfit href hsend hc hn hne hy
  exact ⟨_, exec_eq _ s, h.status, h.rxlen, h.rxBytes, h.beyond⟩

/-- Settles O23: the trace is cut at the fall of line B in the stop sequence, and the bits before it are those of the bytes. -/
theorem recvReadsBackWhatSendDrives : Obligations.RecvReadsBackWhatSendDrives := by
  intro s maxb tmo bytes hwf hfit hn hsend
  have h := receivePacket_txTrace hwf hfit hn hsend
  exact ⟨_, exec_eq _ s, h.status, h.rxlen, h.rxBytes, h.beyond⟩

/-- Settles O24: changes that make no line fall carry no bit, and the stop sequence begins with such changes before its fall of line B. -/
theorem recvAcceptsTheEmptyPacket : Obligations.RecvAcceptsTheEmptyPacket := by
  refine ⟨fun s maxb tmo mids y hwf hfit hfalls hsend => ?_, fun P hwf => ?_⟩
  · rw [fallsFrom_append] at hfalls
    obtain ⟨hmids, hlast⟩ := List.append_inj hfalls (by rw [fallsFrom_length, List.length_replicate])
    have h := receivePacket_ok (bytes := []) hwf hfit hwf.start_ne_idle hsend
      (carries_nil ((fallingSteps_eq_nil_iff_replicate _ _).2 hmids)) (Nat.zero_le maxb) (.inr (.inr (by decide)))
      (List.head_eq_of_cons_eq hlast)
    exact ⟨_, exec_eq _ s, h.status, BitVec.eq_of_toNat_eq h.rxlen⟩
  · obtain ⟨data, y, rest, hcut, ⟨hfalls, -⟩, hy⟩ := hwf.dataTrace_stopSeq [] rfl
    refine ⟨data, y, rest, ?_, ?_⟩
    · rw [hwf.txTrace_eq, List.append_assoc, List.flatMap_nil, hcut]
      simp only [List.append_assoc]
    · rw [fallsFrom_append, (fallingSteps_eq_nil_iff_replicate _ _).1 hfalls]
      exact congrArg (_ ++ [·]) hy

/-- Settles O25: the trace is cut at the clock fall of the first bit for which there is no room. -/
theorem recvKeepsTheBytesThatFitOnOverflow : Obligations.RecvKeepsTheBytesThatFitOnOverflow := by
  intro s maxb tmo bytes hwf hfit hn hsend
  have hlen : (bytes.take maxb).length = maxb := by rw [List.length_take, Nat.min_eq_left hn.le]
  obtain ⟨d, ds, hd⟩ : ∃ d ds, (bytes.drop maxb).flatMap byteBits = d :: ds :=
    List.exists_cons_of_length_pos (by rw [flatMap_byteBits_length, List.length_drop]; omega)
  obtain ⟨data, y, rest, hcut, hc, hy⟩ := dataTrace_next_bit ((bytes.take maxb).flatMap byteBits) d ds
  rw [hwf.txTrace_eq, ← List.take_append_drop maxb bytes, List.flatMap_append, hd, hcut] at hsend
  rw [show s.params.startSeq ++ (data ++ [y] ++ rest) ++ s.params.stopSeq =
    s.params.startSeq ++ data ++ [y] ++ (rest ++ s.params.stopSeq) by simp only [List.append_assoc]] at hsend
  rw [flatMap_byteBits_length, clockLine_even _ (by omega)] at hy
  have h := receivePacket_of_carries (extra := []) (v := .overflow) hwf hfit hwf.start_ne_idle hsend.of_append
    (by rwa [List.append_nil]) (Nat.zero_le 7) (by rw [hlen]; exact le_refl _) fun pf acc hpf =>
      scanStep_overflow rfl hy (ne_of_eq_of_ne (hpf (.inr (.inr (.inr (by decide))))) (by decide)) (by rw [hlen]; rfl)
  have hrx := h.rxBytes
  rw [hlen] at hrx
  exact ⟨_, exec_eq _ s, h.status, h.rxlen.trans hlen, hrx⟩

/-- Settles O26: after an even number of bits line B fell last, and it falls again in the stop sequence. -/
theorem recvReportsAnIncompleteLastByte : Obligations.RecvReportsAnIncompleteLastByte := by
  intro s maxb tmo bytes extra hwf hfit hn
  refine ⟨fun he hsend => ?_, fun data y h1 h7 hc hy hsend => ?_⟩
  · simp only [List.mem_cons, List.not_mem_nil, or_false] at he
    obtain ⟨data, y, rest, hcut, hc, hy⟩ := hwf.dataTrace_stopSeq (bytes.flatMap byteBits ++ extra)
      (by rw [List.length_append, flatMap_byteBits_length]; omega)
    rw [List.append_assoc, hcut, ← List.append_assoc, ← List.append_assoc] at hsend
    rw [show Line.B = clockLine (extra.length + 1) by rw [clockLine_succ, clockLine_even _ (by omega)]; rfl] at hy
    have h := receivePacket_bitCount hwf hfit hwf.start_ne_idle hsend.of_append hc (by omega) (by omega) hn hy
    exact ⟨_, exec_eq _ s, h.status, h.rxlen, h.rxBytes⟩
  · have h := receivePacket_bitCount hwf hfit hwf.start_ne_idle hsend hc h1 h7 hn hy
    exact ⟨_, exec_eq _ s, h.status, h.rxlen, h.rxBytes⟩

/-- Settles O27: both lines falling at once stop the scan whatever line fell last. -/
theorem recvReportsASimultaneousFall : Obligations.RecvReportsASimultaneousFall := by
  intro s maxb tmo ref bytes extra data y hwf hfit href hc he hn hy hsend
  have h := receivePacket_of_carries hwf hfit href hsend hc he hn fun _ _ _ => scanStep_simultaneousFall rfl hy
  exact ⟨_, exec_eq _ s, h.status, h.rxlen, h.rxBytes, h.beyond⟩

/-- From the reference `00` no line falls in a start sequence of `10` alone, nor in changes without a fall after it (assumption 15). -/
theorem scanAll_startSeq_no_fall {P : Params} (h : P.Wf) (hst : P.startSeq = [.s10]) (maxb : Nat) {mids : List LineState}
    (hmids : fallingSteps .s10 mids = []) :
    scanAll P.startSeq maxb (Scan.init .s00) (P.startSeq ++ mids) =
      some (⟨.data, P.startSeq.length, mids.getLastD .s10, none, 0, 0⟩, []) := by
  obtain ⟨hfalls, hbits⟩ := carries_nil hmids
  rw [scanAll_startSeq_carried h (by rw [hst]; decide) mids [] hfalls hbits (Nat.zero_le _), if_pos ⟨rfl, hst, rfl⟩]
  rfl

/-- Settles O50: with no line fallen before it, a first fall of line B finds no room or takes a bit, and then a second one ends the packet
inside a byte. -/
theorem recvTakesABitWhereNoLineHasFallen : Obligations.RecvTakesABitWhereNoLineHasFallen := by
  intro s maxb tmo data y hwf hfit hst hy hsend
  have href : s.params.startSeq.head? ≠ some .s00 := by rw [hst]; decide
  replace hsend : Claims.PeerSendsFrom s tmo .s00 (s.params.startSeq ++ data ++ [y]) := by rwa [hst]
  refine ⟨fun hm hno => ?_, fun hm hone => ?_⟩
  · have h := receivePacket_leaves hwf hfit href hsend (scanAll_startSeq_no_fall hwf hst maxb hno)
      (scanStep_overflow rfl hy nofun (by rw [hm])) (Nat.zero_le _)
    exact ⟨_, exec_eq _ s, h.status, BitVec.eq_of_toNat_eq h.rxlen⟩
  · obtain ⟨mids, x, rest, rfl, hmids, hx⟩ := split_at_first_fall .s10 data .B (by rw [hone]; rfl)
    have hrest : ∀ f ∈ fallsFrom x rest, f = Fall.none := by
      rw [← fallingSteps_eq_nil_iff] at hmids ⊢
      rw [fallingSteps_append, hmids, List.nil_append, fallingSteps, fallsFrom, hx] at hone
      exact List.tail_eq_of_cons_eq hone
    have hx' := scanStep_first_bit (st := s.params.startSeq) (k := s.params.startSeq.length) (pf := none) hx (by decide) hm
    have hscan := scanAll_trans (scanAll_startSeq_no_fall hwf hst maxb ((fallingSteps_eq_nil_iff _ _).2 hmids))
      ((scanAll_cons hx').trans (by rw [scanAll_rises _ rfl rest hrest]; rfl))
    rw [List.append_assoc] at hscan
    rw [getLastD_append, List.getLastD_cons] at hy
    have h := receivePacket_leaves hwf hfit href hsend hscan (scanStep_terminator _ 1 _ _ _ _ hy) (Nat.zero_le _)
    exact ⟨_, exec_eq _ s, h.status, BitVec.eq_of_toNat_eq h.rxlen, fun i => h.beyond i (Nat.zero_le i)⟩

end Sys2Proof.Machine
end

section
/-! RECV's exact end, with the samples it takes: a start sequence that breaks off, and a capture budget that is spent
(spec/40_transport.md R71, R74, R78). -/

namespace Sys2Proof.Machine

theorem State.received_of_released {s : State} (h : s.Released) (v : Verdict) (bytes : List Byte) (p : Peer) :
    s.received ⟨v, bytes, p⟩ =
      { s with
        status := statusBits v.code v.detail, rxlen := BitVec.ofNat 12 bytes.length
        rxbuf := s.rxbuf.storeAll 0 bytes, peer := p } :=
  State.finish_of_released
    (s := { s with rxlen := BitVec.ofNat 12 bytes.length, rxbuf := s.rxbuf.storeAll 0 bytes, peer := p }) h _ _

/-- A change that does not lead to the next state of the start sequence stops the scan (spec/40_transport.md R71). -/
theorem scanStep_startMismatch {st : List LineState} {maxb : Nat} {sc : Scan} {x : LineState} (hm : sc.mode = .start)
    (hx : x ≠ sc.prev) (hk : st[sc.k]? ≠ some x) : scanStep st maxb x sc = .stop (.frameError .startMismatch) := by
  simp only [scanStep, hx, if_false, hm, startStep, hk]

/-- Settles O28: the first change stops the scan, which waits for the first state of the start sequence. -/
theorem recvRejectsAWrongFirstChange : Obligations.RecvRejectsAWrongFirstChange := by
  intro s maxb tmo k ref x rest hwf hr hfit hk hx hfirst hq
  have hS := hwf.sampleBufSize_pos
  have hstop := scanStep_startMismatch (maxb := maxb) (sc := Scan.init ref) rfl hx (by rwa [List.head?_eq_getElem?] at hfirst)
  rw [exec_eq, result, receivePacket_of_queue s maxb tmo k ref x rest hfit hr.1 hr.2 hS hq hk hx, captureNext_stop _ _ _ hstop hS,
    State.received_of_released hr, Nat.add_right_comm _ 1 k]
  rfl

/-! ## On held samples that begin with the start sequence -/

/-- A trace that begins as the start sequence does begins with a change from the reference (spec/40_transport.md R64, R74). -/
theorem first_change {P : Params} (h : P.Wf) {ref : LineState} (href : P.startSeq.head? ≠ some ref) {trace : List LineState}
    (hfirst : trace.head? = P.startSeq.head?) : ∃ x xs, trace = x :: xs ∧ x ≠ ref := by
  match trace with
  | [] => exact absurd (List.head?_eq_none_iff.1 hfirst.symm) h.start.1
  | x :: xs => exact ⟨x, xs, rfl, fun hx => href (by rw [← hfirst, ← hx]; rfl)⟩

section
variable {s : State} {maxb tmo k : Nat} {ref : LineState} {held : List (LineState × Nat)} {q : List LineState}
variable (hwf : s.params.Wf) (hr : s.Released) (hfit : maxb ≤ s.params.rxbufSize) (hk : k + 1 ≤ tmo)
  (href : s.params.startSeq.head? ≠ some ref) (hfirst : (held.map Prod.fst).head? = s.params.startSeq.head?)
  (hq : s.peer.queued = List.replicate (k + 1) ref ++ Claims.hold held ++ q)
include hwf hr hfit hk href hfirst hq

/-- The capture begins with the first state shown (spec/40_transport.md R74). -/
theorem receivePacket_of_held :
    receivePacket maxb tmo s =
      s.received (captureNext s.params.startSeq maxb ⟨true, true⟩ s.params.sampleBufSize (Scan.init ref)
        ⟨stretch held ++ q, s.peer.taken + k + 1⟩) := by
  obtain ⟨x, xs, hmap, hx⟩ := first_change hwf href hfirst
  obtain ⟨⟨x, n⟩, tail, rfl, rfl, -⟩ := List.map_eq_cons_iff.1 hmap
  have hst : stretch ((x, n) :: tail) ++ q = x :: (List.replicate n x ++ stretch tail ++ q) := by
    rw [stretch_cons, List.replicate_succ]
    rfl
  rw [List.append_assoc] at hq
  rw [receivePacket_of_queue s maxb tmo k ref x _ hfit hr.1 hr.2 hwf.sampleBufSize_pos (hq.trans (congrArg _ hst)) hk hx, hst,
    Nat.add_right_comm]

/-- The samples use the budget up and leave the scan going (spec/40_transport.md R74). -/
theorem receivePacket_unterminated {sc : Scan} {bytes : List Byte}
    (hscan : scanAll s.params.startSeq maxb (Scan.init ref) (held.map Prod.fst) = some (sc, bytes))
    (hlen : (Claims.hold held).length = s.params.sampleBufSize) :
    receivePacket maxb tmo s =
      s.received ⟨.frameError .unterminated, bytes, ⟨q, s.peer.taken + k + 1 + s.params.sampleBufSize⟩⟩ := by
  obtain ⟨x, xs, hmap, hx⟩ := first_change hwf href hfirst
  rw [Nat.add_right_comm _ k 1]
  exact receivePacket_spent s maxb tmo k held q x xs sc bytes hfit hr.1 hr.2 hwf.sampleBufSize_pos hk hq hlen hmap hx
    (by rwa [hmap] at hscan)

end

theorem scanAll_startSeq_take {P : Params} (h : P.Wf) {ref : LineState} (href : P.startSeq.head? ≠ some ref) (maxb n : Nat) :
    ∃ sc, scanAll P.startSeq maxb (Scan.init ref) (P.startSeq.take n) = some (sc, []) := by
  by_cases hn : n < P.startSeq.length
  · obtain ⟨pf, hscan⟩ := scanAll_startSeq_part (maxb := maxb) h href n hn
    exact ⟨_, hscan⟩
  · rw [List.take_of_length_le (Nat.not_lt.1 hn)]
    exact ⟨_, scanAll_startSeq_from h href⟩

/-- Settles O48: the states matched leave the scan waiting for the next one, from which the change differs as it does from the last. -/
theorem recvRejectsABrokenStartSequence : Obligations.RecvRejectsABrokenStartSequence := by
  intro s maxb tmo k m ref held x rest hwf hr hfit hk href hm hheld hlast hnext hlen hq
  obtain ⟨pf, hscan⟩ := scanAll_startSeq_part (maxb := maxb) hwf href (m + 1) hm
  have hprev : x ≠ (s.params.startSeq.take (m + 1)).getLastD ref := by
    rw [List.getElem?_eq_getElem (by omega), ne_eq, Option.some.injEq] at hlast
    rw [List.getLastD_eq_getLast?, List.getLast?_take, if_neg (Nat.succ_ne_zero m), Nat.add_sub_cancel,
      List.getElem?_eq_getElem (by omega)]
    exact Ne.symm hlast
  have hstop := scanStep_startMismatch (maxb := maxb)
    (sc := ⟨.start, m + 1, (s.params.startSeq.take (m + 1)).getLastD ref, pf, 0, 0⟩) rfl hprev hnext
  have hfirst : (held.map Prod.fst).head? = s.params.startSeq.head? := by rw [hheld, List.head?_take, if_neg (Nat.succ_ne_zero m)]
  rw [exec_eq, result, receivePacket_of_held hwf hr hfit hk href hfirst hq,
    captureNext_stopped _ _ _ (scanAll_stretch held ((congrArg _ hheld).trans hscan)) hstop hlen, State.received_of_released hr]
  rfl

/-- Settles O29: the states shown are some first ones of the start sequence, or all of it and data. -/
theorem recvEndsWhenTheCaptureBudgetIsSpent : Obligations.RecvEndsWhenTheCaptureBudgetIsSpent := by
  intro s maxb tmo k held rest hwf hr hfit hk hq hlen
  have href := hwf.start_ne_idle
  have hR := hwf.rxbufSize_le
  refine ⟨fun m hheld => ?_, fun data bytes extra hheld hc he hn => ?_⟩
  · obtain ⟨sc, hscan⟩ := scanAll_startSeq_take hwf href maxb (m + 1)
    have hfirst : (held.map Prod.fst).head? = s.params.startSeq.head? := by
      rw [hheld, List.head?_take, if_neg (Nat.succ_ne_zero m)]
    rw [exec_eq, result, receivePacket_unterminated hwf hr hfit hk href hfirst hq ((congrArg _ hheld).trans hscan) hlen,
      State.received_of_released hr]
    rfl
  · obtain ⟨hfalls, hbits⟩ := hc
    obtain ⟨pf, acc, hscan, -⟩ := scanAll_startSeq_bytes hwf href data bytes extra hfalls hbits he hn
    have hfirst : (held.map Prod.fst).head? = s.params.startSeq.head? := by rw [hheld, hwf.head_append]
    have hrecv := receivePacket_unterminated hwf hr hfit hk href hfirst hq ((congrArg _ hheld).trans hscan) hlen
    have h : RecvLeaves s (receivePacket maxb tmo s) (.frameError .unterminated) bytes := by
      rw [hrecv]
      exact s.received_leaves _ (show bytes.length ≤ 4095 by omega)
    refine ⟨_, exec_eq _ s, h.rxlen, h.rxBytes, h.beyond, ?_⟩
    rw [result, hrecv]
    exact State.received_of_released hr _ _ _

end Sys2Proof.Machine
end

section
/-! RECV and the transition trace: a reception that the scan ends is the scan of the samples listed, the reference sample included, and the
scan passes over repeated samples (spec/40_transport.md R75). -/

namespace Sys2Proof.Machine

/-! ## Scanning a list to the sample that stops -/

/-- Scan a list of samples up to the one that stops the scan: the verdict and the bytes completed before it; `none` if none stops it. -/
def scanStop (st : List LineState) (maxb : Nat) : Scan → List LineState → Option (Verdict × List Byte)
  | _, [] => none
  | sc, x :: xs =>
    match scanStep st maxb x sc with
    | .stop v => some (v, [])
    | .go sc' byte => (scanStop st maxb sc' xs).map (fun r => (r.1, byte.toList ++ r.2))

section
variable {st : List LineState} {maxb : Nat} {sc : Scan} {x : LineState} (xs : List LineState)

theorem scanStop_cons_stop {v : Verdict} (h : scanStep st maxb x sc = .stop v) : scanStop st maxb sc (x :: xs) = some (v, []) := by
  rw [scanStop, h]

theorem scanStop_cons_go {sc' : Scan} {byte : Option Byte} (h : scanStep st maxb x sc = .go sc' byte) :
    scanStop st maxb sc (x :: xs) = (scanStop st maxb sc' xs).map (fun r => (r.1, byte.toList ++ r.2)) := by
  rw [scanStop, h]

theorem scanStop_cons_prev : scanStop st maxb sc (sc.prev :: xs) = scanStop st maxb sc xs := by
  rw [scanStop_cons_go xs (scanStep_prev sc)]
  exact Option.map_id'

theorem scanStop_replicate_prev (k : Nat) : scanStop st maxb sc (List.replicate k sc.prev ++ xs) = scanStop st maxb sc xs := by
  induction k with
  | zero => rfl
  | succ k ih => rw [List.replicate_succ, List.cons_append, scanStop_cons_prev, ih]

/-- The scan of two lists from the same sample on agrees when it agrees after that sample. -/
theorem scanStop_cons_congr {ys : List LineState}
    (h : ∀ sc' : Scan, sc'.prev = x → scanStop st maxb sc' xs = scanStop st maxb sc' ys) :
    scanStop st maxb sc (x :: xs) = scanStop st maxb sc (x :: ys) := by
  cases hx : scanStep st maxb x sc with
  | stop v => rw [scanStop_cons_stop xs hx, scanStop_cons_stop ys hx]
  | go sc' byte => rw [scanStop_cons_go xs hx, scanStop_cons_go ys hx, h sc' (scanStep_go_prev hx)]

theorem scanStop_destutter' : scanStop st maxb sc (xs.destutter' (· ≠ ·) x) = scanStop st maxb sc (x :: xs) := by
  induction xs generalizing x sc with
  | nil => rfl
  | cons y ys ih =>
    by_cases hxy : x ≠ y
    · rw [List.destutter'_cons_pos _ hxy]
      exact scanStop_cons_congr _ fun sc' _ => ih
    · obtain rfl := not_not.1 hxy
      rw [List.destutter'_cons_neg _ hxy, ih]
      exact scanStop_cons_congr _ fun sc' hsc' => by subst hsc'; rw [scanStop_cons_prev]

end

/-! ## A reception that the scan ends -/

/-- What RECV makes of the samples listed: the first is the reference and counts as a repeated sample (spec/40_transport.md R74). -/
def scanQueue (st : List LineState) (maxb : Nat) : List LineState → Option (Verdict × List Byte)
  | [] => none
  | ref :: q => scanStop st maxb (Scan.init ref) q

theorem head?_destutter' (x : LineState) (xs : List LineState) : (xs.destutter' (· ≠ ·) x).head? = some x := by
  induction xs with
  | nil => rfl
  | cons y ys ih =>
    by_cases hxy : x ≠ y
    · rw [List.destutter'_cons_pos _ hxy, List.head?_cons]
    · rw [List.destutter'_cons_neg _ hxy, ih]

theorem scanQueue_eq_of_sameTransitions (st : List LineState) (maxb : Nat) {xs ys : List LineState}
    (h : Claims.SameTransitions xs ys) : scanQueue st maxb xs = scanQueue st maxb ys := by
  match xs, ys, h with
  | [], [], _ => rfl
  | [], _ :: _, h => exact absurd h.symm (List.destutter'_ne_nil _ _)
  | _ :: _, [], h => exact absurd h (List.destutter'_ne_nil _ _)
  | ref :: xs, ref' :: ys, h =>
    replace h : xs.destutter' (· ≠ ·) ref = ys.destutter' (· ≠ ·) ref' := h
    obtain rfl : ref = ref' := by
      rw [← Option.some.injEq, ← head?_destutter' ref xs, h, head?_destutter']
    have hdup : ∀ zs, scanStop st maxb (Scan.init ref) zs = scanStop st maxb (Scan.init ref) (zs.destutter' (· ≠ ·) ref) :=
      fun zs => ((scanStop_destutter' zs).trans (scanStop_cons_prev zs)).symm
    rw [scanQueue, scanQueue, hdup xs, h, ← hdup ys]

/-- With both lines released, a listed sample is what the peer contributes (spec/10_state.md R22). -/
theorem Peer.sample_cons (x : LineState) (q : List LineState) (n : Nat) :
    Peer.sample ⟨x :: q, n⟩ ⟨true, true⟩ = (x, ⟨q, n + 1⟩) := by
  show (LineState.wiredAnd ⟨true, true⟩ x, _) = _
  rw [LineState.released_wiredAnd]

/-- The second loop on samples that are all listed, when it ends before its budget does (spec/40_transport.md R74). -/
theorem scanStop_of_capture (st : List LineState) (maxb budget : Nat) (x : LineState) (sc : Scan) (p : Peer)
    (hv : (capture st maxb ⟨true, true⟩ budget x sc p).verdict ≠ .frameError .unterminated)
    (ht : (capture st maxb ⟨true, true⟩ budget x sc p).peer.taken ≤ p.taken + p.queued.length) :
    scanStop st maxb sc (x :: p.queued) =
      some ((capture st maxb ⟨true, true⟩ budget x sc p).verdict, (capture st maxb ⟨true, true⟩ budget x sc p).bytes) := by
  induction budget generalizing x sc p with
  | zero => exact absurd rfl hv
  | succ budget ih =>
    rw [capture_succ] at hv ht ⊢
    cases hx : scanStep st maxb x sc with
    | stop v => exact scanStop_cons_stop _ hx
    | go sc' byte =>
      simp only [hx, captureNext] at hv ht ⊢
      by_cases hb : budget = 0
      · exact absurd (by rw [if_pos hb]) hv
      · rw [if_neg hb] at hv ht ⊢
        rcases p with ⟨_ | ⟨x', q⟩, n⟩
        · obtain ⟨⟨m, -, hl, -⟩, -⟩ := capture_bounds st maxb ⟨true, true⟩ budget (Peer.sample ⟨[], n⟩ ⟨true, true⟩).1 sc'
            (Peer.sample ⟨[], n⟩ ⟨true, true⟩).2
          rw [Peer.sample_taken] at hl
          simp only [hl, List.length_nil] at ht
          omega
        · rw [Peer.sample_cons] at hv ht ⊢
          rw [scanStop_cons_go _ hx, ih x' sc' ⟨q, n + 1⟩ hv (by simp only [List.length_cons] at ht ⊢; omega)]
          rfl

/-- The first loop on samples that are all listed. -/
theorem queued_of_awaitChange (ref : LineState) (budget : Nat) (p p' : Peer) (x : LineState)
    (h : awaitChange ⟨true, true⟩ ref budget p = (some x, p')) (ht : p'.taken ≤ p.taken + p.queued.length) :
    ∃ k, p.queued = List.replicate k ref ++ x :: p'.queued ∧ p'.taken = p.taken + k + 1 := by
  induction budget generalizing p with
  | zero => cases h
  | succ budget ih =>
    obtain ⟨m, -, hl, hpos⟩ := awaitChange_later ⟨true, true⟩ ref (budget + 1) p
    rw [h] at hl hpos
    have hm := hpos (by simp)
    rcases p with ⟨_ | ⟨x', q⟩, n⟩
    · rw [hl.1, List.length_nil] at ht
      omega
    · rw [awaitChange, Peer.sample_cons] at h
      by_cases hx : x' = ref
      · simp only [if_pos hx] at h
        obtain ⟨k, hq, hk⟩ := ih ⟨q, n + 1⟩ h (by simp only [List.length_cons] at ht ⊢; omega)
        exact ⟨k + 1, by rw [hx, List.replicate_succ]; exact congrArg _ hq, hk.trans (by simp only; omega)⟩
      · simp only [if_neg hx, Prod.mk.injEq, Option.some.injEq] at h
        obtain ⟨rfl, rfl⟩ := h
        exact ⟨0, rfl, rfl⟩

/-- The two loops together, on samples that are all listed: the reference sample may be scanned with the rest. -/
theorem scanQueue_of_capture (st : List LineState) (maxb tmo budget n : Nat) (ref x : LineState) (q : List LineState) (p : Peer)
    (hc : awaitChange ⟨true, true⟩ ref tmo ⟨q, n⟩ = (some x, p))
    (hv : (capture st maxb ⟨true, true⟩ budget x (Scan.init ref) p).verdict ≠ .frameError .unterminated)
    (ht : (capture st maxb ⟨true, true⟩ budget x (Scan.init ref) p).peer.taken ≤ n + q.length) :
    scanQueue st maxb (ref :: q) =
      some ((capture st maxb ⟨true, true⟩ budget x (Scan.init ref) p).verdict,
        (capture st maxb ⟨true, true⟩ budget x (Scan.init ref) p).bytes) := by
  obtain ⟨⟨m, -, hl, -⟩, -⟩ := capture_bounds st maxb ⟨true, true⟩ budget x (Scan.init ref) p
  obtain ⟨k, hq, htaken⟩ := queued_of_awaitChange ref tmo ⟨q, n⟩ p x hc (by simp only; omega)
  simp only at hq htaken
  rw [hq, List.length_append, List.length_replicate, List.length_cons] at ht
  rw [scanQueue, hq]
  exact (scanStop_replicate_prev (sc := Scan.init ref) (x :: p.queued) k).trans
    (scanStop_of_capture st maxb budget x (Scan.init ref) p hv (by omega))

/-- RECV ended by the scan, on samples that are all listed, is the scan of the list (spec/40_transport.md R74). -/
theorem receivePacket_eq_scanQueue {s : State} {maxb tmo : Nat} (hr : s.Released) (hfit : s.RecvFits maxb)
    (ht : (receivePacket maxb tmo s).peer.taken - s.peer.taken ≤ s.peer.queued.length)
    (hv : (receivePacket maxb tmo s).status ∉ [0x0FF, 0x4FE]) :
    ∃ v bytes p, scanQueue s.params.startSeq maxb s.peer.queued = some (v, bytes) ∧
      receivePacket maxb tmo s = s.received ⟨v, bytes, p⟩ := by
  obtain ⟨hlt, -⟩ := receivePacket_peer s maxb tmo hfit
  have hlat : s.latches = ⟨true, true⟩ := by rw [State.latches, hr.1, hr.2]
  cases hq : s.peer.queued with
  | nil =>
    rw [hq, List.length_nil] at ht
    omega
  | cons ref q =>
    have hs : s.peer.sample ⟨true, true⟩ = (ref, ⟨q, s.peer.taken + 1⟩) := by
      rw [← Peer.sample_cons, ← hq]
    rw [hq, List.length_cons] at ht
    rcases hc : awaitChange ⟨true, true⟩ ref tmo ⟨q, s.peer.taken + 1⟩ with ⟨_ | x, p⟩
    · have he : receivePacket maxb tmo s = { s with rxlen := 0, peer := p }.finish .timeout 0 := by
        simp only [receivePacket, if_pos hfit, hlat, hs, hc]
      rw [he] at hv
      exact absurd (List.mem_cons_self ..) hv
    · have he : receivePacket maxb tmo s = s.received
          (capture s.params.startSeq maxb ⟨true, true⟩ s.params.sampleBufSize x (Scan.init ref) p) := by
        simp only [receivePacket, if_pos hfit, hlat, hs, hc]
      rw [he, State.received_peer] at ht
      rw [he, State.received_status] at hv
      refine ⟨_, _, _, scanQueue_of_capture _ _ _ _ _ _ _ _ _ hc (fun h => hv ?_) (by omega), he⟩
      rw [h]
      decide

/-- Settles O30: both receptions are the scan of their lists, which have one transition trace. -/
theorem recvDependsOnlyOnTheTransitionTrace : Obligations.RecvDependsOnlyOnTheTransitionTrace := by
  intro s s' t t' maxb tmo tmo' _ hst hr hr' hfit hfit' _ hsame ht ht' htaken htaken' hv hv'
  obtain rfl := (exec_next_iff _ s t).1 ht
  obtain rfl := (exec_next_iff _ s' t').1 ht'
  simp only [result] at htaken htaken' hv hv' ⊢
  obtain ⟨v, bytes, p, hscan, he⟩ := receivePacket_eq_scanQueue hr hfit htaken hv
  obtain ⟨v', bytes', p', hscan', he'⟩ := receivePacket_eq_scanQueue hr' hfit' htaken' hv'
  rw [hst, ← scanQueue_eq_of_sameTransitions _ _ hsame, hscan] at hscan'
  obtain ⟨rfl, rfl⟩ := Prod.mk.inj (Option.some.inj hscan')
  rw [he, he']
  refine ⟨rfl, rfl, List.map_congr_left fun i hi => ?_⟩
  have hi : i < bytes.length := by
    rw [List.mem_range, State.received_rxlen, BitVec.toNat_ofNat] at hi
    exact hi.trans_le (Nat.mod_le _ _)
  simp only [State.received_rxByte, List.getElem?_eq_getElem hi, Option.getD_some]

end Sys2Proof.Machine
end

section
/-! A frame over the bus: RXF of the trace of a packet, and TXF of one block to RXF of another (spec/42_transactions.md R110, R111). -/

namespace Sys2Proof.Machine

/-! ## What each half leaves to the other -/

section
variable (s : State)

@[simp] theorem receivePacket_params (maxb tmo : Nat) : (receivePacket maxb tmo s).params = s.params := by
  rw [receivePacket_frame]

@[simp] theorem receivePacket_ctrl (maxb tmo : Nat) : (receivePacket maxb tmo s).ctrl = s.ctrl := by rw [receivePacket_frame]

@[simp] theorem receivePacket_pwWord (maxb tmo i : Nat) : (receivePacket maxb tmo s).pwWord i = s.pwWord i := by
  rw [receivePacket_frame]
  rfl

@[simp] theorem decodeFrame_rxlen : (decodeFrame s).rxlen = s.rxlen := by rw [decodeFrame_frame]

@[simp] theorem decodeFrame_rxByte (i : Nat) : (decodeFrame s).rxByte i = s.rxByte i := by
  rw [decodeFrame_frame]
  rfl

@[simp] theorem decodeFrame_rxBytes (n : Nat) : (decodeFrame s).rxBytes n = s.rxBytes n :=
  List.map_congr_left fun i _ => decodeFrame_rxByte s i

@[simp] theorem decodeFrame_peer : (decodeFrame s).peer = s.peer := by rw [decodeFrame_frame]

@[simp] theorem encodeFrame_params : (encodeFrame s).params = s.params := by rw [encodeFrame_frame]

@[simp] theorem encodeFrame_outputs : (encodeFrame s).outputs = s.outputs := by rw [encodeFrame_frame]

end

/-! ## RXF -/

/-- RXF of a packet the peer sends is DECF of that packet as RECV leaves it (spec/42_transactions.md R111). -/
theorem rxf_of_packet {s : State} {maxb tmo : Nat} {hdr : Word} {words : List Word} (hwf : s.params.Wf)
    (hfit : maxb ≤ s.params.rxbufSize) (hn : packetLength words.length ≤ maxb)
    (hsend : Claims.PeerSends s tmo (txTrace s.params (packetBytes hdr words))) :
    result (.rxf maxb tmo) s = decodeFrame (receivePacket maxb tmo s) ∧
      RecvLeaves s (receivePacket maxb tmo s) .ok (packetBytes hdr words) ∧
      (receivePacket maxb tmo s).DecodeFits := by
  have h := receivePacket_txTrace hwf hfit ((packetBytes_length hdr words).trans_le hn) hsend
  have hcode := State.code_of_status _ .ok 0 h.status
  exact ⟨if_pos hcode, h, receivePacket_ok_decodeFits s maxb tmo hwf hcode⟩

/-- Settles O40: the reception leaves the packet in `RXBUF`, strict DECF delivers it, and neither writes anything else. -/
theorem rxfDeliversTheFrameThePeerSends : Obligations.RxfDeliversTheFrameThePeerSends := by
  intro s maxb tmo hdr words hwf hfit hrel hn hsend
  have hlen := packetBytes_length hdr words
  obtain ⟨hrxf, ⟨-, hrxlen, hrx, hrxBeyond⟩, hdecodeFits⟩ := rxf_of_packet hwf hfit hn hsend
  rw [hlen] at hrxlen hrx hrxBeyond
  obtain ⟨htaken, hqueued⟩ := receivePacket_peer s maxb tmo hfit
  obtain ⟨hst, hhdr, hnwords, hpw, hpwBeyond⟩ := decodeFrame_of_packet _ hdr words (by rwa [receivePacket_params]) hdecodeFits
    (by rwa [State.Relaxed, receivePacket_ctrl]) hrxlen hrx
  have hframe := rxf_frame maxb tmo s
  obtain ⟨⟨hA, hB⟩, -⟩ := hsend
  refine ⟨_, exec_eq _ s, ?_⟩
  rw [hrxf] at hframe ⊢
  simp only [decodeFrame_rxlen, decodeFrame_rxByte, decodeFrame_rxBytes, decodeFrame_peer] at hframe ⊢
  rw [hst, hhdr] at hframe
  exact ⟨hst, hhdr, hnwords, hpw, hrxlen, hrx, fun i hi => (hpwBeyond i hi).trans (receivePacket_pwWord s maxb tmo i), hrxBeyond,
    htaken, hqueued, hframe.trans (by rw [hA, hB]; rfl)⟩

/-! ## TXF -/

/-- What TXF drives (spec/42_transactions.md R110). -/
theorem txf_outputs (s : State) (h : s.EncodeFits) :
    (result .txf s).outputs =
      s.outputs ++ (txTrace s.params (packetBytes s.hdr (s.pwWords s.payloadCount))).map Output.drove := by
  have hlen := encodeFrame_txlen s h
  have hcode : (encodeFrame s).code = 0x00 := by rw [encodeFrame_fits s h]; exact State.finish_code _ .ok 0
  have hfits : (encodeFrame s).SendFits := by
    rw [State.SendFits, hlen, encodeFrame_params]
    exact h.2
  have htxf : result .txf s = sendPacket (encodeFrame s) := if_pos hcode
  rw [htxf, sendPacket_fits _ hfits, ← encodeFrame_txBytes s h, ← hlen, encodeFrame_params, encodeFrame_outputs]

/-- Settles O41: the states driven are the trace of the packet of `HDR` and `PW`, which the other block receives. -/
theorem frameCrossesTheBusUnchanged : Obligations.FrameCrossesTheBusUnchanged := by
  intro s t r maxb tmo trace hfits ht hout hwf hstart hstop hfit hn hrel hsend
  obtain rfl := (exec_next_iff _ s t).1 ht
  have htrace : trace = txTrace r.params (packetBytes s.hdr (s.pwWords s.payloadCount)) := by
    rw [txf_outputs s hfits, List.append_cancel_left_eq] at hout
    rw [txTrace, hstart, hstop]
    exact (List.map_injective_iff.2 (fun _ _ => Output.drove.inj) hout).symm
  rw [htrace] at hsend
  have hlen := s.pwWords_length s.payloadCount
  obtain ⟨v, hv, hst, hhdr, hnwords, hpw, -⟩ := rxfDeliversTheFrameThePeerSends r maxb tmo s.hdr _ hwf hfit hrel
    (by rwa [hlen]) hsend
  rw [hlen] at hnwords hpw
  exact ⟨v, hv, hst, hhdr, hnwords, hpw⟩

end Sys2Proof.Machine
end

section
/-! ENCF (spec/41_frame_codec.md R95): where the bytes of the packet stand in `TXBUF`, and that encoding again changes nothing. -/

namespace Sys2Proof.Machine

/-! ## The bytes of the packet -/

theorem State.txBytes_succ (s : State) (n : Nat) : s.txBytes (n + 1) = s.txBytes n ++ [s.txByte n] := by
  simp [State.txBytes, List.range_succ]

section
variable {s : State} (h : s.EncodeFits)
include h

/-- Byte `j` of group `g`, group 0 being the header and group `i + 1` being `PW[i]` (spec/41_frame_codec.md R91, R93). -/
theorem encodeFrame_txByte_group {g j : Nat} {w : Word} (hg : (s.hdr :: s.pwWords s.payloadCount)[g]? = some w) (hj : j < 4) :
    (encodeFrame s).txByte (4 * g + j) = wordByte w j := by
  obtain ⟨hlt, -⟩ := List.getElem?_eq_some_iff.1 hg
  rw [List.length_cons] at hlt
  rw [encodeFrame_txByte s h, packetBytes_getElem?_body _ _ _ (by omega), packetBody_getElem? _ _ g j (by omega) hj, hg]
  rfl

theorem encodeFrame_txByte_header {j : Nat} (hj : j < 4) : (encodeFrame s).txByte j = wordByte s.hdr j := by
  simpa using encodeFrame_txByte_group h (g := 0) rfl hj

theorem encodeFrame_txByte_payload {i j : Nat} (hi : i < s.payloadCount) (hj : j < 4) :
    (encodeFrame s).txByte (4 + 4 * i + j) = wordByte (s.pwWord i) j := by
  rw [show 4 + 4 * i = 4 * (i + 1) by omega]
  exact encodeFrame_txByte_group h (by simp [State.pwWords, hi]) hj

/-- The last byte is the checksum of those before it (spec/41_frame_codec.md R94). -/
theorem encodeFrame_txByte_checksum :
    (encodeFrame s).txByte (4 * s.payloadCount + 4) = xorBytes ((encodeFrame s).txBytes (4 * s.payloadCount + 4)) := by
  have hpacket : (encodeFrame s).txBytes (4 * s.payloadCount + 4) ++ [(encodeFrame s).txByte (4 * s.payloadCount + 4)] =
      packetBytes s.hdr (s.pwWords s.payloadCount) :=
    (State.txBytes_succ _ _).symm.trans (encodeFrame_txBytes s h)
  obtain ⟨hbody, hsum⟩ := List.append_singleton_inj.1 hpacket
  rw [hbody, hsum]

theorem encodeFrame_txByte_beyond {i : Nat} (hi : 4 * s.payloadCount + 5 ≤ i) : (encodeFrame s).txByte i = s.txByte i := by
  rw [encodeFrame_txByte s h, List.getElem?_eq_none, Option.getD_none]
  rwa [packetBytes_length, State.pwWords_length]

end

/-- Settles O31: the bytes one by one, and the frame; an operand that does not fit only ends the operation. -/
theorem encfBuildsThePacket : Obligations.EncfBuildsThePacket := by
  intro s N hN
  obtain rfl : N = s.payloadCount := hN
  refine ⟨fun h => ⟨encodeFrame s, exec_eq .encf s, encodeFrame_txByte_header h (by decide),
    encodeFrame_txByte_header h (by decide), encodeFrame_txByte_header h (by decide), encodeFrame_txByte_header h (by decide),
    fun i j => encodeFrame_txByte_payload h, ?_, fun i => encodeFrame_txByte_beyond h, encodeFrame_txlen s h, ?_⟩, fun h => ?_⟩
  · rw [Nat.add_comm 4]
    exact encodeFrame_txByte_checksum h
  · rw [encodeFrame_fits s h]
    rfl
  · have hfit : ¬ s.EncodeFits := fun ⟨hpw, htx⟩ => h.elim hpw.not_gt htx.not_gt
    rw [exec_eq]
    exact congrArg _ (encodeFrame_rejects s hfit)

/-! ## Encoding again -/

/-- A run of writes made twice is made once, in canonical form. -/
theorem Memory.storeAll_storeAll {w : Nat} {m : Memory w} (h : m.Pairwise (fun c d => c.1 < d.1)) (base : Nat)
    (vs : List (BitVec w)) : (m.storeAll base vs).storeAll base vs = m.storeAll base vs :=
  Memory.storeAll_of_find vs _ base (Memory.storeAll_pairwise vs m base h) fun i hi => by
    rw [Memory.find_storeAll, if_pos (by omega), Nat.add_sub_cancel_left, List.getElem?_eq_getElem hi]

theorem encodeFrame_encodeFrame {s : State} (h : s.txbuf.Pairwise (fun c d => c.1 < d.1)) :
    encodeFrame (encodeFrame s) = encodeFrame s := by
  by_cases hf : s.EncodeFits
  · rw [encodeFrame_fits s hf]
    refine (encodeFrame_fits _ ?_).trans ?_
    · exact hf
    · exact congrArg (fun m => ({ s with txbuf := m, txlen := _ } : State).finish .ok 0) (Memory.storeAll_storeAll h 0 _)
  · rw [encodeFrame_rejects s hf]
    exact encodeFrame_rejects _ hf

/-- Settles O32: the packet is the same, and writing it again changes no buffer in canonical form. -/
theorem encfIsIdempotent : Obligations.EncfIsIdempotent := by
  rintro s t ⟨⟨hsorted, -⟩, -⟩ ht
  obtain rfl := (exec_next_iff _ s t).1 ht
  exact (exec_next_iff _ _ _).2 (encodeFrame_encodeFrame hsorted).symm

end Sys2Proof.Machine
end

section
/-! DECF (spec/41_frame_codec.md R96, R97, R101): each way it ends, and what a delivery leaves. -/

namespace Sys2Proof.Machine

/-! ## The ways DECF ends -/

section
variable {s : State}

theorem decodeFrame_operandError (hf : ¬ s.DecodeFits) : decodeFrame s = s.finish .operandError 0 := if_neg hf

section
variable (hf : s.DecodeFits) (hr : ¬ s.Relaxed)
include hf hr

theorem decodeFrame_strict_lengthError (hl : ¬ StrictLength s.rxlen.toNat) : decodeFrame s = s.finish .lengthError 0 := by
  rw [decodeFrame, if_pos hf, if_neg hr, decodeStrict, if_neg hl]

theorem decodeFrame_strict_checksumError (hl : StrictLength s.rxlen.toNat) (hsum : ¬ s.ChecksumOk s.rxlen.toNat) :
    decodeFrame s = s.finish .checksumError 0 := by
  rw [decodeFrame, if_pos hf, if_neg hr, decodeStrict, if_pos hl, if_neg hsum]

theorem decodeFrame_strict_ok (hl : StrictLength s.rxlen.toNat) (hsum : s.ChecksumOk s.rxlen.toNat) :
    decodeFrame s = (s.deliver (strictGroups s.rxlen.toNat)).finish .ok 0 := by
  rw [decodeFrame, if_pos hf, if_neg hr, decodeStrict, if_pos hl, if_pos hsum]

end

section
variable (hf : s.DecodeFits) (hr : s.Relaxed)
include hf hr

theorem decodeFrame_relaxed_lengthError (hn : s.rxlen.toNat < 4) : decodeFrame s = s.finish .lengthError 0 := by
  rw [decodeFrame, if_pos hf, if_pos hr, decodeRelaxed, if_pos (by rw [relaxedGroups]; omega)]

theorem decodeFrame_relaxed_ok (hn : 4 ≤ s.rxlen.toNat) :
    decodeFrame s = (s.deliver (relaxedGroups s.rxlen.toNat)).finish .ok 0 := by
  rw [decodeFrame, if_pos hf, if_pos hr, decodeRelaxed, if_neg (by rw [relaxedGroups]; omega)]

end

end

/-! ## Delivering -/

/-- What DECF leaves in `t` when it delivers the header and `words` payload words that stand in `RXBUF` of `s`: they, their number, and
nothing else changed (spec/41_frame_codec.md R96, R97). -/
def State.Delivers (s t : State) (words : Nat) : Prop :=
  t.hdr = s.rxByte 3 ++ s.rxByte 2 ++ s.rxByte 1 ++ s.rxByte 0 ∧
  t.nwords.toNat = words ∧
  (∀ i, i < words → t.pwWord i =
    s.rxByte (7 + 4 * i) ++ s.rxByte (6 + 4 * i) ++ s.rxByte (5 + 4 * i) ++ s.rxByte (4 + 4 * i)) ∧
  (∀ i, words ≤ i → t.pwWord i = s.pwWord i) ∧
  t = { s with status := 0x000, hdr := t.hdr, nwords := t.nwords, pw := t.pw, drvA := true, drvB := true }

/-- Group `i + 1` is payload word `i` (spec/41_frame_codec.md R90). -/
theorem State.rxGroup_succ (s : State) (i : Nat) :
    s.rxGroup (i + 1) =
      s.rxByte (7 + 4 * i) ++ s.rxByte (6 + 4 * i) ++ s.rxByte (5 + 4 * i) ++ s.rxByte (4 + 4 * i) := by
  rw [State.rxGroup, bytesWord, show 4 * (i + 1) = 4 + 4 * i by omega, show 4 + 4 * i + 3 = 7 + 4 * i by omega,
    show 4 + 4 * i + 2 = 6 + 4 * i by omega, show 4 + 4 * i + 1 = 5 + 4 * i by omega]

/-- A number of groups that fits `NWORDS` is delivered whole. -/
theorem State.deliver_delivers (s : State) {g : Nat} (hg : g ≤ 1024) : s.Delivers ((s.deliver g).finish .ok 0) (g - 1) := by
  refine ⟨rfl, ?_, fun i hi => ?_, fun i hi => ?_, rfl⟩
  · rw [State.finish_nwords, State.deliver_nwords, BitVec.toNat_ofNat, Nat.mod_eq_of_lt (by omega)]
  · rw [State.finish_pwWord, State.deliver_pwWord, if_pos hi, State.rxGroup_succ]
  · rw [State.finish_pwWord, State.deliver_pwWord, if_neg hi.not_gt]

/-- Settles O33: operand, length and checksum are tested in this order before anything is delivered. -/
theorem decfValidatesAndDelivers : Obligations.DecfValidatesAndDelivers := by
  rintro s n hwf rfl hr
  have hR := hwf.rxbufSize_le
  simp only [exec_eq, result]
  refine ⟨fun h => congrArg _ (decodeFrame_operandError h.not_ge), fun hf => ⟨fun h => ?_, fun ⟨h5, h4, hsum⟩ => ?_,
    fun ⟨h5, h4, hsum⟩ => ⟨_, congrArg _ (decodeFrame_strict_ok hf hr ⟨h5, h4⟩ hsum), ?_⟩⟩⟩
  · exact congrArg _ (decodeFrame_strict_lengthError hf hr fun ⟨h5, h4⟩ => h.elim h5.not_gt (· h4))
  · exact congrArg _ (decodeFrame_strict_checksumError hf hr ⟨h5, h4⟩ hsum)
  · exact s.deliver_delivers (by rw [strictGroups]; omega)

/-- Settles O34: the only test besides the operand's is that there is a whole group. -/
theorem decfRelaxedDeliversWholeGroups : Obligations.DecfRelaxedDeliversWholeGroups := by
  rintro s n hwf rfl hr
  have hR := hwf.rxbufSize_le
  simp only [exec_eq, result]
  refine ⟨fun h => congrArg _ (decodeFrame_operandError h.not_ge), fun hf => ⟨fun h => ?_,
    fun h => ⟨_, congrArg _ (decodeFrame_relaxed_ok hf hr h), ?_⟩⟩⟩
  · exact congrArg _ (decodeFrame_relaxed_lengthError hf hr h)
  · exact s.deliver_delivers (by rw [relaxedGroups]; omega)

/-- Settles O35: such a length fails the length test, which comes first. -/
theorem decfRejectsEveryBadLength : Obligations.DecfRejectsEveryBadLength := by
  intro s hf hr hbad
  have hl : ¬ StrictLength s.rxlen.toNat := fun ⟨h5, h4⟩ => by omega
  rw [exec_eq]
  exact congrArg _ (decodeFrame_strict_lengthError hf hr hl)

/-! ## ENCF and DECF together -/

/-- Settles O37: what was copied is the packet of `HDR` and `PW`, which strict DECF delivers. -/
theorem decfUndoesEncf : Obligations.DecfUndoesEncf := by
  intro s t u h ht hwf hf hr hlen hbytes
  obtain rfl := (exec_next_iff _ s t).1 ht
  have htxlen : (result .encf s).txlen.toNat = packetLength s.payloadCount := encodeFrame_txlen s h
  have hpacket : u.rxBytes (packetLength s.payloadCount) = packetBytes s.hdr (s.pwWords s.payloadCount) := by
    rw [htxlen] at hbytes
    exact hbytes.trans (encodeFrame_txBytes s h)
  have hn := s.pwWords_length s.payloadCount
  obtain ⟨hst, hhdr, hnwords, hpw, -⟩ := decodeFrame_of_packet u s.hdr (s.pwWords s.payloadCount) hwf hf hr
    (by rw [hlen, htxlen, hn]) (by rwa [hn])
  rw [hn] at hnwords hpw
  exact ⟨_, exec_eq _ u, hst, hhdr, hnwords, hpw⟩

/-- Settles O45: every way ENCF or DECF ends but Ok writes `STATUS` only. -/
theorem failedCodecOperationChangesOnlyStatus : Obligations.FailedCodecOperationChangesOnlyStatus := by
  intro i s t hi ht hcode
  obtain rfl := (exec_next_iff i s t).1 ht
  rcases List.mem_pair.1 hi with rfl | rfl
  · simp only [result] at hcode ⊢
    by_cases hf : s.EncodeFits
    · rw [encodeFrame_fits s hf, State.finish_code] at hcode
      exact absurd rfl hcode
    · rw [encodeFrame_rejects s hf]
      rfl
  · simp only [result] at hcode ⊢
    rcases decodeFrame_cases s with ⟨g, -, -, -, he⟩ | he | ⟨-, he⟩ | ⟨-, he⟩ <;> rw [he] at hcode ⊢
    · rw [State.finish_code] at hcode
      exact absurd rfl hcode
    all_goals rfl

end Sys2Proof.Machine
end

section
/-! Errors in a packet (spec/41_frame_codec.md R94, R100): the checksum holds exactly when the exclusive or of all bytes is 0, so it sees the
exclusive or of the errors only. -/

namespace Sys2Proof.Machine

/-- The exclusive or is 0 exactly when every bit is set in an even number of bytes. -/
theorem xorBytes_eq_zero_iff (ys : List Byte) :
    xorBytes ys = 0 ↔ ∀ b, b < 8 → (ys.filter (fun y => y.getLsbD b)).length % 2 = 0 := by
  rw [BitVec.eq_of_getLsbD_eq_iff]
  simp [xorBytes_getLsbD]

theorem State.rxBytes_succ (s : State) (n : Nat) : s.rxBytes (n + 1) = s.rxBytes n ++ [s.rxByte n] := by
  simp [State.rxBytes, List.range_succ]

/-- A packet has a correct checksum exactly when the exclusive or of all its bytes is 0 (spec/41_frame_codec.md R94). -/
theorem State.checksumOk_iff (s : State) {n : Nat} (hn : 0 < n) : s.ChecksumOk n ↔ xorBytes (s.rxBytes n) = 0 := by
  obtain ⟨n, rfl⟩ := Nat.exists_eq_add_one_of_ne_zero hn.ne'
  have hsplit : xorBytes (s.rxBytes (n + 1)) = xorBytes (s.rxBytes n) ^^^ s.rxByte n := by
    simp [State.rxBytes_succ, xorBytes_append]
  rw [hsplit]
  exact BitVec.xor_eq_zero_iff.symm

/-- The errors `e` invert every bit position in an even number of the first `n` bytes. -/
def ErrorsCancel (e : Nat → Byte) (n : Nat) : Prop :=
  ∀ b, b < 8 → ((List.range n).filter (fun i => (e i).getLsbD b)).length % 2 = 0

theorem errorsCancel_iff (e : Nat → Byte) (n : Nat) : ErrorsCancel e n ↔ xorBytes ((List.range n).map e) = 0 := by
  simp only [ErrorsCancel, xorBytes_eq_zero_iff, List.filter_map, List.length_map, Function.comp_def]

/-- The error that inverts bit `b` of byte `k` alone. -/
def singleBitError (k b i : Nat) : Byte := if i = k then BitVec.twoPow 8 b else 0

theorem singleBitError_getLsbD (k i : Nat) {b : Nat} (hb : b < 8) : (singleBitError k b i).getLsbD b = decide (i = k) := by
  by_cases h : i = k <;> simp [singleBitError, h, hb]

/-- One error at bit `b` is an odd number of them. -/
theorem not_errorsCancel_singleBitError {k b n : Nat} (hk : k < n) (hb : b < 8) : ¬ ErrorsCancel (singleBitError k b) n := by
  intro h
  have heven := h b hb
  simp only [singleBitError_getLsbD k _ hb, List.filter_eq, List.length_replicate,
    List.count_eq_one_of_mem List.nodup_range (List.mem_range.2 hk)] at heven
  exact absurd heven (by decide)

section
variable {s s' : State} {e : Nat → Byte} (hv : Claims.HoldsValidPacket s) (hlen : s'.rxlen = s.rxlen)
  (hbyte : ∀ i, s'.rxByte i = s.rxByte i ^^^ e i)
include hv hlen hbyte

/-- The checksum of a corrupted valid packet is the exclusive or of the errors. -/
theorem checksumOk_corrupted_iff : s'.ChecksumOk s'.rxlen.toNat ↔ ErrorsCancel e s.rxlen.toNat := by
  obtain ⟨-, -, h5, -, hsum⟩ := hv
  have hvalid := (s.checksumOk_iff (by omega)).1 hsum
  rw [hlen, s'.checksumOk_iff (by omega), errorsCancel_iff, State.rxBytes, funext hbyte, xorBytes_map_xor, ← State.rxBytes,
    hvalid]
  exact Eq.congr_left BitVec.zero_xor

/-- Strict DECF of a corrupted valid packet passes the length test, and the errors decide the rest (spec/41_frame_codec.md R100). -/
theorem decodeFrame_corrupted (hctrl : s'.ctrl = s.ctrl) (hparams : s'.params = s.params) :
    (ErrorsCancel e s.rxlen.toNat ∧ decodeFrame s' = (s'.deliver (strictGroups s'.rxlen.toNat)).finish .ok 0) ∨
    (¬ ErrorsCancel e s.rxlen.toNat ∧ decodeFrame s' = s'.finish .checksumError 0) := by
  rw [← checksumOk_corrupted_iff hv hlen hbyte]
  obtain ⟨hf, hr, h5, h4, -⟩ := hv
  have hf' : s'.DecodeFits := by rwa [State.DecodeFits, hlen, hparams]
  have hr' : ¬ s'.Relaxed := by rwa [State.Relaxed, hctrl]
  have hl' : StrictLength s'.rxlen.toNat := by rw [hlen]; exact ⟨h5, h4⟩
  by_cases hsum : s'.ChecksumOk s'.rxlen.toNat
  · exact .inl ⟨hsum, decodeFrame_strict_ok hf' hr' hl' hsum⟩
  · exact .inr ⟨hsum, decodeFrame_strict_checksumError hf' hr' hl' hsum⟩

end

/-- Settles O36: a single error never cancels, and DECF accepts the packet exactly when the errors do. -/
theorem decfDetectsEverySingleBitError : Obligations.DecfDetectsEverySingleBitError := by
  refine ⟨fun s s' k b hv hk hb hlen hctrl hparams hbyte => ?_, fun s s' e hv hlen hctrl hparams hbyte => ?_⟩
  · have hbyte' : ∀ i, s'.rxByte i = s.rxByte i ^^^ singleBitError k b i := fun i => by
      rw [hbyte, singleBitError]
      split
      · rfl
      · exact BitVec.xor_zero.symm
    rw [exec_eq]
    rcases decodeFrame_corrupted hv hlen hbyte' hctrl hparams with ⟨hcancel, -⟩ | ⟨-, he⟩
    · exact absurd hcancel (not_errorsCancel_singleBitError hk hb)
    · exact congrArg _ he
  · refine ⟨_, exec_eq .decf s', ?_⟩
    simp only [result]
    rcases decodeFrame_corrupted hv hlen hbyte hctrl hparams with ⟨hcancel, he⟩ | ⟨hcancel, he⟩ <;> rw [he]
    · exact ⟨iff_of_true rfl hcancel, fun hne => absurd rfl hne⟩
    · exact ⟨iff_of_false (show statusBits .checksumError 0 ≠ 0x000 by decide) hcancel, fun _ => rfl⟩

end Sys2Proof.Machine
end

section
/-! The chained operations TXF and RXF as their two halves one after the other (spec/42_transactions.md R110, R111). -/

namespace Sys2Proof.Machine

/-! ## TXF -/

section
variable {s : State} (h : s.EncodeFits)
include h

theorem encodeFrame_code : (encodeFrame s).code = 0x00 := by
  rw [encodeFrame_fits s h, State.finish_code]
  rfl

/-- The packet ENCF builds is never too long for SEND, so TXF cannot end with SEND's OperandError (spec/42_transactions.md R110). -/
theorem encodeFrame_sendFits : (encodeFrame s).SendFits := by
  rw [State.SendFits, encodeFrame_txlen s h, encodeFrame_params]
  exact h.2

theorem txf_of_encodeFits : result .txf s = sendPacket (encodeFrame s) := if_pos (encodeFrame_code h)

/-- What TXF leaves, by what ENCF leaves in `TXBUF` and `TXLEN` (spec/42_transactions.md R110). -/
theorem txf_fits :
    result .txf s =
      { s with
        status := statusBits .ok 0, drvA := true, drvB := true
        txlen := (encodeFrame s).txlen, txbuf := (encodeFrame s).txbuf
        outputs := s.outputs ++
          (txTrace s.params ((encodeFrame s).txBytes (encodeFrame s).txlen.toNat)).map Output.drove
        driveTicks := s.driveTicks +
          s.params.tStep * (s.params.startSeq.length + 24 * packetLength s.payloadCount + s.params.stopSeq.length) } := by
  rw [txf_of_encodeFits h, sendPacket_fits _ (encodeFrame_sendFits h), ← encodeFrame_txlen s h, encodeFrame_fits s h]
  rfl

end

theorem txf_rejects {s : State} (h : ¬ s.EncodeFits) : result .txf s = s.finish .operandError 0 := by
  have hcode : (encodeFrame s).code ≠ 0x00 := by
    rw [encodeFrame_rejects s h, State.finish_code]
    decide
  exact (if_neg hcode).trans (encodeFrame_rejects s h)

/-- A second SEND drives the trace of the first again, because SEND writes neither `TXBUF` nor `TXLEN` (spec/42_transactions.md R110). -/
theorem sendPacket_sendPacket_outputs {s : State} (h : s.SendFits) :
    (sendPacket (sendPacket s)).outputs =
      (sendPacket s).outputs ++ (txTrace s.params (s.txBytes s.txlen.toNat)).map Output.drove := by
  rw [sendPacket_fits s h]
  refine congrArg State.outputs (sendPacket_fits _ ?_)
  exact h

/-- Settles O38: a packet that ENCF builds fits SEND, which drives it and leaves it in `TXBUF`; a refused ENCF ends TXF. -/
theorem txfEncodesThenSends : Obligations.TxfEncodesThenSends := by
  refine fun s => ⟨fun h => ?_, fun h => (exec_eq .txf s).trans (congrArg _ (txf_rejects h))⟩
  have hrepeat := sendPacket_sendPacket_outputs (encodeFrame_sendFits h)
  rw [← txf_of_encodeFits h, encodeFrame_params] at hrepeat
  refine ⟨encodeFrame s, result .txf s, exec_eq .encf s, ?_, exec_eq .txf s, ?_⟩
  · rw [exec_eq, txf_of_encodeFits h]
    rfl
  · have hfits := txf_fits h
    refine ⟨?_, ?_, ?_, ?_, ?_, _, exec_eq .send _, hrepeat⟩ <;> rw [hfits] <;> rfl

/-! ## RXF -/

/-- DECF accepts a length that fits its buffer, whatever the packet (spec/41_frame_codec.md R96, R97). -/
theorem decodeFrame_status_ne_operandError {s : State} (h : s.DecodeFits) :
    (decodeFrame s).status ≠ statusBits .operandError 0 := by
  rcases decodeFrame_status s with he | he | ⟨-, he⟩ | ⟨hf, -⟩
  case inr.inr.inr => exact absurd h hf
  all_goals
    rw [he]
    decide

/-- No bytes are no valid packet in strict mode, and no whole group in relaxed mode (spec/42_transactions.md R111). -/
theorem decodeFrame_empty {s : State} (h : s.rxlen = 0) : decodeFrame s = s.finish .lengthError 0 := by
  have hn : s.rxlen.toNat = 0 := by rw [h]; rfl
  have hf : s.DecodeFits := hn.trans_le (Nat.zero_le _)
  by_cases hr : s.Relaxed
  · exact decodeFrame_relaxed_lengthError hf hr (by omega)
  · exact decodeFrame_strict_lengthError hf hr fun ⟨h5, _⟩ => by omega

/-- Settles O39: RXF is one chained operation, and what RECV leaves after Ok fits DECF. -/
theorem rxfReceivesThenDecodes : Obligations.RxfReceivesThenDecodes := by
  refine fun s maxb tmo hwf => ⟨receivePacket maxb tmo s, exec_eq (.recv maxb tmo) s, fun hcode => ?_, fun hcode => ?_⟩
  · rw [exec_eq]
    exact congrArg _ (if_neg hcode)
  · refine ⟨_, exec_eq .decf _, ?_, ?_, fun hempty => ?_⟩
    · rw [exec_eq]
      exact congrArg _ (if_pos hcode)
    · exact decodeFrame_status_ne_operandError (receivePacket_ok_decodeFits s maxb tmo hwf hcode)
    · exact congrArg State.status (decodeFrame_empty hempty)

end Sys2Proof.Machine
end

section
/-! No step stops the machine (spec/43_operation_laws.md R116, R117), and two runs of an operation agree on its results when they agree on
its inputs (R114). -/

namespace Sys2Proof.Machine

/-! ## Steps -/

/-- Settles O7: a quiet port leaves the state, and an event at the port is served to its end. -/
theorem everyStepHasANextState : Obligations.EveryStepHasANextState := fun s => by
  refine ⟨?_, step_quiet s⟩
  cases hp : s.pending with
  | nil => exact ⟨s, step_quiet s hp⟩
  | cons e rest => exact ⟨_, (step_event s e rest hp).trans (servePort_eq e _)⟩

/-! ## A reception in two states -/

/-- The bytes `RXLEN` counts are those of the reception, whatever `RXBUF` held before. -/
theorem State.received_rxBytes_agree (s s' : State) (r : Reception) :
    (s'.received r).rxBytes (s.received r).rxlen.toNat = (s.received r).rxBytes (s.received r).rxlen.toNat := by
  refine List.map_congr_left fun i hi => ?_
  have hi : i < r.bytes.length := by
    rw [List.mem_range, State.received_rxlen, BitVec.toNat_ofNat] at hi
    exact hi.trans_le (Nat.mod_le _ _)
  simp only [State.received_rxByte, List.getElem?_eq_getElem hi, Option.getD_some]

/-! ## SEND -/

section
variable {s s' : State} (hparams : s'.params = s.params)
include hparams

theorem sendPacket_agrees (hlen : s'.txlen = s.txlen) (htx : s'.txBytes s.txlen.toNat = s.txBytes s.txlen.toNat) :
    (sendPacket s').status = (sendPacket s).status ∧
      ∃ new, (sendPacket s).outputs = s.outputs ++ new ∧ (sendPacket s').outputs = s'.outputs ++ new := by
  have hfit : s'.SendFits ↔ s.SendFits := by rw [State.SendFits, hlen, hparams]
  by_cases h : s.SendFits
  · rw [sendPacket_fits s h, sendPacket_fits s' (hfit.2 h), hparams, hlen, htx]
    exact ⟨rfl, _, rfl, rfl⟩
  · rw [sendPacket_rejects s h, sendPacket_rejects s' (mt hfit.1 h)]
    exact ⟨rfl, [], (List.append_nil _).symm, (List.append_nil _).symm⟩

/-! ## RECV -/

/-- Two receptions of the same samples through the same latches take the same path to the same end (spec/40_transport.md R74). -/
theorem receivePacket_same_end {maxb : Nat} (tmo : Nat) (hfit : s.RecvFits maxb) (hpeer : s'.peer = s.peer)
    (hlatches : s'.latches = s.latches) :
    (∃ p, receivePacket maxb tmo s = { s with rxlen := 0, peer := p }.finish .timeout 0 ∧
      receivePacket maxb tmo s' = { s' with rxlen := 0, peer := p }.finish .timeout 0) ∨
    ∃ r, receivePacket maxb tmo s = s.received r ∧ receivePacket maxb tmo s' = s'.received r := by
  have hfit' : s'.RecvFits maxb := by rwa [State.RecvFits, hparams]
  simp only [receivePacket, if_pos hfit, if_pos hfit', hpeer, hlatches, hparams]
  cases (awaitChange s.latches (s.peer.sample s.latches).1 tmo (s.peer.sample s.latches).2).1 with
  | none => exact .inl ⟨_, rfl, rfl⟩
  | some x => exact .inr ⟨_, rfl, rfl⟩

theorem receivePacket_agrees {maxb : Nat} (tmo : Nat) (hfit : s.RecvFits maxb) (hpeer : s'.peer = s.peer)
    (hlatches : s'.latches = s.latches) :
    (receivePacket maxb tmo s').status = (receivePacket maxb tmo s).status ∧
      (receivePacket maxb tmo s').rxlen = (receivePacket maxb tmo s).rxlen ∧
      (receivePacket maxb tmo s').rxBytes (receivePacket maxb tmo s).rxlen.toNat =
        (receivePacket maxb tmo s).rxBytes (receivePacket maxb tmo s).rxlen.toNat ∧
      (receivePacket maxb tmo s').peer = (receivePacket maxb tmo s).peer := by
  rcases receivePacket_same_end hparams tmo hfit hpeer hlatches with ⟨p, he, he'⟩ | ⟨r, he, he'⟩ <;> rw [he, he']
  · exact ⟨rfl, rfl, rfl, rfl⟩
  · exact ⟨rfl, rfl, s.received_rxBytes_agree s' r, rfl⟩

/-! ## ENCF -/

/-- Both runs build the packet of the same header and words (spec/41_frame_codec.md R95). -/
theorem encodeFrame_agrees (hfit : s.EncodeFits) (hhdr : s'.hdr = s.hdr)
    (hpw : s'.pwWords s.payloadCount = s.pwWords s.payloadCount) :
    (encodeFrame s').status = (encodeFrame s).status ∧ (encodeFrame s').txlen = (encodeFrame s).txlen ∧
      (encodeFrame s').txBytes (encodeFrame s).txlen.toNat = (encodeFrame s).txBytes (encodeFrame s).txlen.toNat := by
  have hcount : s'.payloadCount = s.payloadCount := by rw [State.payloadCount, hhdr, State.payloadCount]
  have hfit' : s'.EncodeFits := by rwa [State.EncodeFits, hcount, hparams]
  have hpacket := encodeFrame_txBytes s' hfit'
  rw [hcount, hhdr, hpw] at hpacket
  refine ⟨?_, ?_, ?_⟩
  · rw [encodeFrame_fits s hfit, encodeFrame_fits s' hfit']
    rfl
  · exact BitVec.eq_of_toNat_eq (by rw [encodeFrame_txlen s hfit, encodeFrame_txlen s' hfit', hcount])
  · rw [encodeFrame_txlen s hfit, hpacket, encodeFrame_txBytes s hfit]

end

/-! ## DECF -/

/-- Two ends of DECF with the same status and, after Ok, the same header, number of words and words (spec/41_frame_codec.md R96, R97). -/
def SameDecode (t t' : State) : Prop :=
  t'.status = t.status ∧
    (t.status = 0 → t'.hdr = t.hdr ∧ t'.nwords = t.nwords ∧ t'.pwWords t.nwords.toNat = t.pwWords t.nwords.toNat)

theorem sameDecode_of_error (s s' : State) {c : Code} (hc : c ≠ .ok) : SameDecode (s.finish c 0) (s'.finish c 0) := by
  have hstatus : statusBits c 0 ≠ 0 := by
    revert hc
    cases c <;> decide
  exact ⟨rfl, fun h => absurd h hstatus⟩

section
variable {s s' : State} {n : Nat} (hrx : s'.rxBytes n = s.rxBytes n)
include hrx

theorem State.rxByte_agree {i : Nat} (hi : i < n) : s'.rxByte i = s.rxByte i :=
  List.map_inj_left.1 hrx i (List.mem_range.2 hi)

theorem State.rxGroup_agree {g : Nat} (hg : 4 * g + 3 < n) : s'.rxGroup g = s.rxGroup g := by
  simp only [State.rxGroup]
  rw [State.rxByte_agree hrx (by omega), State.rxByte_agree hrx (by omega), State.rxByte_agree hrx (by omega),
    State.rxByte_agree hrx hg]

theorem State.checksumOk_agree (hn : 0 < n) : s'.ChecksumOk n ↔ s.ChecksumOk n := by
  rw [State.checksumOk_iff s' hn, State.checksumOk_iff s hn, hrx]

/-- Groups that lie whole in the bytes the two states share are delivered alike. -/
theorem sameDecode_of_deliver {g : Nat} (h1 : 1 ≤ g) (hg : 4 * g ≤ n) :
    SameDecode ((s.deliver g).finish .ok 0) ((s'.deliver g).finish .ok 0) := by
  refine ⟨rfl, fun _ => ⟨State.rxGroup_agree hrx (by omega), rfl, List.map_congr_left fun i hi => ?_⟩⟩
  have hi : i < g - 1 := by
    rw [List.mem_range, State.finish_nwords, State.deliver_nwords, BitVec.toNat_ofNat] at hi
    exact hi.trans_le (Nat.mod_le _ _)
  rw [State.finish_pwWord, State.finish_pwWord, State.deliver_pwWord, State.deliver_pwWord, if_pos hi, if_pos hi,
    State.rxGroup_agree hrx (by omega)]

end

/-- Both runs of DECF pass the same tests, of the mode, the length and the checksum, and deliver the same groups. -/
theorem decodeFrame_sameDecode {s s' : State} (hparams : s'.params = s.params) (hf : s.DecodeFits)
    (hctrl : s'.ctrl = s.ctrl) (hlen : s'.rxlen = s.rxlen)
    (hrx : s'.rxBytes s.rxlen.toNat = s.rxBytes s.rxlen.toNat) : SameDecode (decodeFrame s) (decodeFrame s') := by
  have hf' : s'.DecodeFits := by rwa [State.DecodeFits, hlen, hparams]
  by_cases hr : s.Relaxed
  · have hr' : s'.Relaxed := hctrl.trans hr
    by_cases hn : s.rxlen.toNat < 4
    · rw [decodeFrame_relaxed_lengthError hf hr hn, decodeFrame_relaxed_lengthError hf' hr' (by rwa [hlen])]
      exact sameDecode_of_error s s' (by decide)
    · rw [decodeFrame_relaxed_ok hf hr (by omega), decodeFrame_relaxed_ok hf' hr' (by rw [hlen]; omega), hlen]
      exact sameDecode_of_deliver hrx (by rw [relaxedGroups]; omega) (by rw [relaxedGroups]; omega)
  · have hr' : ¬ s'.Relaxed := by rwa [State.Relaxed, hctrl]
    by_cases hl : StrictLength s.rxlen.toNat
    · have hl' : StrictLength s'.rxlen.toNat := by rwa [hlen]
      have ⟨h5, _⟩ := hl
      have hsum' : s'.ChecksumOk s'.rxlen.toNat ↔ s.ChecksumOk s.rxlen.toNat := by
        rw [hlen]
        exact State.checksumOk_agree hrx (by omega)
      by_cases hsum : s.ChecksumOk s.rxlen.toNat
      · rw [decodeFrame_strict_ok hf hr hl hsum, decodeFrame_strict_ok hf' hr' hl' (hsum'.2 hsum), hlen]
        exact sameDecode_of_deliver hrx (by rw [strictGroups]; omega) (by rw [strictGroups]; omega)
      · rw [decodeFrame_strict_checksumError hf hr hl hsum,
          decodeFrame_strict_checksumError hf' hr' hl' (mt hsum'.1 hsum)]
        exact sameDecode_of_error s s' (by decide)
    · rw [decodeFrame_strict_lengthError hf hr hl, decodeFrame_strict_lengthError hf' hr' (by rwa [hlen])]
      exact sameDecode_of_error s s' (by decide)

/-! ## The statement -/

/-- Settles O47: one lemma for each operation on the ends of its two runs. -/
theorem operationsDependOnlyOnTheirInputs : Obligations.OperationsDependOnlyOnTheirInputs := by
  refine fun s s' hparams => ⟨fun hlen htx => ?send, fun maxb tmo _ hfit hpeer hlatches => ?recv,
    fun hfit hhdr hpw => ?encf, fun _ hf hctrl hlen hrx => ?decf⟩
  case send =>
    obtain ⟨hstatus, new, hout, hout'⟩ := sendPacket_agrees hparams hlen htx
    exact ⟨_, _, new, exec_eq .send s, exec_eq .send s', hstatus, hout, hout'⟩
  case recv =>
    exact ⟨_, _, exec_eq (.recv maxb tmo) s, exec_eq (.recv maxb tmo) s',
      receivePacket_agrees hparams tmo hfit hpeer hlatches⟩
  case encf => exact ⟨_, _, exec_eq .encf s, exec_eq .encf s', encodeFrame_agrees hparams hfit hhdr hpw⟩
  case decf => exact ⟨_, _, exec_eq .decf s, exec_eq .decf s', decodeFrame_sameDecode hparams hf hctrl hlen hrx⟩

end Sys2Proof.Machine
end

section
/-! Which operation can end with which code (spec/60_exceptions.md R122): each operation keeps to its row of the table, and each entry of a
row is reached from a state made from the reset state. -/

namespace Sys2Proof.Machine

open Sys2Proof.Claims

/-! ## Every operation keeps to its row -/

/-- `t` holds a code that the row of `i` allows, and ChecksumError only if strict mode was set in `s` (spec/60_exceptions.md R122). -/
def Reports (i : Instr) (s t : State) : Prop :=
  ∃ c : Code, t.code = c.bits ∧ mayReport i c = true ∧ (c = .checksumError → ¬ s.Relaxed)

theorem Reports.of_status {i : Instr} {s t : State} {c : Code} {d : BitVec 4} (h : t.status = statusBits c d)
    (hrow : mayReport i c = true) (hc : c ≠ .checksumError) : Reports i s t :=
  ⟨c, State.code_of_status t c d h, hrow, fun he => absurd he hc⟩

theorem sendPacket_reports (s : State) : Reports .send s (sendPacket s) := by
  rcases sendPacket_status s with h | h
  · exact .of_status h rfl (by decide)
  · exact .of_status h rfl (by decide)

theorem encodeFrame_reports (s : State) : Reports .encf s (encodeFrame s) := by
  rcases encodeFrame_status s with ⟨-, h⟩ | ⟨-, h⟩
  · exact .of_status h rfl (by decide)
  · exact .of_status h rfl (by decide)

theorem decodeFrame_reports (s : State) : Reports .decf s (decodeFrame s) := by
  rcases decodeFrame_status s with h | h | ⟨hstrict, h⟩ | ⟨-, h⟩
  · exact .of_status h rfl (by decide)
  · exact .of_status h rfl (by decide)
  · exact ⟨.checksumError, State.code_of_status _ _ _ h, rfl, fun _ => hstrict⟩
  · exact .of_status h rfl (by decide)

theorem receivePacket_reports (maxb tmo : Nat) (s : State) : Reports (.recv maxb tmo) s (receivePacket maxb tmo s) := by
  rcases receivePacket_status s maxb tmo with h | h | ⟨v, h⟩
  · exact .of_status h rfl (by decide)
  · exact .of_status h rfl (by decide)
  · cases v with
    | ok => exact .of_status h rfl (by decide)
    | overflow => exact .of_status h rfl (by decide)
    | frameError d => exact .of_status (c := .frameError) h rfl (by decide)

/-- A chained operation whose row holds the rows of its halves keeps to it, when the first half leaves `CTRL` to the second. -/
theorem thenIfOk_reports {i j k : Instr} {f g : State → State} {s : State} (hf : Reports i s (f s))
    (hg : Reports j (f s) (g (f s))) (hctrl : (f s).ctrl = s.ctrl) (hi : ∀ c, mayReport i c = true → mayReport k c = true)
    (hj : ∀ c, mayReport j c = true → mayReport k c = true) : Reports k s (thenIfOk f g s) := by
  rcases thenIfOk_cases f g s with ⟨-, he⟩ | ⟨-, he⟩ <;> rw [he]
  · obtain ⟨c, hcode, hrow, hstrict⟩ := hg
    rw [State.Relaxed, hctrl] at hstrict
    exact ⟨c, hcode, hj c hrow, hstrict⟩
  · obtain ⟨c, hcode, hrow, hstrict⟩ := hf
    exact ⟨c, hcode, hi c hrow, hstrict⟩

/-- RXF's row is RECV's and DECF's together (spec/60_exceptions.md R122). -/
theorem mayReport_rxf (maxb tmo : Nat) (c : Code) :
    mayReport (.rxf maxb tmo) c = (mayReport (.recv maxb tmo) c || mayReport .decf c) := by cases c <;> rfl

theorem result_reports (i : Instr) (s : State) : Reports i s (result i s) := by
  cases i with
  | send => exact sendPacket_reports s
  | recv maxb tmo => exact receivePacket_reports maxb tmo s
  | encf => exact encodeFrame_reports s
  | decf => exact decodeFrame_reports s
  | txf =>
    exact thenIfOk_reports (encodeFrame_reports s) (sendPacket_reports _) (by rw [encodeFrame_frame]) (fun _ => id) (fun _ => id)
  | rxf maxb tmo =>
    exact thenIfOk_reports (receivePacket_reports maxb tmo s) (decodeFrame_reports _) (receivePacket_ctrl s maxb tmo)
      (fun c h => by rw [mayReport_rxf, h, Bool.true_or]) (fun c h => by rw [mayReport_rxf, h, Bool.or_true])

/-! ## States that reach the codes -/

/-- The packet is one byte longer than `TXBUF`. -/
def longSend : State := { State.reset with txlen := 1026 }

/-- The packet of one payload word has 9 bytes, and `TXBUF` has 5. -/
def longFrame : State := { State.reset with params := { Params.reference with txbufSize := 5 }, hdr := 0x00000001 }

/-- The packet to decode is one byte longer than `RXBUF`. -/
def longDecode : State := { State.reset with rxlen := 1026 }

/-- The peer shows the listed line states, one for each sample. -/
def facing (queue : List LineState) : State := { State.reset with peer := ⟨queue, 0⟩ }

/-- The peer sends a packet after one tick of `IDLE`. -/
def facingPacket (bytes : List Byte) : State := facing (.idle :: txTrace Params.reference bytes)

theorem reset_inv : State.reset.Inv := resetMeetsTheInvariant.2.2

theorem longSend_inv : longSend.Inv := reset_inv

theorem longFrame_inv : longFrame.Inv := (State.reset_inv_iff { Params.reference with txbufSize := 5 }).2 (by decide)

theorem longDecode_inv : longDecode.Inv := reset_inv

theorem facing_inv (queue : List LineState) : (facing queue).Inv := reset_inv

theorem hold_once (trace : List LineState) : hold (trace.map fun x => (x, 0)) = trace := by
  simp [hold, List.flatMap_map]

theorem facingPacket_sends {bytes : List Byte} (h : bytes.length ≤ 100) :
    PeerSends (facingPacket bytes) 1 (txTrace Params.reference bytes) := by
  refine ⟨⟨rfl, rfl⟩, 0, (txTrace Params.reference bytes).map fun x => (x, 0), [], by simp [Function.comp_def], ?_, le_refl _, ?_⟩
  · rw [hold_once, List.append_nil]
    rfl
  · rw [hold_once, txTrace_length]
    show 11 + 24 * bytes.length + 8 ≤ 4096
    omega

/-! ## Receptions -/

/-- Every code in RECV's row, which is the same for all operands, is the end of a reception (spec/60_exceptions.md R122). -/
theorem receivePacket_reaches {c : Code} (h : mayReport (.recv 0 0) c = true) :
    ∃ maxb tmo s, OperandsFit maxb tmo ∧ s.Inv ∧ (receivePacket maxb tmo s).code = c.bits := by
  simp only [mayReport, decide_eq_true_eq, List.mem_cons, List.not_mem_nil, or_false] at h
  rcases h with rfl | rfl | rfl | rfl | rfl
  · have hr := receivePacket_txTrace (maxb := 0) reference_params_wf (Nat.zero_le _) (Nat.zero_le _)
      (facingPacket_sends (bytes := []) (by decide))
    exact ⟨0, 1, facingPacket [], by decide, facing_inv _, State.code_of_status _ .ok 0 hr.status⟩
  · exact ⟨0, 0, State.reset, by decide, reset_inv, rfl⟩
  · exact ⟨0, 1, facing [.s11, .s00], by decide, facing_inv _, by decide⟩
  · obtain ⟨t, ht, hst, -⟩ := recvKeepsTheBytesThatFitOnOverflow (facingPacket [0x00]) 0 1 [0x00] reference_params_wf
      (Nat.zero_le _) (by decide) (facingPacket_sends (by decide))
    obtain rfl := (exec_next_iff _ _ t).1 ht
    exact ⟨0, 1, facingPacket [0x00], by decide, facing_inv _, State.code_of_status _ .overflow 0 hst⟩
  · exact ⟨1026, 0, State.reset, by decide, reset_inv, rfl⟩

/-- What strict DECF reports of the bytes of a packet that fits `RXBUF` (spec/41_frame_codec.md R96). -/
def strictCode (bytes : List Byte) : Code :=
  if StrictLength bytes.length then if xorBytes bytes = 0 then .ok else .checksumError else .lengthError

theorem decodeFrame_strictCode {s : State} {bytes : List Byte} (hf : s.DecodeFits) (hr : ¬ s.Relaxed)
    (hlen : s.rxlen.toNat = bytes.length) (hbytes : s.rxBytes bytes.length = bytes) :
    (decodeFrame s).code = (strictCode bytes).bits := by
  rw [strictCode]
  by_cases hl : StrictLength bytes.length
  · have hsum := s.checksumOk_iff (n := bytes.length) (by have := hl.1; omega)
    rw [hbytes] at hsum
    rw [if_pos hl]
    by_cases hx : xorBytes bytes = 0
    · rw [if_pos hx, decodeFrame_strict_ok hf hr (hlen ▸ hl) (hlen ▸ hsum.2 hx), State.finish_code]
    · rw [if_neg hx, decodeFrame_strict_checksumError hf hr (hlen ▸ hl) (hlen ▸ mt hsum.1 hx), State.finish_code]
  · rw [if_neg hl, decodeFrame_strict_lengthError hf hr (hlen ▸ hl), State.finish_code]

/-- DECF after the reception of some bytes judges these bytes, and that reception is Ok. -/
theorem facingPacket_received {bytes : List Byte} (h : bytes.length ≤ 100) :
    (receivePacket 100 1 (facingPacket bytes)).code = 0x00 ∧
      (decodeFrame (receivePacket 100 1 (facingPacket bytes))).code = (strictCode bytes).bits := by
  have hr := receivePacket_txTrace (maxb := 100) reference_params_wf
    (show 100 ≤ Params.reference.rxbufSize by decide) h (facingPacket_sends h)
  have hcode := State.code_of_status _ .ok 0 hr.status
  refine ⟨hcode, decodeFrame_strictCode (receivePacket_ok_decodeFits _ _ _ reference_params_wf hcode) ?_ hr.rxlen hr.rxBytes⟩
  rw [State.Relaxed, receivePacket_ctrl]
  exact (by decide : ¬ State.reset.Relaxed)

/-- Each code of strict DECF but OperandError is reached on some bytes. -/
theorem strictCode_reaches {c : Code} (h : c ∈ [Code.ok, .lengthError, .checksumError]) :
    ∃ bytes, bytes.length ≤ 100 ∧ strictCode bytes = c := by
  simp only [List.mem_cons, List.not_mem_nil, or_false] at h
  rcases h with rfl | rfl | rfl
  · exact ⟨[0x00, 0x00, 0x00, 0x00, 0x00], by decide, by decide⟩
  · exact ⟨[], by decide, by decide⟩
  · exact ⟨[0x00, 0x00, 0x00, 0x00, 0x01], by decide, by decide⟩

/-- A reception that fails ends RXF (spec/42_transactions.md R111). -/
theorem rxf_code_of_error {maxb tmo : Nat} {s : State} {c : Code} (h : (receivePacket maxb tmo s).code = c.bits)
    (hc : c ≠ .ok) : (result (.rxf maxb tmo) s).code = c.bits := by
  have hne : (receivePacket maxb tmo s).code ≠ 0x00 := fun h0 => hc (Code.bits_injective c .ok (h.symm.trans h0))
  exact (congrArg State.code (if_neg hne)).trans h

/-! ## Every entry of a row is reached -/

/-- Some operation with the code of `i` ends with the result `c` from a state of the invariant. -/
def Reaches (i : Instr) (c : Code) : Prop :=
  ∃ (j : Instr) (s t : State), j.opc = i.opc ∧ j.WellFormed ∧ s.Inv ∧ exec j s = .next t ∧ t.code = c.bits

theorem Reaches.of_result {i : Instr} {c : Code} (j : Instr) {s : State} (hopc : j.opc = i.opc) (hwf : j.WellFormed) (hs : s.Inv)
    (hcode : (result j s).code = c.bits) : Reaches i c :=
  ⟨j, s, result j s, hopc, hwf, hs, exec_eq j s, hcode⟩

theorem decf_reaches {c : Code} (h : mayReport .decf c = true) : Reaches .decf c := by
  by_cases hc : c = .operandError
  · subst hc
    exact .of_result .decf rfl rfl longDecode_inv rfl
  · obtain ⟨bytes, hn, rfl⟩ := strictCode_reaches (c := c) (by revert h hc; cases c <;> decide)
    exact .of_result .decf rfl rfl (receivePacket_inv (facing_inv _) 100 1) (facingPacket_received hn).2

theorem rxf_reaches {c : Code} (maxb tmo : Nat) (h : mayReport (.rxf 0 0) c = true) : Reaches (.rxf maxb tmo) c := by
  by_cases hc : c ∈ [Code.ok, .lengthError, .checksumError]
  · obtain ⟨bytes, hn, rfl⟩ := strictCode_reaches hc
    obtain ⟨hok, hcode⟩ := facingPacket_received hn
    exact .of_result (.rxf 100 1) rfl rfl (facing_inv _) ((congrArg State.code (if_pos hok)).trans hcode)
  · obtain ⟨m, n, s, hfit, hs, hcode⟩ := receivePacket_reaches (c := c) (by revert h hc; cases c <;> decide)
    exact .of_result (.rxf m n) rfl (decide_eq_true hfit) hs (rxf_code_of_error hcode fun he => hc (he ▸ List.mem_cons_self))

theorem mayReport_reaches (i : Instr) (c : Code) (h : mayReport i c = true) : Reaches i c := by
  cases i with
  | send =>
    rcases List.mem_pair.1 (of_decide_eq_true h) with rfl | rfl
    · exact .of_result .send rfl rfl reset_inv rfl
    · exact .of_result .send rfl rfl longSend_inv rfl
  | recv maxb tmo =>
    obtain ⟨m, n, s, hfit, hs, hcode⟩ := receivePacket_reaches h
    exact .of_result (.recv m n) rfl (decide_eq_true hfit) hs hcode
  | encf =>
    rcases List.mem_pair.1 (of_decide_eq_true h) with rfl | rfl
    · exact .of_result .encf rfl rfl reset_inv rfl
    · exact .of_result .encf rfl rfl longFrame_inv rfl
  | decf => exact decf_reaches h
  | txf =>
    rcases List.mem_pair.1 (of_decide_eq_true h) with rfl | rfl
    · exact .of_result .txf rfl rfl reset_inv (State.code_of_status _ .ok 0 (by rw [txf_fits (by decide)]))
    · exact .of_result .txf rfl rfl longFrame_inv rfl
  | rxf maxb tmo => exact rxf_reaches maxb tmo h

/-! ## The statement -/

/-- An illegal word's step ends with IllegalOp (spec/30_encoding.md R51). -/
theorem step_illegalWord_code {s t : State} {w : Word} (hw : IllegalWord w) (h : step (s.withCommand w) = .next t) :
    t.code = Code.illegalOp.bits := by
  obtain ⟨e, he⟩ := (illegalWord_iff w).1 hw
  rw [step_command (s.withCommand w) w s.pending rfl, commandResult_of_error he] at h
  injection h with h
  exact State.code_of_status t .illegalOp 0 (congrArg State.status h.symm)

/-- Settles O42: the ends of each operation lie in its row, and for each entry of a row there is a state that reaches it. -/
theorem operationsReportExactlyTheirCodes : Obligations.OperationsReportExactlyTheirCodes := by
  refine ⟨fun i s t h => ?_, mayReport_reaches, fun s t w => step_illegalWord_code⟩
  obtain rfl := (exec_next_iff i s t).1 h
  exact result_reports i s

end Sys2Proof.Machine
end

section
/-! What a reset leaves, between accesses and inside a command (spec/70_reset_and_hazards.md R140), and how much is seen of the command it
cuts short. -/

namespace Sys2Proof.Machine

/-! ## What is seen of the command -/

/-- The line states begun in `spent` ticks, the last perhaps not held for its whole time, end less than `T_STEP` ticks later. -/
theorem mul_ceilDiv_lt {tStep : Nat} (ht : 0 < tStep) (spent : Nat) : tStep * (spent ⌈/⌉ tStep) < spent + tStep := by
  have h := Nat.mul_div_le (spent + tStep - 1) tStep
  rw [← Nat.ceilDiv_eq_add_pred_div] at h
  omega

section
variable {s u : State} {trace : List LineState} (h : s.Drove u trace)
include h

/-- No more line states are begun before the reset than the whole operation drives. -/
theorem State.Drove.begun_le (ht : 0 < s.params.tStep) (ticks : Nat) :
    min ticks (u.driveTicks - s.driveTicks) ⌈/⌉ s.params.tStep ≤ trace.length := by
  obtain ⟨-, hticks⟩ := h
  rw [ceilDiv_le_iff_le_mul ht]
  omega

/-- Of an operation that a reset cuts short, the first line states it drives are seen: those begun before the reset. -/
theorem State.Drove.abandon_eq (ticks : Nat) :
    abandon s u ticks =
      { s.restart with
        outputs := s.outputs ++
          (trace.take (min ticks (u.driveTicks - s.driveTicks) ⌈/⌉ s.params.tStep)).map Output.drove
        driveTicks := s.driveTicks + min ticks (u.driveTicks - s.driveTicks)
        peer := s.peer.after (min ticks (u.peer.taken - s.peer.taken)) } := by
  obtain ⟨hout, -⟩ := h
  rw [List.map_take, ← List.take_length_add_append, ← hout]
  rfl

end

/-! ## What a reset leaves in the buffers -/

/-- Every buffer element is at its draw of reset number `epoch` (spec/10_state.md R25). -/
def State.AtDraws (s : State) (epoch : Nat) : Prop :=
  ∀ i, s.txByte i = Config.drawnTx epoch i ∧ s.rxByte i = Config.drawnRx epoch i ∧ s.pwWord i = Config.drawnPw epoch i

theorem State.restart_atDraws (s : State) : s.restart.AtDraws (s.epoch + 1) := fun _ => ⟨rfl, rfl, rfl⟩

theorem abandon_atDraws (s u : State) (ticks : Nat) : (abandon s u ticks).AtDraws (s.epoch + 1) := s.restart_atDraws

/-- A step that is a reset of either kind leaves every buffer element at a new draw (spec/70_reset_and_hazards.md R140). -/
theorem step_reset_atDraws {s t : State} {rest : List PortEvent}
    (hp : s.pending = .reset :: rest ∨ ∃ w ticks, s.pending = .resetDuring w ticks :: rest) (h : step s = .next t) :
    t.AtDraws (s.epoch + 1) := by
  rcases hp with hp | ⟨w, ticks, hp⟩
  · rw [step_reset s rest hp] at h
    injection h with h
    exact h ▸ State.restart_atDraws _
  · rw [step_resetDuring s w ticks rest hp] at h
    injection h with h
    exact h ▸ abandon_atDraws _ _ ticks

/-! ## The statement -/

/-- Settles O12: a reset inside a command shows a first part of the line states that `commandResult_drove` says the whole command drives,
one for each `T_STEP` ticks begun. -/
theorem resetRestoresTheResetState : Obligations.ResetRestoresTheResetState := by
  refine fun s rest => ⟨step_reset s rest, fun w ticks hwf hp => ?_, fun t => step_reset_atDraws⟩
  have ht : 0 < s.params.tStep := hwf.sizes.1
  obtain ⟨trace, hdrove⟩ := commandResult_drove w { s with pending := rest }
  have hstep := step_resetDuring s w ticks rest hp
  rw [hdrove.abandon_eq ticks] at hstep
  exact ⟨_, trace, _, _, _, runCommand_eq w _, hdrove.1, hdrove.begun_le ht ticks, rfl, rfl, le_smul_ceilDiv ht,
    mul_ceilDiv_lt ht _, hstep⟩

end Sys2Proof.Machine
end

section
/-! The command words listed in spec/95_test_vectors.md, part 2: a legal one is the encoder's word of the operation listed for it, an illegal
one fails one of the decoder's two tests (spec/30_encoding.md R46 to R53). -/

namespace Sys2Proof.Machine

section
variable {w : Word}

/-- The word the encoder writes for a well-formed operation is read as that operation (spec/30_encoding.md R46). -/
theorem decode_eq_ok {i : Instr} (hwf : i.WellFormed) (hw : encode i = w) : decode w = .ok i :=
  (decode_eq_iff w (.ok i)).2 ⟨hwf, hw⟩

/-- A word whose bits 31:28 are no operation's code (spec/30_encoding.md R47). -/
theorem decode_eq_reservedOpcode (hopc : w.toNat / 2 ^ 28 ∉ [1, 2, 3, 4, 5, 6]) : decode w = .error .reservedOpcode :=
  (decode_eq_iff w (.error .reservedOpcode)).2 hopc

/-- A word with a bit of 27:0 set although its operation takes no operand (spec/30_encoding.md R50). -/
theorem decode_eq_reservedField (hopc : w.toNat / 2 ^ 28 ∈ [1, 3, 4, 5]) (hbits : w.toNat % 2 ^ 28 ≠ 0) :
    decode w = .error .reservedField :=
  (decode_eq_iff w (.error .reservedField)).2 ⟨hopc, hbits⟩

end

/-- Settles O4: E1 to E9 are the encoder's words; E11 to E13 and E18 have a reserved operation code; E14 to E17 have a reserved bit set. -/
theorem listedCommandWordsDecodeAsWritten : Obligations.ListedCommandWordsDecodeAsWritten := by
  refine ⟨?send, ?recv, ?recvZero, ?recvLargest, ?encf, ?decf, ?txf, ?rxf, ?rxfFull, ?zero, ?ones, ?opc7, ?opc8,
    ?sendBits, ?encfBits, ?decfBits, ?txfBits⟩
  case send | recv | recvZero | recvLargest | encf | decf | txf | rxf | rxfFull =>
    exact decode_eq_ok (by decide) (by decide)
  case zero | ones | opc7 | opc8 => exact decode_eq_reservedOpcode (by decide)
  case sendBits | encfBits | decfBits | txfBits => exact decode_eq_reservedField (by decide) (by decide)

end Sys2Proof.Machine
end
